-- ==== Sys2Proof/Word.lean ====
section
/-! DEFINITION. The bit-vector types of the block and their plainest arithmetic. -/

namespace Sys2Proof

/-- One byte: the width of every memory access (R44). -/
abbrev Byte := BitVec 8

/-- The command word HOST writes to the command port: 128 bits, bit 0 least significant (R60). -/
abbrev CmdWord := BitVec 128

/-- A coordinate operand: 16 bits, two's complement (R8 `COORD_W`, R70). -/
abbrev Coord := BitVec 16

/-- A length, a remaining count or a byte offset inside a space: 16 bits, unsigned (R8 `LEN_W`, `OFF_W`). -/
abbrev Len16 := BitVec 16

end Sys2Proof
end

