-- ==== Sys2Proof/Config.lean ====
section
/-! DEFINITION. What is fixed for the machine and is no state: sizes of the spaces, the type of the
OPEN parameters of R8, and the free values of what the spec leaves open. The defaults of the
parameters, and what D25 requires of them, stand in Machine/Params.lean. -/

namespace Sys2Proof

/-- The two choices the environment makes for one turn of HOST.
`quantum` is where the foreground is preempted: `none`, not in this turn; `some n`, after its first
micro-step and `n` more (R6: an IRQ or BUS step may occur between any two micro-steps; log 4).
`order` is the order in which a drawing command writes its pixels (R170; log 6). -/
structure HostTurn where
  quantum : Option Nat
  order   : List Nat
  deriving DecidableEq, Repr, Inhabited

/-- Which agent moves (R5, R50): the foreground, the interrupt handler, or the bus agent. -/
inductive Turn where
  | host (h : HostTurn)
  | irq
  | bus
  deriving DecidableEq, Repr, Inhabited

/-- The two readings of the line's out-of-bounds sentence (R161, D10). -/
inductive LineOobRule where
  | perAxis
  | perEndpoint
  deriving DecidableEq, Repr

/-- The OPEN parameters of R8. A model takes them as arguments: they are data of the machine's state
that no step writes (log 9), and every statement holds for all of their values. `PAGE_BASE` is the
last byte of `SETPAGE_SEQ` (R132, D25), so it is no field of its own. -/
structure OpenParams where
  /-- `CMD_MARKER` (R134). No rule reads it: it stands inside the three sequences. -/
  cmdMarker : Byte
  /-- `DATA_MARKER` (R134). -/
  dataMarker : Byte
  /-- `INIT_SEQ` (R131). -/
  initSeq : List Byte
  /-- `SETPAGE_SEQ` (R132). -/
  setpageSeq : List Byte
  /-- `BRIGHT_SEQ` (R133). -/
  brightSeq : List Byte
  /-- `LINE_OOB_RULE` (R161). -/
  lineOob : LineOobRule
  deriving DecidableEq, Repr

namespace Config

/-- Size in bytes of `ROM` space (R40). -/
def romSize : Nat := 64

/-- Size in bytes of `CMD` space (R40). -/
def cmdSize : Nat := 8

/-- FREE VALUE: which agent moves at step `n`, once the state's list of turns is used up (R50, R187;
log 1). -/
opaque freeTurn : Nat → Turn

/-- FREE VALUE: the 2-bit `txd.pfx_space` stored for a reserved 8-bit space code of an EMPTY prefix
run, at step `n` (R81 says the code is ignored and R13 that the field is never read; log 14). -/
opaque reservedPfxSpace : Nat → BitVec 2

/-- FREE VALUE: as `reservedPfxSpace`, for the payload run (R14; log 14), and for the payload cursor
`-` of the pipeline's prefix-only calls (R121, R123, R124; log 27). -/
opaque reservedPaySpace : Nat → BitVec 2

/-- FREE VALUE: the `txd.pay_off` stored for the payload cursor `-` of the pipeline's prefix-only calls,
at step `n` (42_refresh_pipeline.md: "an ignored cursor of an empty run"; log 27). -/
opaque ignoredPayOff : Nat → Len16

end Config
end Sys2Proof
end

