-- ==== Sys2Proof/Syntax.lean ====
section
/-! DEFINITION. The instructions: one constructor per row of spec/opcode_table.json. -/

namespace Sys2Proof

/-- The three selector spaces of R60 in one type. The first twelve are the host commands, with the
operand fields of their formats (R61 to R69) as the encoding holds them; the next five the handler
arms selected by `fsm` (R72); the last four the completion actions selected by `txd.cb` (R73). -/
inductive Instr where
  /-- INIT, format I (R65, R121). -/
  | init (busAddr : BitVec 7) (width height : BitVec 16) (busFreq : BitVec 32)
  /-- PUT_PIXEL, format P (R63, R142). -/
  | putPixel (params : Byte) (x y : Coord)
  /-- PUT_RECT, format R (R64, R151). -/
  | putRect (params : Byte) (x0 y0 x1 y1 : Coord)
  /-- PUT_LINE, format R (R64, R160). -/
  | putLine (params : Byte) (x0 y0 x1 y1 : Coord)
  /-- REFRESH, format Z (R62, R122). -/
  | refresh
  /-- SET_BRIGHT, format B (R66, R123). -/
  | setBright (level : Byte)
  /-- LOCK_ACQ, format Z (R62, R111). -/
  | lockAcq
  /-- LOCK_REL, format Z (R62, R112). -/
  | lockRel
  /-- SCHED, format S (R67, R80). -/
  | sched (addr : BitVec 7) (fastFail : Bool) (pfxOff : Len16) (pfxSpace : Byte) (pfxLen : Len16)
      (payOff : Len16) (paySpace : Byte) (payLen : Len16) (cb : Byte) (cbArg : BitVec 16)
  /-- IRQ_EN, format E (R68, R115). -/
  | irqEn (en : Bool)
  /-- RD_FB, format F (R69, R144). -/
  | rdFb (off : Len16)
  /-- RD_STATUS, format Z (R62, R116). -/
  | rdStatus
  /-- EVT.Idle, the handler arm of `fsm = 0` (R88). -/
  | evtIdle
  /-- EVT.Stop, the handler arm of `fsm = 1` (R89). -/
  | evtStop
  /-- EVT.SlaveAddress, the handler arm of `fsm = 2` (R90). -/
  | evtSlaveAddress
  /-- EVT.WritePrefix, the handler arm of `fsm = 3` (R91). -/
  | evtWritePrefix
  /-- EVT.WriteByte, the handler arm of `fsm = 4` (R92). -/
  | evtWriteByte
  /-- CB_HOST, the completion action of code 1 (R96). -/
  | cbHost
  /-- CB_WRITE_PAGE, the completion action of code 2 (R126). -/
  | cbWritePage
  /-- CB_SET_PAGE, the completion action of code 3 (R127). -/
  | cbSetPage
  /-- CB_RELEASE, the completion action of code 4 (R128). -/
  | cbRelease
  deriving DecidableEq, Repr

/-- Who runs an instruction (R5): HOST runs the commands, IRQ runs the handler arms, and the
completion actions inside them. -/
inductive InstrClass where
  | command
  | arm
  | action
  deriving DecidableEq, Repr

/-- The selector space an instruction belongs to (R60). -/
def Instr.cls : Instr → InstrClass
  | .init .. | .putPixel .. | .putRect .. | .putLine .. | .refresh | .setBright _ | .lockAcq
  | .lockRel | .sched .. | .irqEn _ | .rdFb _ | .rdStatus => .command
  | .evtIdle | .evtStop | .evtSlaveAddress | .evtWritePrefix | .evtWriteByte => .arm
  | .cbHost | .cbWritePage | .cbSetPage | .cbRelease => .action

end Sys2Proof
end

