-- ==== Sys2Proof/Machine/Operands.lean ====
section
/-! DEFINITION. Operand forms: what a command's fields mean before any state is touched. Sign
extension, `params`, clamping, the rectangle's and the line's pixel lists, the line's out-of-bounds
test, the static part of the scheduler's admission, the pseudo-instructions. -/

namespace Sys2Proof.Machine

/-! ### Coordinates and `params` (R70, R75, R150) -/

/-- `sext_16` of R9. -/
def sext16 (v : Coord) : Int := v.toInt

/-- R75: a value greater than 3 is no flag combination. -/
def paramsLegal (params : Byte) : Bool := decide (params.toNat ≤ 3)

/-- R75: bit 0 of `params` is the colour; 1 sets the pixel. -/
def paramsColor (params : Byte) : Bool := params.getLsbD 0

/-- R75: bit 1 of `params` is `fill`; 1 is filled. -/
def paramsFill (params : Byte) : Bool := params.getLsbD 1

/-- `clamp(v, hi)` of R150: the clamped value and whether clamping was needed. -/
def clamp (v : Int) (hi : Nat) : Nat × Bool :=
  if v < 0 then (0, true)
  else if (hi : Int) < v then (hi, true)
  else (v.toNat, false)

/-- The four clamped coordinates of a two-point command, with the four clamp marks (R151, R160). -/
structure Clamped where
  x0 : Nat
  y0 : Nat
  x1 : Nat
  y1 : Nat
  cx0 : Bool
  cy0 : Bool
  cx1 : Bool
  cy1 : Bool
  deriving DecidableEq, Repr

/-- R150, R151, R160: each coordinate is clamped on its own, x to `width - 1`, y to `height - 1`. -/
def clampPoints (width height : Nat) (x0 y0 x1 y1 : Coord) : Clamped :=
  let a := clamp (sext16 x0) (width - 1)
  let b := clamp (sext16 y0) (height - 1)
  let c := clamp (sext16 x1) (width - 1)
  let d := clamp (sext16 y1) (height - 1)
  { x0 := a.1, y0 := b.1, x1 := c.1, y1 := d.1, cx0 := a.2, cy0 := b.2, cx1 := c.2, cy1 := d.2 }

/-- R152: a rectangle is out of bounds exactly when all four coordinates were clamped. -/
def oobRect (c : Clamped) : Bool := c.cx0 && c.cy0 && c.cx1 && c.cy1

/-- R161: the line's out-of-bounds test under either reading of `LINE_OOB_RULE`. -/
def oobLine (rule : LineOobRule) (c : Clamped) : Bool :=
  match rule with
  | .perAxis => (c.cx0 && c.cx1) || (c.cy0 && c.cy1)
  | .perEndpoint => (c.cx0 && c.cy0) || (c.cx1 && c.cy1)

/-! ### Rectangles (R153 to R155) -/

/-- The integers from `a` to `b`, both ends included. -/
def span (a b : Nat) : List Nat := List.range' a (b + 1 - a)

/-- R154: every pixel of the box, row by row. -/
def fillPixels (xa ya xb yb : Nat) : List (Nat × Nat) :=
  (span ya yb).flatMap fun y => (span xa xb).map fun x => (x, y)

/-- R155: the four edges, in the order top, bottom, left, right. -/
def outlinePixels (xa ya xb yb : Nat) : List (Nat × Nat) :=
  ((span xa xb).map fun x => (x, ya)) ++ ((span xa xb).map fun x => (x, yb)) ++
  ((span ya yb).map fun y => (xa, y)) ++ ((span ya yb).map fun y => (xb, y))

/-- R151, R153: the pixels of a rectangle with the given clamped corners, in either order. -/
def rectPixels (fill : Bool) (c : Clamped) : List (Nat × Nat) :=
  let xa := min c.x0 c.x1
  let xb := max c.x0 c.x1
  let ya := min c.y0 c.y1
  let yb := max c.y0 c.y1
  if fill then fillPixels xa ya xb yb else outlinePixels xa ya xb yb

/-! ### Lines (R162 to R166) -/

/-- A normalised line (R162): drawn from `(xa, ya)` down to `(xb, yb)`. -/
structure Segment where
  xa : Nat
  ya : Nat
  xb : Nat
  yb : Nat
  deriving DecidableEq, Repr

/-- R162: the endpoints are swapped when `y0 > y1`, or when `y0 = y1` and `x0 > x1`. -/
def normalise (x0 y0 x1 y1 : Nat) : Segment :=
  if y1 < y0 ∨ (y0 = y1 ∧ x1 < x0) then { xa := x1, ya := y1, xb := x0, yb := y0 }
  else { xa := x0, ya := y0, xb := x1, yb := y1 }

/-- `abs(dx)` of R160. -/
def Segment.adx (g : Segment) : Nat := (g.xb - g.xa) + (g.xa - g.xb)

/-- `dy` of R160. -/
def Segment.dy (g : Segment) : Nat := g.yb - g.ya

/-- `xa + s*i` of R165 and R166, with `s = sign(dx)`. -/
def Segment.along (g : Segment) (i : Nat) : Nat :=
  if g.xb < g.xa then g.xa - i else if g.xa < g.xb then g.xa + i else g.xa

/-- R166: `len_j`, the length of run `j`. -/
def stairLen (big small j : Nat) : Nat :=
  big / small + ((j + 1) * (big % small) / small - j * (big % small) / small)

/-- R166: `P_j`, the first major position of run `j`. -/
def stairStart (big small j : Nat) : Nat := j * big / small

/-- R166: the (major, minor) positions of a staircase: `small` runs, then the end position. -/
def stairPositions (big small : Nat) : List (Nat × Nat) :=
  ((List.range small).flatMap fun j =>
    (List.range' (stairStart big small j) (stairLen big small j)).map fun p => (p, j)) ++
  [(big, small)]

/-- R163: a horizontal line. -/
def horizontalPixels (g : Segment) : List (Nat × Nat) :=
  (List.range (g.adx + 1)).map fun i => (g.xa + i, g.ya)

/-- R164: a vertical line. -/
def verticalPixels (g : Segment) : List (Nat × Nat) :=
  (List.range (g.dy + 1)).map fun i => (g.xa, g.ya + i)

/-- R165: an exact 45-degree line. -/
def diagonalPixels (g : Segment) : List (Nat × Nat) :=
  (List.range (g.dy + 1)).map fun i => (g.along i, g.ya + i)

/-- R166: a staircase line. -/
def staircasePixels (g : Segment) : List (Nat × Nat) :=
  if g.dy < g.adx then
    (stairPositions g.adx g.dy).map fun q => (g.along q.1, g.ya + q.2)
  else
    (stairPositions g.dy g.adx).map fun q => (g.along q.2, g.ya + q.1)

/-- R160: the four cases of a line. -/
def segmentPixels (g : Segment) : List (Nat × Nat) :=
  if g.dy = 0 then horizontalPixels g
  else if g.adx = 0 then verticalPixels g
  else if g.adx = g.dy then diagonalPixels g
  else staircasePixels g

/-- R160, R162: the pixels of a line between two clamped points, in write order. -/
def linePixels (c : Clamped) : List (Nat × Nat) := segmentPixels (normalise c.x0 c.y0 c.x1 c.y1)

/-! ### The open order of pixel writes (R170) -/

/-- The list `l` with its elements taken in the order `picks` chooses: each pick takes one of the
elements that are left, and once `picks` is used up the rest keeps its listed order. Every
permutation of `l` is `reorder picks l` for some `picks`. R170: the order is open to a model that
admits the drawing-during-refresh race; with no picks it is the listed order of R154, R155, R163 to
R166 (log 6). -/
def reorder {α : Type} : List Nat → List α → List α
  | [], l => l
  | k :: ks, l =>
    match l[k % l.length]? with
    | some a => a :: reorder ks (l.eraseIdx (k % l.length))
    | none => []

/-! ### Operand checks that need no state (R81, R121) -/

/-- R121: the geometry INIT admits. -/
def legalGeometry (width height : Nat) : Bool :=
  decide (1 ≤ width) && decide (width ≤ 8191) && decide (8 ≤ height) && decide (height ≤ 64) &&
    decide (height % 8 = 0)

/-- R81 (a): the completion action codes a scheduler call may name. -/
def legalCb (cb : Nat) : Bool := decide (1 ≤ cb) && decide (cb ≤ 4)

/-- R81 (b) for spaces of fixed size: an empty run, a run inside `ROM` or `CMD`, or one in `FB`,
whose size depends on the state. -/
def staticRun (space off len : Nat) : Bool :=
  decide (len = 0) ||
  (decide (space = 0) && decide (off + len ≤ Config.romSize)) ||
  (decide (space = 1) && decide (off + len ≤ Config.cmdSize)) ||
  decide (space = 2)

/-! ### Pseudo-instructions (R78) -/

/-- R78: `CLEAR` expands to one filled, clearing PUT_RECT over the whole display. -/
def pseudoClear (width height : BitVec 16) : List Instr :=
  [.putRect 0x02#8 0#16 0#16 (width - 1#16) (height - 1#16)]

/-- R78: `WAIT_UNLOCKED` expands to LOCK_ACQ, then LOCK_REL. -/
def pseudoWaitUnlocked : List Instr := [.lockAcq, .lockRel]

end Sys2Proof.Machine
end

