-- ==== Sys2Proof/WellFormed.lean ====
section
/-! DEFINITION. Well-formed instructions: those whose operands are legal by the checks the spec makes
on the operands alone (R81 items (a) and (b), R121's geometry). The field widths are in the types of
`Instr`. An instruction that is not well-formed still decodes (R71): its own rule refuses it. -/

namespace Sys2Proof

/-- The operand checks that need no state. -/
def Instr.wf : Instr → Bool
  | .init _ width height _ => Machine.legalGeometry width.toNat height.toNat
  | .sched _ _ pfxOff pfxSpace pfxLen payOff paySpace payLen cb _ =>
      Machine.legalCb cb.toNat && Machine.staticRun pfxSpace.toNat pfxOff.toNat pfxLen.toNat &&
        Machine.staticRun paySpace.toNat payOff.toNat payLen.toNat
  | .putPixel .. | .putRect .. | .putLine .. | .refresh | .setBright _ | .lockAcq | .lockRel
  | .irqEn _ | .rdFb _ | .rdStatus => true
  | .evtIdle | .evtStop | .evtSlaveAddress | .evtWritePrefix | .evtWriteByte => true
  | .cbHost | .cbWritePage | .cbSetPage | .cbRelease => true

end Sys2Proof
end

