-- ==== Sys2Proof/Decode.lean ====
section
/-! DEFINITION. Decoding and encoding of the three selector spaces (R60): command words (R61 to R71),
handler-arm codes (R72), completion-action codes (R73). Decoding is total and rejects by name. -/

namespace Sys2Proof

/-- Why a word is no instruction. -/
inductive DecodeError where
  /-- R71: the opcode is none of R61's. -/
  | reservedOpcode
  /-- R71: a must-be-zero bit of the word's format is 1. -/
  | mustBeZero
  /-- R60: a command word is carried as exactly 16 bytes. -/
  | notSixteenBytes
  /-- R72, R93: `fsm` codes 5 to 7. -/
  | reservedArm
  /-- R73: `txd.cb` code 0, "illegal, completion callback must be non-null". -/
  | nullAction
  /-- R73: `txd.cb` codes 5 to 15. -/
  | reservedAction
  deriving DecidableEq, Repr

/-- What decoding answers: an instruction, or the reason there is none (R71: the decoder is total). -/
inductive Decoded where
  | instr (i : Instr)
  | reject (why : DecodeError)
  deriving DecidableEq, Repr

/-- The instruction, if there is one. -/
def Decoded.toOption : Decoded → Option Instr
  | .instr i => some i
  | .reject _ => none

/-- `w[lo + len - 1 : lo]` (R9, R70: every field is read directly from its bits). -/
def fieldOf (w : CmdWord) (lo len : Nat) : BitVec len := w.extractLsb' lo len

/-- R71: the instruction, if the must-be-zero bits of its format are zero. -/
def ifZero (zero : Bool) (i : Instr) : Decoded :=
  if zero then .instr i else .reject .mustBeZero

/-- The must-be-zero bits of the format of an opcode (R62 to R69): the `mask` of its row of
spec/opcode_table.json without the opcode bits. -/
def mustBeZeroBits (opcode : Nat) : CmdWord :=
  match opcode with
  | 0x01 => 0xFFFFFFFFFFFF00000000000000008000#128
  | 0x02 => 0xFFFFFFFFFFFFFFFFFFFF000000000000#128
  | 0x03 | 0x04 => 0xFFFFFFFFFFFF00000000000000000000#128
  | 0x06 => 0xFFFFFFFFFFFFFFFFFFFFFFFFFFFF0000#128
  | 0x09 => 0xFF000000000000000000000000000000#128
  | 0x0A => 0xFFFFFFFFFFFFFFFFFFFFFFFFFFFFFE00#128
  | 0x0B => 0xFFFFFFFFFFFFFFFFFFFFFFFF0000FF00#128
  | _ => 0xFFFFFFFFFFFFFFFFFFFFFFFFFFFFFF00#128

/-- R61 to R71: the command a 128-bit word stands for. -/
def decodeCommand (w : CmdWord) : Decoded :=
  match (fieldOf w 0 8).toNat with
  | 0x01 => ifZero (fieldOf w 15 1 == 0#1 && fieldOf w 80 48 == 0#48)
      (.init (fieldOf w 8 7) (fieldOf w 16 16) (fieldOf w 32 16) (fieldOf w 48 32))
  | 0x02 => ifZero (fieldOf w 48 80 == 0#80)
      (.putPixel (fieldOf w 8 8) (fieldOf w 16 16) (fieldOf w 32 16))
  | 0x03 => ifZero (fieldOf w 80 48 == 0#48)
      (.putRect (fieldOf w 8 8) (fieldOf w 16 16) (fieldOf w 32 16) (fieldOf w 48 16)
        (fieldOf w 64 16))
  | 0x04 => ifZero (fieldOf w 80 48 == 0#48)
      (.putLine (fieldOf w 8 8) (fieldOf w 16 16) (fieldOf w 32 16) (fieldOf w 48 16)
        (fieldOf w 64 16))
  | 0x05 => ifZero (fieldOf w 8 120 == 0#120) .refresh
  | 0x06 => ifZero (fieldOf w 16 112 == 0#112) (.setBright (fieldOf w 8 8))
  | 0x07 => ifZero (fieldOf w 8 120 == 0#120) .lockAcq
  | 0x08 => ifZero (fieldOf w 8 120 == 0#120) .lockRel
  | 0x09 => ifZero (fieldOf w 120 8 == 0#8)
      (.sched (fieldOf w 8 7) (fieldOf w 15 1 == 1#1) (fieldOf w 16 16) (fieldOf w 32 8)
        (fieldOf w 40 16) (fieldOf w 56 16) (fieldOf w 72 8) (fieldOf w 80 16) (fieldOf w 96 8)
        (fieldOf w 104 16))
  | 0x0A => ifZero (fieldOf w 9 119 == 0#119) (.irqEn (fieldOf w 8 1 == 1#1))
  | 0x0B => ifZero (fieldOf w 8 8 == 0#8 && fieldOf w 32 96 == 0#96) (.rdFb (fieldOf w 16 16))
  | 0x0C => ifZero (fieldOf w 8 120 == 0#120) .rdStatus
  | _ => .reject .reservedOpcode

/-- R60, R45: 16 bytes as one word, byte 0 holding bits 7:0 (little-endian). -/
def wordOfBytes : List Byte → Nat
  | [] => 0
  | b :: bs => b.toNat + 256 * wordOfBytes bs

/-- The bytes that carry a word, byte 0 first (R60). -/
def bytesOfWord : Nat → Nat → List Byte
  | 0, _ => []
  | n + 1, w => BitVec.ofNat 8 w :: bytesOfWord n (w / 256)

/-- R60: a command word carried as bytes, decoded. -/
def decodeBytes (bs : List Byte) : Decoded :=
  if bs.length = 16 then decodeCommand (BitVec.ofNat 128 (wordOfBytes bs))
  else .reject .notSixteenBytes

/-- R72: the handler arm `fsm` selects at a bus event. -/
def decodeArm (code : BitVec 3) : Decoded :=
  match code.toNat with
  | 0 => .instr .evtIdle
  | 1 => .instr .evtStop
  | 2 => .instr .evtSlaveAddress
  | 3 => .instr .evtWritePrefix
  | 4 => .instr .evtWriteByte
  | _ => .reject .reservedArm

/-- R73: the completion action `txd.cb` selects in the Idle and Stop arms. -/
def decodeAction (code : BitVec 4) : Decoded :=
  match code.toNat with
  | 0 => .reject .nullAction
  | 1 => .instr .cbHost
  | 2 => .instr .cbWritePage
  | 3 => .instr .cbSetPage
  | 4 => .instr .cbRelease
  | _ => .reject .reservedAction

/-- A code of one of the three selector spaces (R60). -/
inductive Encoded where
  | command (w : CmdWord)
  | arm (code : BitVec 3)
  | action (code : BitVec 4)
  deriving DecidableEq, Repr

/-- R60: decoding, in whichever space the code belongs to. -/
def decode : Encoded → Decoded
  | .command w => decodeCommand w
  | .arm c => decodeArm c
  | .action c => decodeAction c

/-- Format Z (R62). -/
def encodeZ (opcode : Byte) : CmdWord := 0#120 ++ opcode

/-- Format R (R64). -/
def encodeR (opcode params : Byte) (x0 y0 x1 y1 : Coord) : CmdWord :=
  0#48 ++ y1 ++ x1 ++ y0 ++ x0 ++ params ++ opcode

/-- The code of an instruction, written from the format tables R62 to R69, R72 and R73. -/
def encode : Instr → Encoded
  | .init busAddr width height busFreq =>
      .command (0#48 ++ busFreq ++ height ++ width ++ 0#1 ++ busAddr ++ 0x01#8)
  | .putPixel params x y => .command (0#80 ++ y ++ x ++ params ++ 0x02#8)
  | .putRect params x0 y0 x1 y1 => .command (encodeR 0x03#8 params x0 y0 x1 y1)
  | .putLine params x0 y0 x1 y1 => .command (encodeR 0x04#8 params x0 y0 x1 y1)
  | .refresh => .command (encodeZ 0x05#8)
  | .setBright level => .command (0#112 ++ level ++ 0x06#8)
  | .lockAcq => .command (encodeZ 0x07#8)
  | .lockRel => .command (encodeZ 0x08#8)
  | .sched addr fastFail pfxOff pfxSpace pfxLen payOff paySpace payLen cb cbArg =>
      .command (0#8 ++ cbArg ++ cb ++ payLen ++ paySpace ++ payOff ++ pfxLen ++ pfxSpace ++ pfxOff
        ++ BitVec.ofBool fastFail ++ addr ++ 0x09#8)
  | .irqEn en => .command (0#119 ++ BitVec.ofBool en ++ 0x0A#8)
  | .rdFb off => .command (0#96 ++ off ++ 0#8 ++ 0x0B#8)
  | .rdStatus => .command (encodeZ 0x0C#8)
  | .evtIdle => .arm 0#3
  | .evtStop => .arm 1#3
  | .evtSlaveAddress => .arm 2#3
  | .evtWritePrefix => .arm 3#3
  | .evtWriteByte => .arm 4#3
  | .cbHost => .action 1#4
  | .cbWritePage => .action 2#4
  | .cbSetPage => .action 3#4
  | .cbRelease => .action 4#4

/-- The bits of a code, as spec/opcode_table.json numbers them. -/
def Encoded.bits : Encoded → Nat
  | .command w => w.toNat
  | .arm c => c.toNat
  | .action c => c.toNat

/-- The width in bits of a code (R60). -/
def Encoded.width : Encoded → Nat
  | .command _ => 128
  | .arm _ => 3
  | .action _ => 4

/-- What the decoder reads from an instruction whose bits are `w`, for a row of `nbits` bits. A row
of more than 8 bits is a command word, laid out as its 16 bytes. The `fsm` codes have 3 bits and the
`txd.cb` codes 4; in whole bytes both have 8, and there the arm codes are read, since `fsm` is what
the machine decodes at a bus event (log 19). -/
def decodeTableWord (nbits w : Nat) : Option Instr :=
  if 8 < nbits then (decodeBytes (bytesOfWord 16 w)).toOption
  else if nbits = 4 then (if w < 16 then (decodeAction (BitVec.ofNat 4 w)).toOption else none)
  else (if w < 8 then (decodeArm (BitVec.ofNat 3 w)).toOption else none)

/-! ### Assembler syntax (R77) -/

/-- R77: the operands after the mnemonic, separated by commas. -/
def asmLine (mnemonic : String) (operands : List String) : String :=
  if operands = [] then mnemonic else mnemonic ++ " " ++ String.intercalate ", " operands

/-- R77: a space code may be written by name. -/
def asmSpace (space : Byte) : String :=
  match space.toNat with
  | 0 => "ROM"
  | 1 => "CMD"
  | 2 => "FB"
  | n => toString n

/-- R77: a callback code may be written by name. -/
def asmCb (cb : Byte) : String :=
  match cb.toNat with
  | 1 => "CB_HOST"
  | 2 => "CB_WRITE_PAGE"
  | 3 => "CB_SET_PAGE"
  | 4 => "CB_RELEASE"
  | n => toString n

/-- R77: one command in assembler syntax, operands in field order from the low bits up, integers in
decimal, negative coordinates with a leading minus. Handler arms and completion actions have no
syntax of their own: in traces an environment step is written `IRQ`. -/
def Instr.asm : Instr → String
  | .init busAddr width height busFreq => asmLine "INIT"
      [toString busAddr.toNat, toString width.toNat, toString height.toNat, toString busFreq.toNat]
  | .putPixel params x y => asmLine "PUT_PIXEL"
      [toString params.toNat, toString x.toInt, toString y.toInt]
  | .putRect params x0 y0 x1 y1 => asmLine "PUT_RECT" [toString params.toNat, toString x0.toInt,
      toString y0.toInt, toString x1.toInt, toString y1.toInt]
  | .putLine params x0 y0 x1 y1 => asmLine "PUT_LINE" [toString params.toNat, toString x0.toInt,
      toString y0.toInt, toString x1.toInt, toString y1.toInt]
  | .refresh => "REFRESH"
  | .setBright level => asmLine "SET_BRIGHT" [toString level.toNat]
  | .lockAcq => "LOCK_ACQ"
  | .lockRel => "LOCK_REL"
  | .sched addr fastFail pfxOff pfxSpace pfxLen payOff paySpace payLen cb cbArg => asmLine "SCHED"
      [toString addr.toNat, toString fastFail.toNat,
       asmSpace pfxSpace ++ ":" ++ toString pfxOff.toNat, toString pfxLen.toNat,
       asmSpace paySpace ++ ":" ++ toString payOff.toNat, toString payLen.toNat,
       asmCb cb, toString cbArg.toNat]
  | .irqEn en => asmLine "IRQ_EN" [toString en.toNat]
  | .rdFb off => asmLine "RD_FB" [toString off.toNat]
  | .rdStatus => "RD_STATUS"
  | .evtIdle | .evtStop | .evtSlaveAddress | .evtWritePrefix | .evtWriteByte => "IRQ"
  | .cbHost => "CB_HOST"
  | .cbWritePage => "CB_WRITE_PAGE"
  | .cbSetPage => "CB_SET_PAGE"
  | .cbRelease => "CB_RELEASE"

end Sys2Proof
end

