-- ==== Sys2Proof/Machine/Params.lean ====
section
/-! DEFINITION. The OPEN parameters of R8: the defaults the spec gives them (R131 to R134; PRESUMED, the
spec's own general knowledge GK2, log 9; `LINE_OOB_RULE` R161, D10, log 10), what D25 requires of
them, and the contents of `ROM` space (R41). -/

namespace Sys2Proof.Machine

/-- Each command byte preceded by the command marker (R131). -/
def withMarkers (marker : Byte) (bs : List Byte) : List Byte := bs.flatMap fun b => [marker, b]

/-- The defaults of R131 to R134 and R161: charge pump on, display on, brightness to the maximum,
inversion on; column 0 in two commands, then the page-select byte; the brightness command, then a
placeholder for the level. -/
def defaultParams : OpenParams :=
  { cmdMarker := 0x80#8
    dataMarker := 0x40#8
    initSeq := withMarkers 0x80#8 [0x8D#8, 0x14#8, 0xAF#8, 0x81#8, 0xFF#8, 0xA7#8]
    setpageSeq := withMarkers 0x80#8 [0x00#8, 0x10#8, 0xB0#8]
    brightSeq := withMarkers 0x80#8 [0x81#8, 0x00#8]
    lineOob := .perAxis }

/-- `PAGE_BASE` (R132, D25): the last byte of `SETPAGE_SEQ`. -/
def pageBase (p : OpenParams) : Byte := p.setpageSeq.getLastD 0x00#8

/-- D25: what is required of the parameters, which keeps the regions of R41 disjoint. -/
abbrev ParamsOk (p : OpenParams) : Prop :=
  (1 ≤ p.initSeq.length ∧ p.initSeq.length ≤ 16) ∧
  (1 ≤ p.setpageSeq.length ∧ p.setpageSeq.length ≤ 8) ∧
  (1 ≤ p.brightSeq.length ∧ p.brightSeq.length ≤ 8) ∧
  (pageBase p).extractLsb' 0 4 = 0#4

/-- Offsets of the regions of `ROM` space (R41). -/
def romInitSeq : Nat := 0x00
/-- R41. -/
def romDataMarker : Nat := 0x10
/-- R41. -/
def romSetpageSeq : Nat := 0x18
/-- R41. -/
def romBrightSeq : Nat := 0x20

/-- R41: the byte of `ROM` space at an offset; bytes not listed read as 0x00. -/
def romByte (p : OpenParams) (off : Nat) : Byte :=
  if off < romDataMarker then p.initSeq.getD (off - romInitSeq) 0x00#8
  else if off < romSetpageSeq then [p.dataMarker].getD (off - romDataMarker) 0x00#8
  else if off < romBrightSeq then p.setpageSeq.getD (off - romSetpageSeq) 0x00#8
  else p.brightSeq.getD (off - romBrightSeq) 0x00#8

end Sys2Proof.Machine
end

