-- ==== Sys2Proof/Machine/State.lean ====
section
/-! DEFINITION. The state of the block (R10), the micro-steps a host command is made of (R6), the
reasons a step can stop, and the state after reset (R38). -/

namespace Sys2Proof.Machine

/-- The Display Lock (R27): Released 0, Held 1. -/
inductive LockState where
  | released
  | held
  deriving DecidableEq, Repr

/-- The bus agent's own bit (R22): Free 0, Started 1. -/
inductive Wire where
  | free
  | started
  deriving DecidableEq, Repr

/-- A symbol of the wire log (R31). -/
inductive WireSym where
  | start
  | byte (b : Byte)
  | stop
  deriving DecidableEq, Repr

/-- The transaction descriptor slot (R12 to R17). -/
structure Txd where
  addr     : BitVec 7
  pfxSpace : BitVec 2
  pfxOff   : Len16
  pfxRem   : Len16
  paySpace : BitVec 2
  payOff   : Len16
  payRem   : Len16
  cb       : BitVec 4
  cbArg    : BitVec 16
  fastFail : Bool
  deriving DecidableEq, Repr

/-- One micro-step of a host command (R6); a command that HOST is inside is the list of those left. -/
inductive Micro where
  /-- R111: hold until the lock is Released, then take it. -/
  | acquire
  /-- R121: `width <- width`. -/
  | writeWidth (width : BitVec 16)
  /-- R121: `height <- height`. -/
  | writeHeight (height : BitVec 16)
  /-- R121: `num_pages <- height div 8`; a `cur_page` beyond it is cleared with it (R39 g; log 5). -/
  | writePages (numPages : BitVec 4)
  /-- R121: `bus_addr <- bus_addr`. -/
  | writeBusAddr (busAddr : BitVec 7)
  /-- R121: `bus_freq <- bus_freq`. -/
  | writeBusFreq (busFreq : BitVec 32)
  /-- R121: one byte of the zero fill, `MemWrite(FB, off, 0x00)`. -/
  | zeroByte (off : Nat)
  /-- R121: `inited <- 1`. -/
  | setInited
  /-- R121: INIT's one scheduler attempt, with its Busy case. -/
  | schedInit
  /-- R121, R122: `cur_page <- 0`. -/
  | clearCurPage
  /-- R123, R124: `cmd_buf[i] <- b`. -/
  | cmdByte (i : Nat) (b : Byte)
  /-- R124: `cmd_buf[i] <- base | cur_page[3:0]`. -/
  | cmdPage (i : Nat) (base : Byte)
  /-- R129: hold until `fsm = Idle`, then schedule `cmd_buf[0 .. n-1]` as a prefix. -/
  | schedCmd (n : Nat) (cb : Byte)
  /-- R140, R170: one `set_pixel`. -/
  | pixel (x y : Nat) (on : Bool)
  deriving DecidableEq, Repr

/-- The framebuffer memory: (offset, byte) pairs in one canonical form, `Memory.wf`. -/
abbrev Memory := List Host.Cell

/-- The state of the block (R10), and the model's own fields. -/
structure State where
  -- transaction engine (R11 to R17)
  fsm        : BitVec 3
  txd        : Txd
  -- bus handshake (R18 to R23)
  startReq   : Bool
  stopReq    : Bool
  dataOut    : Byte
  txPending  : Bool
  evtPending : Bool
  wire       : Wire
  irqEnable  : Bool
  -- display handle (R24 to R30)
  width      : BitVec 16
  height     : BitVec 16
  numPages   : BitVec 4
  busAddr    : BitVec 7
  busFreq    : BitVec 32
  curPage    : BitVec 4
  lock       : LockState
  inited     : Bool
  cmdBuf     : Vector Byte 8
  fb         : Memory
  -- observables and host port (R31 to R33)
  wireLog    : List WireSym
  doneLog    : List (BitVec 16)
  result     : BitVec 32
  -- the OPEN parameters of R8: configuration, which no step writes (log 9)
  openParams : OpenParams
  -- the model's own: the command words HOST will write to the port (log 2)
  cmdPort    : List CmdWord
  -- the model's own: the micro-steps left of the command HOST is inside (R188; log 4)
  todo       : List Micro
  -- the model's own: the choices of the HOST turn being taken (logs 4, 6)
  choice     : HostTurn
  -- the model's own: which agent moves at each coming step (log 1)
  turns      : List Turn
  -- the model's own: the counter of the free values (logs 1, 14)
  tick       : Nat
  deriving DecidableEq, Repr

/-- Why a step stops with a fault. All are SAFE: the model stops. -/
inductive Fault where
  /-- R96, U2, U11: the Idle or Stop arm found `txd.cb = CB_NULL`. Raised by `invoke`. -/
  | nullCallback
  /-- R96, U4: the Idle or Stop arm found `txd.cb` in 5..15. Raised by `invoke`. -/
  | reservedCallback
  /-- R93, U6: an event found `fsm` in 5..7. Raised by the IRQ step. -/
  | reservedFsm
  /-- R91, R92, U7: a load arm was entered with remaining count 0. -/
  | emptyRun
  /-- R40, R43: an access to a byte that does not exist and never did (log 16). Raised by the load arms
  for `ROM`, `CMD` and the reserved space, and by a framebuffer write outside `FB`; no rule gets
  there. -/
  | noSuchByte
  /-- R129: a retry loop inside the handler with `fsm` not Idle, which nothing could end (log 18).
  Raised by the completion actions. -/
  | handlerSpins
  deriving DecidableEq, Repr

/-- Why a step is refused. All are SAFE: the model claims nothing. -/
inductive Refusal where
  /-- The arm of `exec` has no meaning yet. -/
  | notModelled (mnemonic : String)
  /-- R71, U8: HOST wrote an illegal command word. -/
  | illegalWord (why : DecodeError)
  /-- R28, U9: a command that needs a configured handle, before the first INIT. -/
  | beforeInit
  /-- R121, U10: INIT with an illegal geometry. -/
  | badGeometry
  /-- R81 (a), U2, U4: a scheduler call whose `cb` is not 1 to 4. -/
  | schedCallback
  /-- R81 (b), U5: a scheduler call with a reserved space, or a run that leaves its space. -/
  | schedSpan
  /-- R84, U3: SCHED with `fast_fail = 0` while a transaction is in flight. -/
  | schedNotFastFail
  /-- R144: RD_FB outside the framebuffer. -/
  | readOutsideFb
  /-- R212, U19: a load arm whose cursor has run past the end of `FB`, which an INIT made smaller while
  the transaction was in flight (log 16). Raised by the load arms. -/
  | staleFbCursor
  /-- R141, U13: `set_pixel` out of range; no command reaches it. -/
  | pixelOutOfRange
  deriving DecidableEq, Repr

/-- What a step of this machine answers. -/
abbrev Out := Host.Outcome State Fault Refusal

/-- The next state, if there is one. -/
def nextOf : Out → Option State
  | .next s => some s
  | .fault _ => none
  | .refused _ => none

/-- The descriptor slot after reset: all fields 0, so `cb = CB_NULL` (R38). -/
def Txd.reset : Txd :=
  { addr := 0#7, pfxSpace := 0#2, pfxOff := 0#16, pfxRem := 0#16, paySpace := 0#2, payOff := 0#16,
    payRem := 0#16, cb := 0#4, cbArg := 0#16, fastFail := false }

/-- The state after reset (R38). `dataOut`, `cmdBuf` and `result` are unspecified there: DESIGN
CHOICE zero (log 7). The parameters: the spec's defaults (logs 9, 10). The model's own fields: DESIGN
CHOICE (log 24). -/
def State.reset : State :=
  { fsm := 0#3, txd := Txd.reset, startReq := false, stopReq := false, dataOut := 0x00#8,
    txPending := false, evtPending := false, wire := .free, irqEnable := false, width := 0#16,
    height := 0#16, numPages := 0#4, busAddr := 0#7, busFreq := 0#32, curPage := 0#4,
    lock := .released, inited := false, cmdBuf := Vector.replicate 8 0x00#8, fb := [],
    wireLog := [], doneLog := [], result := 0#32, openParams := defaultParams, cmdPort := [],
    todo := [],
    choice := { quantum := none, order := [] }, turns := [], tick := 0 }

end Sys2Proof.Machine
end

