-- ==== Sys2Proof/Machine/Flags.lean ====
section
/-! DEFINITION. Codes and status views: the result word (R33, R74), the one-bit codes (R27, R22), the
`STATUS` view (R34). -/

namespace Sys2Proof.Machine

/-- The outcomes of a host command (R33, R180). -/
inductive Code where
  | ok
  | outOfBounds
  | invalidParams
  | busy
  deriving DecidableEq, Repr

/-- R74: the numeric code. -/
def Code.byte : Code → Byte
  | .ok => 0#8
  | .outOfBounds => 1#8
  | .invalidParams => 2#8
  | .busy => 3#8

/-- R33: `result[7:0]` is the code, `result[31:8]` the value. -/
def resultWord (c : Code) (value : BitVec 24) : BitVec 32 := value ++ c.byte

/-- R27: Released 0, Held 1. -/
def LockState.bit : LockState → BitVec 1
  | .released => 0#1
  | .held => 1#1

/-- R22: Free 0, Started 1. -/
def Wire.bit : Wire → BitVec 1
  | .free => 0#1
  | .started => 1#1

/-- R34: the 24-bit `STATUS` view. -/
def statusWord (s : State) : BitVec 24 :=
  0#5 ++ s.numPages ++ s.curPage ++ s.wire.bit ++ BitVec.ofBool s.evtPending ++
  BitVec.ofBool s.txPending ++ BitVec.ofBool s.stopReq ++ BitVec.ofBool s.startReq ++
  BitVec.ofBool s.irqEnable ++ BitVec.ofBool s.inited ++ s.lock.bit ++ s.fsm

end Sys2Proof.Machine
end

