-- ==== Sys2Proof/Machine/Ops.lean ====
section
/-! DEFINITION. The named operations over memory, the framebuffer, `cmd_buf`, the scheduler, the lock
and the result word; `raise` (R181); taking the bus-completion interrupt (R87, R188); and running the
micro-steps of a host command (R6). -/

namespace Sys2Proof.Machine

/-! ### Framebuffer memory -/

/-- The byte at an address; an address not listed reads 0x00 (log 8). -/
def Memory.read : Memory → Nat → Byte
  | [], _ => 0x00#8
  | (k, b) :: m, a => if k = a then b else Memory.read m a

/-- One byte written, keeping the canonical form: strictly rising addresses, no byte 0x00 listed. -/
def Memory.write : Memory → Nat → Byte → Memory
  | [], a, b => if b = 0x00#8 then [] else [(a, b)]
  | (k, c) :: m, a, b =>
    if a < k then (if b = 0x00#8 then (k, c) :: m else (a, b) :: (k, c) :: m)
    else if a = k then (if b = 0x00#8 then m else (a, b) :: m)
    else (k, c) :: Memory.write m a b

/-- Only the bytes below `n` (R43: offsets at or beyond `FB_SIZE` do not exist). -/
def Memory.truncate (m : Memory) (n : Nat) : Memory := m.filter fun c => decide (c.1 < n)

/-- The canonical form. -/
abbrev Memory.wf (m : Memory) : Prop :=
  m.Pairwise (fun c d => c.1 < d.1) ∧ ∀ c ∈ m, c.2 ≠ 0x00#8

/-- `FB_SIZE = width * num_pages` (R8, R40). -/
def State.fbSize (s : State) : Nat := s.width.toNat * s.numPages.toNat

/-! ### The three spaces (R40) -/

/-- `size(space)` of R81; the reserved space has none. -/
def spaceSize (s : State) (space : Nat) : Nat :=
  match space with
  | 0 => Config.romSize
  | 1 => Config.cmdSize
  | 2 => s.fbSize
  | _ => 0

/-- `MemRead(space, off)` of R9: the byte, if it exists (R40 to R43). -/
def memRead (s : State) (space : BitVec 2) (off : Nat) : Option Byte :=
  if off < spaceSize s space.toNat then
    match space.toNat with
    | 0 => some (romByte s.openParams off)
    | 1 => s.cmdBuf[off]?
    | 2 => some (s.fb.read off)
    | _ => none
  else none

/-- `cmd_buf[i] <- b` (R29). -/
def State.cmdWrite (s : State) (i : Nat) (b : Byte) : State :=
  { s with cmdBuf := s.cmdBuf.setIfInBounds i b }

/-- `MemWrite(FB, off, b)`, for a byte that exists. -/
def State.fbWrite (s : State) (off : Nat) (b : Byte) : State :=
  { s with fb := s.fb.write off b }

/-! ### The pixel primitive (R140, R146) -/

/-- R140: the byte index of a pixel, `page * width + x`. -/
def pixelIndex (width x y : Nat) : Nat := y / 8 * width + x

/-- R140: a byte with bit `bit` set or cleared. -/
def withBit (b : Byte) (bit : Nat) (on : Bool) : Byte :=
  if on then b ||| (1#8 <<< bit) else b &&& ~~~(1#8 <<< bit)

/-- The state after `set_pixel(x, y, on)` of R140. -/
def State.paint (s : State) (x y : Nat) (on : Bool) : State :=
  s.fbWrite (pixelIndex s.width.toNat x y)
    (withBit (s.fb.read (pixelIndex s.width.toNat x y)) (y % 8) on)

/-- `get_pixel(x, y)` of R146, of any framebuffer memory. -/
def pixelAt (fb : Memory) (width x y : Nat) : Bool :=
  (fb.read (pixelIndex width x y)).getLsbD (y % 8)

/-- `get_pixel(x, y)` of R146. -/
def getPixel (s : State) (x y : Nat) : Bool := pixelAt s.fb s.width.toNat x y

/-! ### Result, errors, lock -/

/-- R33: a host command ends, delivering its result. -/
def State.finish (s : State) (c : Code) (value : BitVec 24) : State :=
  { s with result := resultWord c value, todo := [] }

/-- `raise E` of R181: the command ends; nothing but `result` changes. -/
def raise (c : Code) (s : State) : Out := .next (s.finish c 0#24)

/-- R27: the lock is written. -/
def State.setLock (s : State) (l : LockState) : State := { s with lock := l }

/-! ### Taking the interrupt (R87, R188)

This is the block's exception entry. It saves nothing and changes no mode; control goes to the arm of
`fsm`. There is no return instruction and nothing is restored (R189). -/

/-- R87, R186: when an IRQ step is enabled. -/
def irqReady (s : State) : Bool := s.evtPending && s.irqEnable

/-- R87, R186: the first action of an IRQ step. -/
def State.takeEvent (s : State) : State := { s with evtPending := false }

/-! ### Loading a byte for the bus agent (R20) -/

/-- A load arm whose byte does not exist. In `FB` that is U19, a framebuffer made smaller under a
transaction in flight, which the spec refuses; elsewhere no rule gets there (log 16). -/
def missingByte (space : BitVec 2) : Out :=
  if space = 2#2 then .refused .staleFbCursor else .fault .noSuchByte

/-- "Load ... byte" of R20: `data_out <- b; tx_pending <- 1`. -/
def State.load (s : State) (b : Byte) : State := { s with dataOut := b, txPending := true }

/-- R72: `fsm <- S`. -/
def State.setFsm (s : State) (c : BitVec 3) : State := { s with fsm := c }

/-- R11: the codes of `fsm`. -/
def fsmIdle : BitVec 3 := 0#3
/-- R11. -/
def fsmStop : BitVec 3 := 1#3
/-- R11. -/
def fsmSlaveAddress : BitVec 3 := 2#3
/-- R11. -/
def fsmWritePrefix : BitVec 3 := 3#3
/-- R11. -/
def fsmWriteByte : BitVec 3 := 4#3

/-- R15: the codes of the completion actions. -/
def codeHost : Byte := 1#8
/-- R15. -/
def codeWritePage : Byte := 2#8
/-- R15. -/
def codeSetPage : Byte := 3#8
/-- R15. -/
def codeRelease : Byte := 4#8

/-! ### The scheduler (R80 to R84) -/

/-- The operands of a scheduler call, from SCHED or built inside the block. -/
structure SchedReq where
  addr     : BitVec 7
  pfxSpace : Byte
  pfxOff   : Nat
  pfxLen   : Nat
  paySpace : Byte
  payOff   : Nat
  payLen   : Nat
  cb       : Byte
  cbArg    : BitVec 16
  fastFail : Bool
  deriving DecidableEq, Repr

/-- R81 (b): one run is empty, or in a legal space and inside it. -/
def runAdmitted (s : State) (space : Byte) (off len : Nat) : Bool :=
  decide (len = 0) ||
    (decide (space.toNat < 3) && decide (off + len ≤ spaceSize s space.toNat))

/-- The 2-bit space field stored for an 8-bit space code: the code itself, or a free value for a
reserved code, which R81 admits only with an empty run (log 14). -/
def spaceField (free : BitVec 2) (space : Byte) : BitVec 2 :=
  if space.toNat < 4 then space.setWidth 2 else free

/-- R82: the descriptor an accepted call stores. -/
def txdOf (r : SchedReq) (tick : Nat) : Txd :=
  { addr := r.addr
    pfxSpace := spaceField (Config.reservedPfxSpace tick) r.pfxSpace
    pfxOff := BitVec.ofNat 16 r.pfxOff
    pfxRem := BitVec.ofNat 16 r.pfxLen
    paySpace := spaceField (Config.reservedPaySpace tick) r.paySpace
    payOff := BitVec.ofNat 16 r.payOff
    payRem := BitVec.ofNat 16 r.payLen
    cb := r.cb.setWidth 4
    cbArg := r.cbArg
    fastFail := r.fastFail }

/-- R82: the accepted case of the check-and-start, but for `result`. -/
def State.start (s : State) (r : SchedReq) : State :=
  { s with txd := txdOf r s.tick, fsm := fsmSlaveAddress, startReq := true }

/-- What the scheduler answers (R80). -/
inductive SchedAnswer where
  | accepted (s : State)
  | busy
  | refused (r : Refusal)

/-- `sched(...)`: admission (R81), then the atomic check-and-start (R82, R83, R84). -/
def sched (r : SchedReq) (s : State) : SchedAnswer :=
  if legalCb r.cb.toNat = false then .refused .schedCallback
  else if (runAdmitted s r.pfxSpace r.pfxOff r.pfxLen &&
      runAdmitted s r.paySpace r.payOff r.payLen) = false then .refused .schedSpan
  else if s.fsm = fsmIdle then .accepted (s.start r)
  else if r.fastFail then .busy
  else .refused .schedNotFastFail

/-- A space code that names no space, for the payload cursor `-` of the pipeline's prefix-only calls
(R121, R123, R124). The calls write no value there, so what they store is free: `txdOf` stores
`Config.reservedPaySpace` for such a code, and the offset is `Config.ignoredPayOff` (log 27). -/
def ignoredSpace : Byte := 0xFF#8

/-- R123, R124: the call that sends `cmd_buf[0 .. n-1]` as a prefix-only transaction. What its payload
cursor `-` stores is a free value (DESIGN CHOICE, log 27). -/
def cmdReq (s : State) (n : Nat) (cb : Byte) : SchedReq :=
  { addr := s.busAddr, pfxSpace := 1#8, pfxOff := 0, pfxLen := n, paySpace := ignoredSpace,
    payOff := (Config.ignoredPayOff s.tick).toNat, payLen := 0, cb := cb, cbArg := 0#16,
    fastFail := true }

/-- R121: the call that sends `INIT_SEQ`. What its payload cursor `-` stores is a free value (DESIGN
CHOICE, log 27). -/
def initReq (s : State) : SchedReq :=
  { addr := s.busAddr, pfxSpace := 0#8, pfxOff := romInitSeq, pfxLen := s.openParams.initSeq.length,
    paySpace := ignoredSpace, payOff := (Config.ignoredPayOff s.tick).toNat, payLen := 0,
    cb := codeRelease, cbArg := 0#16, fastFail := true }

/-- R125: the call that sends one page of pixels behind the data marker. -/
def pageReq (s : State) : SchedReq :=
  { addr := s.busAddr, pfxSpace := 0#8, pfxOff := romDataMarker, pfxLen := 1, paySpace := 2#8,
    payOff := s.curPage.toNat * s.width.toNat, payLen := s.width.toNat, cb := codeSetPage,
    cbArg := 0#16, fastFail := true }

/-! ### Micro-steps of a host command (R6) -/

/-- What one micro-step does. -/
inductive MicroOut where
  /-- It has its effect; the command goes on. -/
  | done (s : State)
  /-- *hold* (R7): the agent has no step now. -/
  | hold
  /-- `raise` (R181): the command ends with the error already in `result`. -/
  | raised (s : State)
  | fault (r : Fault)
  | refused (r : Refusal)

/-- R121: `width <- width`. -/
def State.setWidth (s : State) (w : BitVec 16) : State := { s with width := w }

/-- R121: `height <- height`. -/
def State.setHeight (s : State) (h : BitVec 16) : State := { s with height := h }

/-- R121: `num_pages <- height div 8`. R39 (g), `cur_page <= num_pages` in every reachable state, leaves no
state in which `num_pages` is new and an old `cur_page` is beyond it: such a `cur_page` becomes 0 in
the same micro-step, ahead of its own write (log 5). -/
def State.setPages (s : State) (n : BitVec 4) : State :=
  { s with numPages := n, curPage := if n.toNat < s.curPage.toNat then 0#4 else s.curPage }

/-- R121: `bus_addr <- bus_addr`. -/
def State.setBusAddr (s : State) (a : BitVec 7) : State := { s with busAddr := a }

/-- R121: `bus_freq <- bus_freq`. -/
def State.setBusFreq (s : State) (f : BitVec 32) : State := { s with busFreq := f }

/-- R121, R122: `cur_page <- 0`. -/
def State.clearPage (s : State) : State := { s with curPage := 0#4 }

/-- R121: `inited <- 1`. The zero fill is over, and the bytes at or beyond the new `FB_SIZE`, which no read
can reach (R43), leave the list here (log 8). -/
def State.setInited (s : State) : State :=
  { s with inited := true, fb := s.fb.truncate s.fbSize }

/-- R124: the page-select byte, `base | cur_page[3:0]`. -/
def pageByte (s : State) (base : Byte) : Byte := base ||| s.curPage.setWidth 8

/-- One micro-step. -/
def runMicro (m : Micro) (s : State) : MicroOut :=
  match m with
  | .acquire => if s.lock = .released then .done (s.setLock .held) else .hold
  | .writeWidth w => .done (s.setWidth w)
  | .writeHeight h => .done (s.setHeight h)
  | .writePages n => .done (s.setPages n)
  | .writeBusAddr a => .done (s.setBusAddr a)
  | .writeBusFreq f => .done (s.setBusFreq f)
  | .zeroByte off => if off < s.fbSize then .done (s.fbWrite off 0x00#8) else .fault .noSuchByte
  | .setInited => .done s.setInited
  | .schedInit =>
    match sched (initReq s) s with
    | .accepted s' => .done s'
    | .busy => .raised ((s.setLock .released).finish .busy 0#24)
    | .refused r => .refused r
  | .clearCurPage => .done s.clearPage
  | .cmdByte i b => .done (s.cmdWrite i b)
  | .cmdPage i base => .done (s.cmdWrite i (pageByte s base))
  | .schedCmd n cb =>
    match sched (cmdReq s n cb) s with
    | .accepted s' => .done s'
    | .busy => .hold
    | .refused r => .refused r
  | .pixel x y on =>
    if x < s.width.toNat ∧ y < s.height.toNat then
      if pixelIndex s.width.toNat x y < s.fbSize then .done (s.paint x y on)
      else .fault .noSuchByte
    else .refused .pixelOutOfRange

/-- The micro-steps of a command, run in order until the command ends, holds (R7), or is preempted
after its first micro-step and `q` more (R6; log 4). What is left stays in `todo`. The last
micro-step of a command delivers `result = Ok`. -/
def runTodo (q : Option Nat) : List Micro → State → Out
  | [], s => .next { s with todo := [] }
  | m :: ms, s =>
    match runMicro m s with
    | .done s' =>
      if ms = [] then .next (s'.finish .ok 0#24)
      else if q = some 0 then .next { s' with todo := ms }
      else runTodo (q.map (· - 1)) ms s'
    | .hold => .next { s with todo := m :: ms }
    | .raised s' => .next s'
    | .fault r => .fault r
    | .refused r => .refused r

/-- HOST begins a command, with the quantum of the turn being taken. -/
def startCommand (ms : List Micro) (s : State) : Out := runTodo s.choice.quantum ms s

/-- R29: `cmd_buf[i], cmd_buf[i+1], ... <- bs`, as micro-steps. -/
def cmdBytes (i : Nat) : List Byte → List Micro
  | [] => []
  | b :: bs => .cmdByte i b :: cmdBytes (i + 1) bs

/-- R29: the same writes at once, inside an atomic IRQ step. -/
def State.cmdWrites (s : State) (i : Nat) : List Byte → State
  | [] => s
  | b :: bs => (s.cmdWrite i b).cmdWrites (i + 1) bs

end Sys2Proof.Machine
end

