-- ==== Sys2Proof/Machine/Drawing.lean ====
section
/-! DEFINITION. PUT_RECT and PUT_LINE (R150 to R171). -/

namespace Sys2Proof.Machine

/-- R170: one `set_pixel` micro-step per pixel, in the given order. -/
def drawProgram (pixels : List (Nat × Nat)) (on : Bool) : List Micro :=
  pixels.map fun p => .pixel p.1 p.2 on

/-- R170: the pixels in the order the environment chose for this turn (log 6). -/
def draw (pixels : List (Nat × Nat)) (on : Bool) (s : State) : Out :=
  startCommand (drawProgram (reorder s.choice.order pixels) on) s

/-- The clamped operands of a two-point command (R151, R160). -/
def State.clamped (s : State) (x0 y0 x1 y1 : Coord) : Clamped :=
  clampPoints s.width.toNat s.height.toNat x0 y0 x1 y1

/-- PUT_RECT (R151). -/
def execPutRect (params : Byte) (x0 y0 x1 y1 : Coord) (s : State) : Out :=
  if s.inited = false then .refused .beforeInit
  else if paramsLegal params = false then raise .invalidParams s
  else if oobRect (s.clamped x0 y0 x1 y1) then raise .outOfBounds s
  else draw (rectPixels (paramsFill params) (s.clamped x0 y0 x1 y1)) (paramsColor params) s

/-- PUT_LINE (R160); `fill` is accepted and ignored (R169). -/
def execPutLine (params : Byte) (x0 y0 x1 y1 : Coord) (s : State) : Out :=
  if s.inited = false then .refused .beforeInit
  else if paramsLegal params = false then raise .invalidParams s
  else if oobLine s.openParams.lineOob (s.clamped x0 y0 x1 y1) then raise .outOfBounds s
  else draw (linePixels (s.clamped x0 y0 x1 y1)) (paramsColor params) s

end Sys2Proof.Machine
end

