-- ==== Sys2Proof/Machine/Pipeline.lean ====
section
/-! DEFINITION. INIT, REFRESH, SET_BRIGHT, the two pipeline steps and the completion actions
CB_WRITE_PAGE, CB_SET_PAGE, CB_RELEASE (R120 to R136). -/

namespace Sys2Proof.Machine

/-- R121: the micro-steps of INIT after its admission. -/
def initProgram (busAddr : BitVec 7) (width height : BitVec 16) (busFreq : BitVec 32) : List Micro :=
  [.acquire, .writeWidth width, .writeHeight height,
   .writePages (BitVec.ofNat 4 (height.toNat / 8)), .writeBusAddr busAddr, .writeBusFreq busFreq,
   .clearCurPage] ++
  (List.range (width.toNat * (height.toNat / 8))).map Micro.zeroByte ++
  [.setInited, .schedInit]

/-- INIT (R121). -/
def execInit (busAddr : BitVec 7) (width height : BitVec 16) (busFreq : BitVec 32) (s : State) :
    Out :=
  if legalGeometry width.toNat height.toNat then
    startCommand (initProgram busAddr width height busFreq) s
  else .refused .badGeometry

/-- R124 in the foreground: the micro-steps of the set-page step. -/
def setPageProgram (p : OpenParams) : List Micro :=
  cmdBytes 0 p.setpageSeq.dropLast ++
  [.cmdPage (p.setpageSeq.length - 1) (pageBase p), .schedCmd p.setpageSeq.length codeWritePage]

/-- R122: the micro-steps of REFRESH. -/
def refreshProgram (p : OpenParams) : List Micro := [.acquire, .clearCurPage] ++ setPageProgram p

/-- REFRESH (R122). -/
def execRefresh (s : State) : Out :=
  if s.inited then startCommand (refreshProgram s.openParams) s else .refused .beforeInit

/-- R123: the micro-steps of SET_BRIGHT. -/
def brightProgram (p : OpenParams) (level : Byte) : List Micro :=
  [.acquire] ++ cmdBytes 0 (p.brightSeq.dropLast ++ [level]) ++
  [.schedCmd p.brightSeq.length codeRelease]

/-- SET_BRIGHT (R123). -/
def execSetBright (level : Byte) (s : State) : Out :=
  if s.inited then startCommand (brightProgram s.openParams level) s else .refused .beforeInit

/-- R124 inside an IRQ step: `cmd_buf` with the set-page command for `cur_page`. -/
def State.buildSetPage (s : State) : State :=
  s.cmdWrites 0 (s.openParams.setpageSeq.dropLast ++ [pageByte s (pageBase s.openParams)])

/-- R129 inside a completion action: the retry loop accepts at once when `fsm = Idle`; with any other
`fsm` nothing could end it (log 18). -/
def schedInHandler (r : SchedReq) (s : State) : Out :=
  match sched r s with
  | .accepted s' => .next s'
  | .busy => .fault .handlerSpins
  | .refused why => .refused why

/-- The set-page step inside an IRQ step (R124). -/
def setPageStep (s : State) : Out :=
  schedInHandler (cmdReq s s.openParams.setpageSeq.length codeWritePage) s.buildSetPage

/-- `cur_page <- cur_page + 1` (R125). -/
def State.nextPage (s : State) : State := { s with curPage := s.curPage + 1#4 }

/-- The write-page step (R125). -/
def writePageStep (s : State) : Out :=
  if s.curPage = s.numPages then .next (s.setLock .released)
  else
    match schedInHandler (pageReq s) s with
    | .next s' => .next s'.nextPage
    | .fault r => .fault r
    | .refused r => .refused r

/-- CB_WRITE_PAGE (R126). -/
def execCbWritePage (s : State) : Out := writePageStep s

/-- CB_SET_PAGE (R127). -/
def execCbSetPage (s : State) : Out :=
  if s.curPage = s.numPages then .next (s.setLock .released) else setPageStep s

/-- CB_RELEASE (R128). -/
def execCbRelease (s : State) : Out := .next (s.setLock .released)

end Sys2Proof.Machine
end

