-- ==== Sys2Proof/Machine/Engine.lean ====
section
/-! DEFINITION. The transaction engine: SCHED, the five handler arms, the completion-action dispatch,
CB_HOST (R80 to R99). -/

namespace Sys2Proof.Machine

/-- SCHED (R80 to R84). Admission and the check-and-start are one atomic micro-step: admission reads
the operands and the geometry only, which HOST alone writes (log 26). -/
def execSched (addr : BitVec 7) (fastFail : Bool) (pfxOff : Len16) (pfxSpace : Byte) (pfxLen : Len16)
    (payOff : Len16) (paySpace : Byte) (payLen : Len16) (cb : Byte) (cbArg : BitVec 16) (s : State) :
    Out :=
  match sched
    { addr := addr, pfxSpace := pfxSpace, pfxOff := pfxOff.toNat, pfxLen := pfxLen.toNat,
      paySpace := paySpace, payOff := payOff.toNat, payLen := payLen.toNat, cb := cb,
      cbArg := cbArg, fastFail := fastFail } s with
  | .accepted s' => .next (s'.finish .ok 0#24)
  | .busy => raise .busy s
  | .refused r => .refused r

/-- CB_HOST (R96): `done_log += cb_arg`. -/
def execCbHost (s : State) : Out := .next { s with doneLog := s.doneLog ++ [s.txd.cbArg] }

/-- `invoke(cb, arg)` of R96: the action `txd.cb` selects (R73). -/
def invoke (s : State) : Out :=
  match decodeAction s.txd.cb with
  | .instr .cbHost => execCbHost s
  | .instr .cbWritePage => execCbWritePage s
  | .instr .cbSetPage => execCbSetPage s
  | .instr .cbRelease => execCbRelease s
  | .reject .nullAction => .fault .nullCallback
  | _ => .fault .reservedCallback

/-- R88, R89, R94: request STOP, `fsm <- Idle`, then the completion action. -/
def endTransaction (s : State) : Out := invoke { s with stopReq := true, fsm := fsmIdle }

/-- EVT.Idle (R88). -/
def execEvtIdle (s : State) : Out := endTransaction s

/-- EVT.Stop (R89). -/
def execEvtStop (s : State) : Out := endTransaction s

/-- R76: the address byte, `{addr[6:0], 0}`. -/
def addressByte (addr : BitVec 7) : Byte := addr ++ 0#1

/-- R90: where the SlaveAddress arm goes. -/
def afterAddress (t : Txd) : BitVec 3 :=
  if t.pfxRem = 0#16 ∧ t.payRem = 0#16 then fsmStop
  else if t.pfxRem = 0#16 then fsmWriteByte
  else fsmWritePrefix

/-- EVT.SlaveAddress (R90). -/
def execEvtSlaveAddress (s : State) : Out :=
  .next { (s.load (addressByte s.txd.addr)).setFsm (afterAddress s.txd) with startReq := false }

/-- R91: where the WritePrefix arm goes, from the counts after its decrement. -/
def afterPrefix (t : Txd) : BitVec 3 :=
  if t.pfxRem = 0#16 then (if t.payRem = 0#16 then fsmStop else fsmWriteByte) else fsmWritePrefix

/-- R91: the prefix cursor after one byte. -/
def Txd.stepPrefix (t : Txd) : Txd := { t with pfxOff := t.pfxOff + 1#16, pfxRem := t.pfxRem - 1#16 }

/-- EVT.WritePrefix (R91). -/
def execEvtWritePrefix (s : State) : Out :=
  if s.txd.pfxRem = 0#16 then .fault .emptyRun
  else
    match memRead s s.txd.pfxSpace s.txd.pfxOff.toNat with
    | none => missingByte s.txd.pfxSpace
    | some b =>
      .next { (s.load b).setFsm (afterPrefix s.txd.stepPrefix) with txd := s.txd.stepPrefix }

/-- R92: where the WriteByte arm goes, from the count after its decrement. -/
def afterPayload (t : Txd) : BitVec 3 := if t.payRem = 0#16 then fsmStop else fsmWriteByte

/-- R92: the payload cursor after one byte. -/
def Txd.stepPayload (t : Txd) : Txd :=
  { t with payOff := t.payOff + 1#16, payRem := t.payRem - 1#16 }

/-- EVT.WriteByte (R92). -/
def execEvtWriteByte (s : State) : Out :=
  if s.txd.payRem = 0#16 then .fault .emptyRun
  else
    match memRead s s.txd.paySpace s.txd.payOff.toNat with
    | none => missingByte s.txd.paySpace
    | some b =>
      .next { (s.load b).setFsm (afterPayload s.txd.stepPayload) with txd := s.txd.stepPayload }

end Sys2Proof.Machine
end

