-- ==== Sys2Proof/Machine/Lock.lean ====
section
/-! DEFINITION. LOCK_ACQ, LOCK_REL, IRQ_EN, RD_STATUS (R110 to R116). -/

namespace Sys2Proof.Machine

/-- LOCK_ACQ (R111): hold until Released, then Held; test and set are one micro-step (R52). -/
def execLockAcq (s : State) : Out := startCommand [.acquire] s

/-- LOCK_REL (R112): unconditionally Released. -/
def execLockRel (s : State) : Out := .next ((s.setLock .released).finish .ok 0#24)

/-- IRQ_EN (R115). -/
def execIrqEn (en : Bool) (s : State) : Out := .next ({ s with irqEnable := en }.finish .ok 0#24)

/-- RD_STATUS (R116). -/
def execRdStatus (s : State) : Out := .next (s.finish .ok (statusWord s))

end Sys2Proof.Machine
end

