-- ==== Sys2Proof/Machine/Pixel.lean ====
section
/-! DEFINITION. PUT_PIXEL and RD_FB (R142 to R144). -/

namespace Sys2Proof.Machine

/-- R142: the bounds check of PUT_PIXEL. -/
def pixelInBounds (s : State) (x y : Coord) : Bool :=
  decide (0 ≤ sext16 x) && decide (sext16 x < s.width.toNat) &&
  decide (0 ≤ sext16 y) && decide (sext16 y < s.height.toNat)

/-- PUT_PIXEL (R142). -/
def execPutPixel (params : Byte) (x y : Coord) (s : State) : Out :=
  if s.inited = false then .refused .beforeInit
  else if paramsLegal params = false then raise .invalidParams s
  else if pixelInBounds s x y = false then raise .outOfBounds s
  else startCommand [.pixel (sext16 x).toNat (sext16 y).toNat (paramsColor params)] s

/-- RD_FB (R144). -/
def execRdFb (off : Len16) (s : State) : Out :=
  if s.inited = false then .refused .beforeInit
  else if off.toNat < s.fbSize then .next (s.finish .ok ((s.fb.read off.toNat).setWidth 24))
  else .refused .readOutsideFb

end Sys2Proof.Machine
end

