-- ==== Sys2Proof/Machine/Dispatch.lean ====
section
/-! DEFINITION. One arm per instruction. -/

namespace Sys2Proof.Machine

def exec (i : Instr) (s : State) : Host.Outcome State Fault Refusal :=
  match i with
  | .init busAddr width height busFreq => Sys2Proof.Machine.execInit busAddr width height busFreq s
  | .putPixel params x y => Sys2Proof.Machine.execPutPixel params x y s
  | .putRect params x0 y0 x1 y1 => Sys2Proof.Machine.execPutRect params x0 y0 x1 y1 s
  | .putLine params x0 y0 x1 y1 => Sys2Proof.Machine.execPutLine params x0 y0 x1 y1 s
  | .refresh => Sys2Proof.Machine.execRefresh s
  | .setBright level => Sys2Proof.Machine.execSetBright level s
  | .lockAcq => Sys2Proof.Machine.execLockAcq s
  | .lockRel => Sys2Proof.Machine.execLockRel s
  | .sched addr fastFail pfxOff pfxSpace pfxLen payOff paySpace payLen cb cbArg => Sys2Proof.Machine.execSched addr fastFail pfxOff pfxSpace pfxLen payOff paySpace payLen cb cbArg s
  | .irqEn en => Sys2Proof.Machine.execIrqEn en s
  | .rdFb off => Sys2Proof.Machine.execRdFb off s
  | .rdStatus => Sys2Proof.Machine.execRdStatus s
  | .evtIdle => Sys2Proof.Machine.execEvtIdle s
  | .evtStop => Sys2Proof.Machine.execEvtStop s
  | .evtSlaveAddress => Sys2Proof.Machine.execEvtSlaveAddress s
  | .evtWritePrefix => Sys2Proof.Machine.execEvtWritePrefix s
  | .evtWriteByte => Sys2Proof.Machine.execEvtWriteByte s
  | .cbHost => Sys2Proof.Machine.execCbHost s
  | .cbWritePage => Sys2Proof.Machine.execCbWritePage s
  | .cbSetPage => Sys2Proof.Machine.execCbSetPage s
  | .cbRelease => Sys2Proof.Machine.execCbRelease s

end Sys2Proof.Machine
end

