-- ==== Sys2Proof/Machine/Bus.lean ====
section
/-! DEFINITION. The bus agent (R100 to R104): an environment agent with three steps. -/

namespace Sys2Proof.Machine

/-- R101: when BUS.STOP is enabled. -/
def busStopReady (s : State) : Bool := s.stopReq && !s.txPending

/-- R102: when BUS.START is enabled. -/
def busStartReady (s : State) : Bool :=
  s.startReq && !s.stopReq && decide (s.wire = .free) && !s.evtPending

/-- R103: when BUS.BYTE is enabled. -/
def busByteReady (s : State) : Bool := s.txPending && decide (s.wire = .started) && !s.evtPending

/-- R101: BUS.STOP. -/
def busStop (s : State) : State :=
  { s with wireLog := s.wireLog ++ [.stop], stopReq := false, wire := .free }

/-- R102: BUS.START. -/
def busStart (s : State) : State :=
  { s with wireLog := s.wireLog ++ [.start], wire := .started, evtPending := true }

/-- R103: BUS.BYTE. -/
def busByte (s : State) : State :=
  { s with wireLog := s.wireLog ++ [.byte s.dataOut], txPending := false, evtPending := true }

/-- One turn of the bus agent: its enabled step, at most one (R100), or none. -/
def busStep (s : State) : State :=
  if busStopReady s then busStop s
  else if busStartReady s then busStart s
  else if busByteReady s then busByte s
  else s

end Sys2Proof.Machine
end

