-- ==== Sys2Proof/Machine/Fetch.lean ====
section
/-! DEFINITION. What the next step does: which agent moves (R5, R50), and what it runs. HOST takes the
next command word from the port, or goes on with the command it is inside; IRQ takes the pending
event and runs the arm of `fsm`; BUS takes its own step. -/

namespace Sys2Proof.Machine

/-- What a step does: run an instruction, or answer directly. -/
inductive Fetched where
  | run (i : Instr) (s : State)
  | answer (o : Out)

/-- Which agent moves at this step (log 1), and the state with that choice consumed. -/
def turnOf (s : State) : Turn :=
  match s.turns with
  | t :: _ => t
  | [] => Config.freeTurn s.tick

/-- The state with one turn consumed and the free-value counter advanced. -/
def State.passTurn (s : State) : State := { s with turns := s.turns.tail, tick := s.tick + 1 }

/-- A HOST turn (R5, R216): go on with the command HOST is inside, or take the next word of the
command port; with neither, HOST has no step (*hold*). -/
def hostFetch (s : State) : Fetched :=
  match s.todo with
  | m :: ms => .answer (runTodo s.choice.quantum (m :: ms) s)
  | [] =>
    match s.cmdPort with
    | [] => .answer (.next s)
    | w :: ws =>
      match decodeBytes (bytesOfWord 16 w.toNat) with
      | .instr i => .run i { s with cmdPort := ws }
      | .reject why => .answer (.refused (.illegalWord why))

/-- An IRQ turn (R87): when an event is pending and interrupts are enabled, take it and run the arm
of `fsm`; otherwise IRQ has no step. -/
def irqFetch (s : State) : Fetched :=
  if irqReady s then
    match decodeArm s.fsm with
    | .instr i => .run i s.takeEvent
    | .reject _ => .answer (.fault .reservedFsm)
  else .answer (.next s)

/-- What the next step does. -/
def fetch (s : State) : Fetched :=
  match turnOf s with
  | .host h => hostFetch { s.passTurn with choice := h }
  | .irq => irqFetch s.passTurn
  | .bus => .answer (.next (busStep s.passTurn))

/-- HOST between commands, about to take the word `w`, not preempted, in the listed order. -/
def placeCommand (s : State) (w : CmdWord) : State :=
  { s with todo := [], cmdPort := w :: s.cmdPort,
           turns := .host { quantum := none, order := [] } :: s.turns }

/-- A bus event about to be served with `fsm = code`. -/
def placeArm (s : State) (code : BitVec 3) : State :=
  { s with fsm := code, evtPending := true, irqEnable := true, turns := .irq :: s.turns }

/-- A bus event about to end a transaction whose completion action is `code`. -/
def placeAction (s : State) (code : BitVec 4) : State :=
  placeArm { s with txd := { s.txd with cb := code } } fsmStop

/-- The instruction of a table row placed where the next step fetches it (log 19). -/
def placeTableWord (s : State) (nbits w : Nat) : State :=
  if 8 < nbits then placeCommand s (BitVec.ofNat 128 w)
  else if nbits = 4 then placeAction s (BitVec.ofNat 4 w)
  else placeArm s (BitVec.ofNat 3 w)

end Sys2Proof.Machine
end

