-- ==== Sys2Proof/Safety.lean ====
section
/-! DEFINITION. The terms claims are stated in: the block's invariants (R39 and what it rests on),
quiescence (R215), the geometry INIT admits (R24), and what a safe run is. -/

namespace Sys2Proof.Machine

/-- R24: the geometry fields hold what a legal INIT wrote. -/
abbrev Legal (s : State) : Prop :=
  legalGeometry s.width.toNat s.height.toNat = true ∧ s.numPages.toNat = s.height.toNat / 8

/-- The foreground is not preempted in the HOST turn being taken (log 4). -/
abbrev NotPreempted (s : State) : Prop := s.choice.quantum = none

/-- R39, items (a) to (g), as the spec writes them. -/
structure R39 (s : State) : Prop where
  a : s.fsm.toNat ≤ 4
  b : s.txPending = true → s.wire = .started ∧
        (s.fsm = fsmWritePrefix ∨ s.fsm = fsmWriteByte ∨ s.fsm = fsmStop)
  c : s.startReq = true → s.fsm = fsmSlaveAddress
  d : (s.fsm = fsmWritePrefix → 1 ≤ s.txd.pfxRem.toNat) ∧
      (s.fsm = fsmWriteByte → s.txd.pfxRem = 0#16 ∧ 1 ≤ s.txd.payRem.toNat) ∧
      (s.fsm = fsmStop → s.txd.pfxRem = 0#16 ∧ s.txd.payRem = 0#16)
  e : ¬(s.evtPending = true ∧ s.txPending = true)
  f : s.fsm ≠ fsmIdle → 1 ≤ s.txd.cb.toNat ∧ s.txd.cb.toNat ≤ 4
  g : s.curPage.toNat ≤ s.numPages.toNat

/-- What the handshake bits are in each state of the FSM, under the bus agent of R100 to R103. R39
(a), (b), (c), (e) follow from it, and it is kept by every step on its own. -/
abbrev Handshake (s : State) : Prop :=
  (s.fsm = fsmIdle ∧ s.startReq = false ∧ s.txPending = false ∧ s.evtPending = false ∧
    (s.stopReq = true ↔ s.wire = .started)) ∨
  (s.fsm = fsmSlaveAddress ∧ s.startReq = true ∧ s.txPending = false ∧
    ((s.stopReq = true ∧ s.wire = .started ∧ s.evtPending = false) ∨
     (s.stopReq = false ∧ s.wire = .free ∧ s.evtPending = false) ∨
     (s.stopReq = false ∧ s.wire = .started ∧ s.evtPending = true))) ∨
  ((s.fsm = fsmWritePrefix ∨ s.fsm = fsmWriteByte ∨ s.fsm = fsmStop) ∧ s.startReq = false ∧
    s.stopReq = false ∧ s.wire = .started ∧ s.evtPending = !s.txPending)

/-- R39 (d) and (f): the descriptor of the transaction in flight. -/
abbrev Descriptor (s : State) : Prop :=
  (s.fsm = fsmWritePrefix → s.txd.pfxRem ≠ 0#16) ∧
  (s.fsm = fsmWriteByte → s.txd.pfxRem = 0#16 ∧ s.txd.payRem ≠ 0#16) ∧
  (s.fsm = fsmStop → s.txd.pfxRem = 0#16 ∧ s.txd.payRem = 0#16) ∧
  (s.fsm ≠ fsmIdle → 1 ≤ s.txd.cb.toNat ∧ s.txd.cb.toNat ≤ 4)

/-- R39 (g). -/
abbrev PageCursor (s : State) : Prop := s.curPage.toNat ≤ s.numPages.toNat

/-- The invariant of the engine and the pipeline: R39 with what makes it inductive. -/
abbrev EngineInv (s : State) : Prop := Handshake s ∧ Descriptor s ∧ PageCursor s

/-- The resizing micro-steps of INIT (R121): those that change `FB_SIZE`. -/
def Micro.resizes : Micro → Bool
  | .writeWidth _ | .writePages _ => true
  | .acquire | .writeHeight _ | .writeBusAddr _ | .writeBusFreq _ | .zeroByte _ | .setInited
  | .schedInit | .clearCurPage | .cmdByte _ _ | .cmdPage _ _ | .schedCmd _ _ | .pixel _ _ _ => false

/-- A resize is followed by `inited <- 1` in the same command, and that comes before its scheduler
attempt, which may end the command. -/
def todoResizes : List Micro → Prop
  | [] => True
  | m :: ms => (m.resizes = true → Micro.setInited ∈ ms) ∧
      (m = .schedInit → Micro.setInited ∉ ms) ∧ todoResizes ms

/-- R43: the framebuffer memory is canonical and lists no byte at or beyond `FB_SIZE`, but for the old
bytes while HOST is between an INIT's first resize and its `inited <- 1` (log 8). -/
abbrev FbInv (s : State) : Prop :=
  s.fb.wf ∧ todoResizes s.todo ∧ (Micro.setInited ∈ s.todo ∨ ∀ c ∈ s.fb, c.1 < s.fbSize)

/-- The geometry fields of the handle. -/
structure Geometry where
  width    : BitVec 16
  height   : BitVec 16
  numPages : BitVec 4
  deriving DecidableEq, Repr

/-- The geometry fields now. -/
def State.geometry (s : State) : Geometry :=
  { width := s.width, height := s.height, numPages := s.numPages }

/-- The geometry fields once the micro-steps have run. -/
def geometryAfter (g : Geometry) : List Micro → Geometry
  | [] => g
  | .writeWidth w :: ms => geometryAfter { g with width := w } ms
  | .writeHeight h :: ms => geometryAfter { g with height := h } ms
  | .writePages n :: ms => geometryAfter { g with numPages := n } ms
  | .acquire :: ms | .writeBusAddr _ :: ms | .writeBusFreq _ :: ms | .zeroByte _ :: ms
  | .setInited :: ms | .schedInit :: ms | .clearCurPage :: ms | .cmdByte _ _ :: ms
  | .cmdPage _ _ :: ms | .schedCmd _ _ :: ms | .pixel _ _ _ :: ms => geometryAfter g ms

/-- R24: the geometry a legal INIT leaves. -/
abbrev Geometry.Legal (g : Geometry) : Prop :=
  legalGeometry g.width.toNat g.height.toNat = true ∧ g.numPages.toNat = g.height.toNat / 8

/-- R38: the geometry before any INIT. -/
abbrev Geometry.Unset (g : Geometry) : Prop := g = { width := 0#16, height := 0#16, numPages := 0#4 }

/-- The values HOST still has to write keep within the bounds of R24, and the scheduler attempt of an
INIT, which may end the command, comes after its handle writes and its `inited <- 1`. -/
def todoGeometry : List Micro → Prop
  | [] => True
  | m :: ms =>
      (∀ w, m = .writeWidth w → w.toNat ≤ 8191) ∧ (∀ n, m = .writePages n → n.toNat ≤ 8) ∧
      (m = .schedInit → Micro.setInited ∉ ms ∧ ∀ g, geometryAfter g ms = g) ∧ todoGeometry ms

/-- R24, R28: at every moment `width` is at most 8191 and `num_pages` at most 8; and the geometry, once
the handle writes of an unfinished INIT have run, is legal or not yet set, and legal if `inited` is
then 1. Between commands this is the geometry itself. -/
abbrev GeometryInv (s : State) : Prop :=
  s.width.toNat ≤ 8191 ∧ s.numPages.toNat ≤ 8 ∧ todoGeometry s.todo ∧
  ((geometryAfter s.geometry s.todo).Legal ∨ (geometryAfter s.geometry s.todo).Unset) ∧
  (s.inited = true ∨ Micro.setInited ∈ s.todo → (geometryAfter s.geometry s.todo).Legal)

/-- R48: the bytes a cursor still has to load lie inside its space. -/
abbrev CursorInside (s : State) (space : BitVec 2) (off rem : Len16) : Prop :=
  rem = 0#16 ∨ off.toNat + rem.toNat ≤ spaceSize s space.toNat

/-- R48: both cursors of the transaction in flight stay inside their spaces. -/
abbrev CursorInv (s : State) : Prop :=
  s.fsm ≠ fsmIdle →
    CursorInside s s.txd.pfxSpace s.txd.pfxOff s.txd.pfxRem ∧
    CursorInside s s.txd.paySpace s.txd.payOff s.txd.payRem

/-- R81 (b): a run that is empty, or lies in a legal space and inside it. -/
abbrev RunOk (s : State) (space : Byte) (off len : Len16) : Prop :=
  len = 0#16 ∨
  (space = 0#8 ∧ off.toNat + len.toNat ≤ 64) ∨
  (space = 1#8 ∧ off.toNat + len.toNat ≤ 8) ∨
  (space = 2#8 ∧ off.toNat + len.toNat ≤ s.width.toNat * s.numPages.toNat)

/-- R150: a coordinate that needs clamping on an axis of `n` pixels. -/
abbrev Outside (v : Coord) (n : Nat) : Prop := v.toInt < 0 ∨ (n : Int) ≤ v.toInt

/-- R150: a coordinate clamped to `0 .. n - 1`. -/
def nearest (v : Coord) (n : Nat) : Int := max 0 (min v.toInt ((n : Int) - 1))

/-- R166, closed form: `m(p) = ceil((p+1)*small / big) - 1`. -/
def minorOffset (big small p : Int) : Int := -((-((p + 1) * small)) / big) - 1

/-- R163 to R166: `(x, y)` is a pixel of the normalised line from `(xa, ya)` to `(xb, yb)`. -/
def OnSegment (xa ya xb yb x y : Int) : Prop :=
  let dx := xb - xa
  let dy := yb - ya
  if dy = 0 then y = ya ∧ xa ≤ x ∧ x ≤ xb
  else if dx = 0 then x = xa ∧ ya ≤ y ∧ y ≤ yb
  else if |dx| = dy then ∃ i, 0 ≤ i ∧ i ≤ dy ∧ x = xa + dx.sign * i ∧ y = ya + i
  else if dy < |dx| then
    ∃ p, 0 ≤ p ∧ p ≤ |dx| ∧ x = xa + dx.sign * p ∧ y = ya + minorOffset |dx| dy p
  else ∃ p, 0 ≤ p ∧ p ≤ dy ∧ x = xa + dx.sign * minorOffset dy |dx| p ∧ y = ya + p

/-- R162: `(x, y)` is a pixel of the line between two points, in either order: the line is drawn from
its upper endpoint, and from the left one when the rows are equal. -/
def OnLine (x0 y0 x1 y1 x y : Int) : Prop :=
  if y1 < y0 ∨ (y0 = y1 ∧ x1 < x0) then OnSegment x1 y1 x0 y0 x y else OnSegment x0 y0 x1 y1 x y

/-- R215: the block is quiescent and HOST is between commands. -/
abbrev Quiescent (s : State) : Prop :=
  s.fsm = fsmIdle ∧ s.lock = .released ∧ s.startReq = false ∧ s.stopReq = false ∧
  s.txPending = false ∧ s.evtPending = false ∧ s.wire = .free ∧ s.todo = []

/-- The turns of a run in which BUS and IRQ move whenever they can (95_test_vectors.md, part 3): two
BUS turns, for a STOP and the next START, before each IRQ turn. -/
def pulses (n : Nat) : List Turn := (List.replicate n [Turn.bus, Turn.bus, Turn.irq]).flatten

/-- R135: the wire content of the set-page transaction for page `p`. -/
def setPageWire (s : State) (p : Nat) : List WireSym :=
  [.start, .byte (s.busAddr ++ 0#1)] ++ s.openParams.setpageSeq.dropLast.map .byte ++
  [.byte (pageBase s.openParams ||| BitVec.ofNat 8 p), .stop]

/-- R135: the wire content of the page-data transaction for page `p`. -/
def pageDataWire (s : State) (p : Nat) : List WireSym :=
  [.start, .byte (s.busAddr ++ 0#1), .byte s.openParams.dataMarker] ++
  ((List.range s.width.toNat).map fun x => .byte (s.fb.read (p * s.width.toNat + x))) ++ [.stop]

/-- R135: the wire content of a refresh. -/
def refreshWire (s : State) : List WireSym :=
  (List.range s.numPages.toNat).flatMap fun p => setPageWire s p ++ pageDataWire s p

/-- R135: the number of IRQ steps of a refresh. -/
def refreshIrqSteps (s : State) : Nat :=
  s.numPages.toNat * ((s.openParams.setpageSeq.length + 2) + (s.width.toNat + 3))

/-- A run is safe when no step of it stops with a fault. -/
def SafeRun (n : Nat) (s : State) : Prop :=
  ∀ k, k ≤ n → ∀ r, Sys2Proof.core.run k s ≠ .fault r

end Sys2Proof.Machine
end

