-- ==== Sys2Proof/Certificates/Slice0/Obligations.lean ====
section
/-! DEFINITION. The statements about the model. Each docstring says what it states and which rules of
spec/ it rests on. -/

open Sys2Proof Sys2Proof.Machine

/-- Decoding the encoding of any instruction gives it back. Rules: R60, R61, R62, R63, R64, R65,
R66, R67, R68, R69, R72, R73. -/
def Obligations.DecodeOfEncode : Prop :=
  ∀ i : Instr, decode (encode i) = .instr i

/-- A code that decodes is the one encoding of its instruction. Rules: R60, R61, R62, R63, R64, R65,
R66, R67, R68, R69, R71. -/
def Obligations.EncodeOfDecode : Prop :=
  ∀ (e : Encoded) (i : Instr), decode e = .instr i → encode i = e

/-- A command word is illegal exactly when its opcode is reserved or a must-be-zero bit is 1, and
then it is refused. Rules: R71. -/
def Obligations.IllegalWordIffReserved : Prop :=
  (∀ w : CmdWord, (∃ why, decodeCommand w = .reject why) ↔
    ((fieldOf w 0 8).toNat < 1 ∨ 12 < (fieldOf w 0 8).toNat ∨
      w &&& mustBeZeroBits (fieldOf w 0 8).toNat ≠ 0#128)) ∧
  (∀ (s : State) (h : HostTurn) (ts : List Turn) (w : CmdWord) (ws : List CmdWord)
    (why : DecodeError), s.turns = .host h :: ts → s.todo = [] → s.cmdPort = w :: ws →
    decodeCommand w = .reject why → step s = .refused (.illegalWord why))

/-- A command word carried as 16 bytes, byte 0 holding bits 7:0, decodes as the word; other lengths
are rejected. Rules: R60, R45. -/
def Obligations.CommandBytesAreLittleEndian : Prop :=
  (∀ w : CmdWord, decodeBytes ((List.range 16).map fun k => w.extractLsb' (8 * k) 8) =
    decodeCommand w) ∧
  (∀ bs : List Byte, bs.length ≠ 16 → decodeBytes bs = .reject .notSixteenBytes)

/-- Words written out from the spec's encodings decode to what they stand for, and every fsm and
txd.cb code selects as R72 and R73 say. Rules: 95_test_vectors.md section 2.1, R61, R71, R72,
R73. -/
def Obligations.WordsOfTheTestVectorsDecode : Prop :=
  decodeCommand 0x000000000000000186A0004000803C01#128 =
    .instr (.init 0x3C#7 128#16 64#16 100000#32) ∧
  decodeCommand 0x000000000000000000007FFF80000102#128 =
    .instr (.putPixel 1#8 0x8000#16 0x7FFF#16) ∧
  decodeCommand 0x000000000000FFFD000A000500140303#128 =
    .instr (.putRect 3#8 20#16 5#16 10#16 0xFFFD#16) ∧
  decodeCommand 0x0000000000000007000C000300020104#128 =
    .instr (.putLine 1#8 2#16 3#16 12#16 7#16) ∧
  decodeCommand 0x00000000000000000000000000007F06#128 = .instr (.setBright 0x7F#8) ∧
  decodeCommand 0x00BEEF0100030200000001000010BC09#128 =
    .instr (.sched 0x3C#7 true 0x10#16 0#8 1#16 0#16 2#8 3#16 1#8 0xBEEF#16) ∧
  decodeCommand 0x0000000000000000000000000083000B#128 = .instr (.rdFb 131#16) ∧
  decodeCommand 0x00000000000000000000000000000000#128 = .reject .reservedOpcode ∧
  decodeCommand 0x0000000000000000000000000000000D#128 = .reject .reservedOpcode ∧
  decodeCommand 0x00000000000000000000000000000105#128 = .reject .mustBeZero ∧
  decodeCommand 0x00000000000000000001000A00030102#128 = .reject .mustBeZero ∧
  decodeCommand 0x00000000000000000000001000048001#128 = .reject .mustBeZero ∧
  decodeCommand 0x01000000000000000000000000000009#128 = .reject .mustBeZero ∧
  [0#3, 1#3, 2#3, 3#3, 4#3].map decodeArm =
    [.instr .evtIdle, .instr .evtStop, .instr .evtSlaveAddress, .instr .evtWritePrefix,
     .instr .evtWriteByte] ∧
  (∀ c : BitVec 3, 4 < c.toNat → decodeArm c = .reject .reservedArm) ∧
  [1#4, 2#4, 3#4, 4#4].map decodeAction =
    [.instr .cbHost, .instr .cbWritePage, .instr .cbSetPage, .instr .cbRelease] ∧
  decodeAction 0#4 = .reject .nullAction ∧
  ∀ c : BitVec 4, 4 < c.toNat → decodeAction c = .reject .reservedAction

/-- A HOST turn between commands takes the next word of the port and runs the command it decodes to.
Rules: R5, R60, R216. The port and its order are the model's (log 2). -/
def Obligations.StepRunsDecodedCommand : Prop :=
  ∀ (s : State) (h : HostTurn) (ts : List Turn) (w : CmdWord) (ws : List CmdWord) (i : Instr),
    s.turns = .host h :: ts → s.todo = [] → s.cmdPort = w :: ws → decodeCommand w = .instr i →
    step s = exec i { s with turns := ts, tick := s.tick + 1, choice := h, cmdPort := ws }

/-- An enabled IRQ turn clears evt_pending and runs the handler arm fsm selects. Rules: R87, R188,
R72. Which agent moves is an input of the model (log 1). -/
def Obligations.StepRunsSelectedArm : Prop :=
  ∀ (s : State) (ts : List Turn), s.turns = .irq :: ts → s.evtPending = true →
    s.irqEnable = true →
    (∀ i, decodeArm s.fsm = .instr i →
      step s = exec i { s with turns := ts, tick := s.tick + 1, evtPending := false }) ∧
    (4 < s.fsm.toNat → step s = .fault .reservedFsm)

/-- An agent with no enabled step changes nothing when its turn comes. Rules: R7, R23, R87, R101,
R102, R103. That a hold is a step that changes only the inputs is the model's choice (log 3). -/
def Obligations.AgentWithoutEnabledStepHolds : Prop :=
  ∀ (s : State) (ts : List Turn),
    (s.turns = .irq :: ts → (s.evtPending = false ∨ s.irqEnable = false) →
      step s = .next { s with turns := ts, tick := s.tick + 1 }) ∧
    (s.turns = .bus :: ts → (s.stopReq = false ∨ s.txPending = true) →
      (s.startReq = false ∨ s.stopReq = true ∨ s.wire = .started ∨ s.evtPending = true) →
      (s.txPending = false ∨ s.wire = .free ∨ s.evtPending = true) →
      step s = .next { s with turns := ts, tick := s.tick + 1 }) ∧
    (∀ h, s.turns = .host h :: ts → s.todo = [] → s.cmdPort = [] →
      step s = .next { s with turns := ts, tick := s.tick + 1, choice := h })

/-- Preempting a command and resuming it, with nothing in between, gives what running it without
preemption gives. Rules: R6, R188. The preemption points are the model's reading of R6 (log 4). -/
def Obligations.PreemptedCommandResumes : Prop :=
  ∀ (n : Nat) (ms : List Micro) (s t : State), runTodo (some n) ms s = .next t → t.todo ≠ [] →
    runTodo none t.todo t = runTodo none ms s

/-- LOCK_ACQ takes a Released lock and holds, changing nothing, while it is Held. Rules: R111. That
a hold is a step recorded in `todo` is the model's choice (logs 3, 4). -/
def Obligations.LockAcqTakesOrHolds : Prop :=
  ∀ s : State,
    (s.lock = .released →
      exec .lockAcq s = .next { s with lock := .held, result := 0#32, todo := [] }) ∧
    (s.lock = .held → exec .lockAcq s = .next { s with todo := [.acquire] })

/-- LOCK_REL unconditionally sets Released; IRQ_EN writes irq_enable; neither changes anything else.
Rules: R112, R115. -/
def Obligations.LockRelAndIrqEnWriteTheirBit : Prop :=
  ∀ s : State,
    exec .lockRel s = .next { s with lock := .released, result := 0#32, todo := [] } ∧
    ∀ en, exec (.irqEn en) s = .next { s with irqEnable := en, result := 0#32, todo := [] }

/-- RD_STATUS delivers the STATUS view bit by bit and changes no other state. Rules: R116, R34. -/
def Obligations.RdStatusReturnsTheStatusView : Prop :=
  ∀ s : State, ∃ t : State, exec .rdStatus s = .next t ∧
    t = { s with result := t.result, todo := [] } ∧
    t.result.extractLsb' 0 8 = 0#8 ∧
    t.result.extractLsb' 8 3 = s.fsm ∧
    (t.result.getLsbD 11 = true ↔ s.lock = .held) ∧
    t.result.getLsbD 12 = s.inited ∧
    t.result.getLsbD 13 = s.irqEnable ∧
    t.result.getLsbD 14 = s.startReq ∧
    t.result.getLsbD 15 = s.stopReq ∧
    t.result.getLsbD 16 = s.txPending ∧
    t.result.getLsbD 17 = s.evtPending ∧
    (t.result.getLsbD 18 = true ↔ s.wire = .started) ∧
    t.result.extractLsb' 19 4 = s.curPage ∧
    t.result.extractLsb' 23 4 = s.numPages ∧
    t.result.extractLsb' 27 5 = 0#5

/-- RD_FB delivers one framebuffer byte, and is refused before INIT and outside FB. Rules: R144. -/
def Obligations.RdFbReturnsTheByte : Prop :=
  ∀ (s : State) (off : Len16),
    (s.inited = true → off.toNat < s.width.toNat * s.numPages.toNat →
      exec (.rdFb off) s =
        .next { s with result := 0#16 ++ s.fb.read off.toNat ++ 0#8, todo := [] }) ∧
    (s.inited = false → exec (.rdFb off) s = .refused .beforeInit) ∧
    (s.inited = true → s.width.toNat * s.numPages.toNat ≤ off.toNat →
      exec (.rdFb off) s = .refused .readOutsideFb)

/-- PUT_PIXEL sets or clears exactly the addressed bit, whatever the lock, and reports errors in
order. Rules: R140, R142. -/
def Obligations.PutPixelWritesOneBit : Prop :=
  ∀ (s : State) (params : Byte) (x y : Coord),
    (s.inited = false → exec (.putPixel params x y) s = .refused .beforeInit) ∧
    (s.inited = true → 3 < params.toNat →
      exec (.putPixel params x y) s = .next { s with result := 2#32, todo := [] }) ∧
    (s.inited = true → params.toNat ≤ 3 →
      (Outside x s.width.toNat ∨ Outside y s.height.toNat) →
      exec (.putPixel params x y) s = .next { s with result := 1#32, todo := [] }) ∧
    (s.inited = true → Legal s → s.fb.wf → params.toNat ≤ 3 →
      ¬Outside x s.width.toNat → ¬Outside y s.height.toNat →
      ∃ t : State, exec (.putPixel params x y) s = .next t ∧
        t = { s with fb := t.fb, result := 0#32, todo := [] } ∧
        (∀ a, a ≠ y.toNat / 8 * s.width.toNat + x.toNat → t.fb.read a = s.fb.read a) ∧
        (∀ j, j < 8 →
          (t.fb.read (y.toNat / 8 * s.width.toNat + x.toNat)).getLsbD j =
            if j = y.toNat % 8 then params.getLsbD 0
            else (s.fb.read (y.toNat / 8 * s.width.toNat + x.toNat)).getLsbD j))

/-- After an Ok PUT_PIXEL the pixel reads back as written and no other pixel of the display changed.
Rules: R145, R146, R140. -/
def Obligations.PutPixelReadsBack : Prop :=
  ∀ (s : State) (params : Byte) (x y : Coord), s.inited = true → Legal s → s.fb.wf →
    params.toNat ≤ 3 → ¬Outside x s.width.toNat → ¬Outside y s.height.toNat →
    ∃ t : State, exec (.putPixel params x y) s = .next t ∧
      getPixel t x.toNat y.toNat = params.getLsbD 0 ∧
      ∀ x' y', x' < s.width.toNat → y' < s.height.toNat → (x', y') ≠ (x.toNat, y.toNat) →
        getPixel t x' y' = getPixel s x' y'

/-- PUT_RECT: InvalidParams first, then OutOfBounds exactly when all four coordinates are outside,
changing only result. Rules: R151, R152, R181, R183, R193. -/
def Obligations.PutRectErrors : Prop :=
  ∀ (s : State) (params : Byte) (x0 y0 x1 y1 : Coord),
    (s.inited = false → exec (.putRect params x0 y0 x1 y1) s = .refused .beforeInit) ∧
    (s.inited = true → 3 < params.toNat →
      exec (.putRect params x0 y0 x1 y1) s = .next { s with result := 2#32, todo := [] }) ∧
    (s.inited = true → Legal s → params.toNat ≤ 3 →
      (exec (.putRect params x0 y0 x1 y1) s = .next { s with result := 1#32, todo := [] } ↔
        Outside x0 s.width.toNat ∧ Outside y0 s.height.toNat ∧
        Outside x1 s.width.toNat ∧ Outside y1 s.height.toNat))

/-- A filled PUT_RECT gives every pixel of the clamped box its colour and leaves every other pixel
alone. Rules: R151, R152, R153, R154, R156. -/
def Obligations.FilledRectPaintsItsBox : Prop :=
  ∀ (s : State) (params : Byte) (x0 y0 x1 y1 : Coord), s.inited = true → Legal s → s.fb.wf →
    params.toNat ≤ 3 → params.getLsbD 1 = true →
    ¬(Outside x0 s.width.toNat ∧ Outside y0 s.height.toNat ∧ Outside x1 s.width.toNat ∧
      Outside y1 s.height.toNat) → NotPreempted s →
    ∃ t : State, exec (.putRect params x0 y0 x1 y1) s = .next t ∧
      t = { s with fb := t.fb, result := 0#32, todo := [] } ∧
      (∀ a, s.width.toNat * s.numPages.toNat ≤ a → t.fb.read a = s.fb.read a) ∧
      ∀ x y : Nat, x < s.width.toNat → y < s.height.toNat →
        (min (nearest x0 s.width.toNat) (nearest x1 s.width.toNat) ≤ x ∧
         (x : Int) ≤ max (nearest x0 s.width.toNat) (nearest x1 s.width.toNat) ∧
         min (nearest y0 s.height.toNat) (nearest y1 s.height.toNat) ≤ y ∧
         (y : Int) ≤ max (nearest y0 s.height.toNat) (nearest y1 s.height.toNat) →
          getPixel t x y = params.getLsbD 0) ∧
        (¬(min (nearest x0 s.width.toNat) (nearest x1 s.width.toNat) ≤ x ∧
         (x : Int) ≤ max (nearest x0 s.width.toNat) (nearest x1 s.width.toNat) ∧
         min (nearest y0 s.height.toNat) (nearest y1 s.height.toNat) ≤ y ∧
         (y : Int) ≤ max (nearest y0 s.height.toNat) (nearest y1 s.height.toNat)) →
          getPixel t x y = getPixel s x y)

/-- An outline PUT_RECT gives exactly the perimeter pixels their colour and leaves every other pixel
alone. Rules: R151, R152, R153, R155, R156. -/
def Obligations.OutlineRectPaintsItsPerimeter : Prop :=
  ∀ (s : State) (params : Byte) (x0 y0 x1 y1 : Coord), s.inited = true → Legal s → s.fb.wf →
    params.toNat ≤ 3 → params.getLsbD 1 = false →
    ¬(Outside x0 s.width.toNat ∧ Outside y0 s.height.toNat ∧ Outside x1 s.width.toNat ∧
      Outside y1 s.height.toNat) → NotPreempted s →
    ∃ t : State, exec (.putRect params x0 y0 x1 y1) s = .next t ∧
      t = { s with fb := t.fb, result := 0#32, todo := [] } ∧
      (∀ a, s.width.toNat * s.numPages.toNat ≤ a → t.fb.read a = s.fb.read a) ∧
      ∀ x y : Nat, x < s.width.toNat → y < s.height.toNat →
        let xa := min (nearest x0 s.width.toNat) (nearest x1 s.width.toNat)
        let xb := max (nearest x0 s.width.toNat) (nearest x1 s.width.toNat)
        let ya := min (nearest y0 s.height.toNat) (nearest y1 s.height.toNat)
        let yb := max (nearest y0 s.height.toNat) (nearest y1 s.height.toNat)
        let edge := xa ≤ x ∧ (x : Int) ≤ xb ∧ ya ≤ y ∧ (y : Int) ≤ yb ∧
          ((x : Int) = xa ∨ (x : Int) = xb ∨ (y : Int) = ya ∨ (y : Int) = yb)
        (edge → getPixel t x y = params.getLsbD 0) ∧
        (¬edge → getPixel t x y = getPixel s x y)

/-- PUT_LINE: InvalidParams first, then OutOfBounds exactly when the test of LINE_OOB_RULE holds,
under either reading. Rules: R160, R161, R181, R183, R193. Both readings of the open parameter
are stated (log 10). -/
def Obligations.PutLineErrors : Prop :=
  ∀ (s : State) (params : Byte) (x0 y0 x1 y1 : Coord),
    (s.inited = false → exec (.putLine params x0 y0 x1 y1) s = .refused .beforeInit) ∧
    (s.inited = true → 3 < params.toNat →
      exec (.putLine params x0 y0 x1 y1) s = .next { s with result := 2#32, todo := [] }) ∧
    (s.inited = true → Legal s → params.toNat ≤ 3 → s.openParams.lineOob = .perAxis →
      (exec (.putLine params x0 y0 x1 y1) s = .next { s with result := 1#32, todo := [] } ↔
        (Outside x0 s.width.toNat ∧ Outside x1 s.width.toNat) ∨
        (Outside y0 s.height.toNat ∧ Outside y1 s.height.toNat))) ∧
    (s.inited = true → Legal s → params.toNat ≤ 3 → s.openParams.lineOob = .perEndpoint →
      (exec (.putLine params x0 y0 x1 y1) s = .next { s with result := 1#32, todo := [] } ↔
        (Outside x0 s.width.toNat ∧ Outside y0 s.height.toNat) ∨
        (Outside x1 s.width.toNat ∧ Outside y1 s.height.toNat)))

/-- PUT_LINE gives exactly the pixels of the normalised line their colour, by the closed form of
each case. Rules: R160, R161, R162, R163, R164, R165, R166, R169. Both readings of the open
parameter are stated (log 10); the staircase is the spec's choice for an open point (log 11). -/
def Obligations.PutLinePaintsTheLine : Prop :=
  ∀ (s : State) (params : Byte) (x0 y0 x1 y1 : Coord), s.inited = true → Legal s → s.fb.wf →
    params.toNat ≤ 3 →
    (s.openParams.lineOob = .perAxis →
      ¬(Outside x0 s.width.toNat ∧ Outside x1 s.width.toNat) ∧
      ¬(Outside y0 s.height.toNat ∧ Outside y1 s.height.toNat)) →
    (s.openParams.lineOob = .perEndpoint →
      ¬(Outside x0 s.width.toNat ∧ Outside y0 s.height.toNat) ∧
      ¬(Outside x1 s.width.toNat ∧ Outside y1 s.height.toNat)) → NotPreempted s →
    ∃ t : State, exec (.putLine params x0 y0 x1 y1) s = .next t ∧
      t = { s with fb := t.fb, result := 0#32, todo := [] } ∧
      (∀ a, s.width.toNat * s.numPages.toNat ≤ a → t.fb.read a = s.fb.read a) ∧
      ∀ x y : Nat, x < s.width.toNat → y < s.height.toNat →
        (OnLine (nearest x0 s.width.toNat) (nearest y0 s.height.toNat)
            (nearest x1 s.width.toNat) (nearest y1 s.height.toNat) x y →
          getPixel t x y = params.getLsbD 0) ∧
        (¬OnLine (nearest x0 s.width.toNat) (nearest y0 s.height.toNat)
            (nearest x1 s.width.toNat) (nearest y1 s.height.toNat) x y →
          getPixel t x y = getPixel s x y)

/-- A line draws exactly max(|dx|, dy) + 1 pixels, no pixel twice. Rules: R165, R168. The staircase
is the spec's choice for an open point (log 11). -/
def Obligations.LineDrawsOnePixelPerMajorPosition : Prop :=
  ∀ x0 y0 x1 y1 : Nat,
    ((segmentPixels (normalise x0 y0 x1 y1)).length : Int) =
      max |(x1 : Int) - x0| |(y1 : Int) - y0| + 1 ∧
    (segmentPixels (normalise x0 y0 x1 y1)).Nodup

/-- The runs of a staircase have length base or base + 1, follow one another, and fill the major
axis. Rules: R166, R168. The staircase is the spec's choice for an open point (log 11). -/
def Obligations.StairRunsAreEven : Prop :=
  ∀ big small : Nat, 1 ≤ small → small < big →
    (∀ j, j < small → (stairLen big small j = big / small ∨ stairLen big small j = big / small + 1) ∧
      stairLen big small j ≤ (big + small - 1) / small ∧
      stairStart big small (j + 1) = stairStart big small j + stairLen big small j) ∧
    stairStart big small 0 = 0 ∧ stairStart big small small = big ∧
    (List.range small).countP (fun j => decide (stairLen big small j = big / small + 1)) =
      big % small

/-- Swapping the two endpoints of a PUT_LINE gives the same outcome. Rules: R162, R168. -/
def Obligations.LineIsSymmetric : Prop :=
  ∀ (s : State) (params : Byte) (x0 y0 x1 y1 : Coord),
    exec (.putLine params x1 y1 x0 y0) s = exec (.putLine params x0 y0 x1 y1) s

/-- PUT_RECT and PUT_LINE complete for all operands and never touch anything outside the display.
Rules: R171, R141. -/
def Obligations.DrawingStaysInsideTheFramebuffer : Prop :=
  ∀ (s : State) (params : Byte) (x0 y0 x1 y1 : Coord) (i : Instr), s.inited = true → Legal s →
    s.fb.wf → (i = .putRect params x0 y0 x1 y1 ∨ i = .putLine params x0 y0 x1 y1) →
    ∃ t : State, exec i s = .next t ∧
      t = { s with fb := t.fb, result := t.result, todo := t.todo } ∧
      (∀ a, s.width.toNat * s.numPages.toNat ≤ a → t.fb.read a = s.fb.read a) ∧
      ∀ m ∈ t.todo, ∃ x y on, m = .pixel x y on ∧ x < s.width.toNat ∧ y < s.height.toNat

/-- The final framebuffer of a drawing command does not depend on the order of its pixel writes.
Rules: R170. The open order of R170 is an input of the model (log 6). -/
def Obligations.DrawingOrderDoesNotMatter : Prop :=
  ∀ (s : State) (params : Byte) (x0 y0 x1 y1 : Coord) (i : Instr) (o₁ o₂ : List Nat),
    s.inited = true → Legal s → s.fb.wf →
    (i = .putRect params x0 y0 x1 y1 ∨ i = .putLine params x0 y0 x1 y1) →
    ∃ t₁ t₂ : State,
      exec i { s with choice := { quantum := none, order := o₁ } } = .next t₁ ∧
      exec i { s with choice := { quantum := none, order := o₂ } } = .next t₂ ∧
      t₁.fb = t₂.fb ∧ t₁.result = t₂.result

/-- The CLEAR pseudo-instruction clears every pixel and never raises OutOfBounds. Rules: R78, R157. -/
def Obligations.ClearClearsEveryPixel : Prop :=
  ∀ s : State, s.inited = true → Legal s → s.fb.wf → NotPreempted s →
    ∃ (i : Instr) (t : State), pseudoClear s.width s.height = [i] ∧ exec i s = .next t ∧
      t = { s with fb := t.fb, result := 0#32, todo := [] } ∧
      ∀ x y : Nat, x < s.width.toNat → y < s.height.toNat → getPixel t x y = false

/-- An admitted SCHED with the engine Idle latches the descriptor, goes to SlaveAddress and requests
a START. Rules: R80, R81, R82, R84. The space field of a reserved code is a free value (log 14). -/
def Obligations.SchedStartsATransaction : Prop :=
  ∀ (s : State) (addr : BitVec 7) (ff : Bool) (pfxOff : Len16) (pfxSpace : Byte) (pfxLen payOff : Len16)
    (paySpace : Byte) (payLen : Len16) (cb : Byte) (cbArg : BitVec 16),
    1 ≤ cb.toNat → cb.toNat ≤ 4 → RunOk s pfxSpace pfxOff pfxLen → RunOk s paySpace payOff payLen →
    s.fsm = 0#3 →
    ∃ t : State, exec (.sched addr ff pfxOff pfxSpace pfxLen payOff paySpace payLen cb cbArg) s = .next t ∧
      t = { s with txd := t.txd, fsm := 2#3, startReq := true, result := 0#32, todo := [] } ∧
      t.txd = { addr := addr, pfxSpace := t.txd.pfxSpace, pfxOff := pfxOff, pfxRem := pfxLen,
                paySpace := t.txd.paySpace, payOff := payOff, payRem := payLen,
                cb := cb.setWidth 4, cbArg := cbArg, fastFail := ff } ∧
      (pfxSpace.toNat < 4 → t.txd.pfxSpace.toNat = pfxSpace.toNat) ∧
      (paySpace.toNat < 4 → t.txd.paySpace.toNat = paySpace.toNat)

/-- An admitted fast-fail SCHED while a transaction is in flight returns Busy and changes nothing
else. Rules: R83. -/
def Obligations.SchedWhileBusyChangesNothing : Prop :=
  ∀ (s : State) (addr : BitVec 7) (ff : Bool) (pfxOff : Len16) (pfxSpace : Byte) (pfxLen payOff : Len16)
    (paySpace : Byte) (payLen : Len16) (cb : Byte) (cbArg : BitVec 16),
    1 ≤ cb.toNat → cb.toNat ≤ 4 → RunOk s pfxSpace pfxOff pfxLen → RunOk s paySpace payOff payLen →
    s.fsm ≠ 0#3 → ff = true →
    exec (.sched addr ff pfxOff pfxSpace pfxLen payOff paySpace payLen cb cbArg) s = .next { s with result := 3#32, todo := [] }

/-- SCHED is refused, by name, for a null or reserved callback, a run outside its space, and
fast_fail = 0 while busy. Rules: R81, R84. -/
def Obligations.SchedIsRefusedOutsideItsContract : Prop :=
  ∀ (s : State) (addr : BitVec 7) (ff : Bool) (pfxOff : Len16) (pfxSpace : Byte) (pfxLen payOff : Len16)
    (paySpace : Byte) (payLen : Len16) (cb : Byte) (cbArg : BitVec 16),
    ((cb.toNat = 0 ∨ 4 < cb.toNat) → exec (.sched addr ff pfxOff pfxSpace pfxLen payOff paySpace payLen cb cbArg) s = .refused .schedCallback) ∧
    (1 ≤ cb.toNat → cb.toNat ≤ 4 →
      (¬RunOk s pfxSpace pfxOff pfxLen ∨ ¬RunOk s paySpace payOff payLen) →
      exec (.sched addr ff pfxOff pfxSpace pfxLen payOff paySpace payLen cb cbArg) s = .refused .schedSpan) ∧
    (1 ≤ cb.toNat → cb.toNat ≤ 4 → RunOk s pfxSpace pfxOff pfxLen →
      RunOk s paySpace payOff payLen → s.fsm ≠ 0#3 → ff = false →
      exec (.sched addr ff pfxOff pfxSpace pfxLen payOff paySpace payLen cb cbArg) s = .refused .schedNotFastFail)

/-- The SlaveAddress arm loads the address byte, clears the START request and picks the next state
three ways. Rules: R90. The form of the address byte is the spec's own general knowledge, GK1
(log 12). -/
def Obligations.SlaveAddressArm : Prop :=
  ∀ s : State, exec .evtSlaveAddress s = .next { s with
    dataOut := s.txd.addr ++ 0#1, txPending := true, startReq := false,
    fsm := if s.txd.pfxRem = 0#16 ∧ s.txd.payRem = 0#16 then 1#3
           else if s.txd.pfxRem = 0#16 then 4#3 else 3#3 }

/-- The WritePrefix arm loads the next prefix byte, advances the cursor and leaves when the count
reaches 0. Rules: R91. -/
def Obligations.WritePrefixArm : Prop :=
  ∀ s : State,
    (s.txd.pfxRem = 0#16 → exec .evtWritePrefix s = .fault .emptyRun) ∧
    (∀ b, s.txd.pfxRem ≠ 0#16 → memRead s s.txd.pfxSpace s.txd.pfxOff.toNat = some b →
      exec .evtWritePrefix s = .next { s with
        dataOut := b, txPending := true,
        txd := { s.txd with pfxOff := s.txd.pfxOff + 1#16, pfxRem := s.txd.pfxRem - 1#16 },
        fsm := if s.txd.pfxRem ≠ 1#16 then 3#3 else if s.txd.payRem ≠ 0#16 then 4#3 else 1#3 })

/-- The WriteByte arm loads the payload byte memory holds now, advances the cursor and stops when
the count reaches 0. Rules: R92. -/
def Obligations.WriteByteArm : Prop :=
  ∀ s : State,
    (s.txd.payRem = 0#16 → exec .evtWriteByte s = .fault .emptyRun) ∧
    (∀ b, s.txd.payRem ≠ 0#16 → memRead s s.txd.paySpace s.txd.payOff.toNat = some b →
      exec .evtWriteByte s = .next { s with
        dataOut := b, txPending := true,
        txd := { s.txd with payOff := s.txd.payOff + 1#16, payRem := s.txd.payRem - 1#16 },
        fsm := if s.txd.payRem ≠ 1#16 then 4#3 else 1#3 })

/-- Each space reads its own bytes below its size and no other byte exists; a load arm that meets a
missing byte stops. Rules: R40, R41, R42, R43, R212. The parameters are any that meet D25 (log
9); the stops at a missing byte are U19 and log 16. -/
def Obligations.ReadsOfTheThreeSpaces : Prop :=
  ∀ (s : State) (off : Nat), ParamsOk s.openParams →
    (off < 64 → memRead s 0#2 off = some (
      if off < s.openParams.initSeq.length then s.openParams.initSeq.getD off 0#8
      else if off = 0x10 then s.openParams.dataMarker
      else if 0x18 ≤ off ∧ off < 0x18 + s.openParams.setpageSeq.length then
        s.openParams.setpageSeq.getD (off - 0x18) 0#8
      else if 0x20 ≤ off ∧ off < 0x20 + s.openParams.brightSeq.length then
        s.openParams.brightSeq.getD (off - 0x20) 0#8
      else 0#8)) ∧
    (∀ h : off < 8, memRead s 1#2 off = some s.cmdBuf[off]) ∧
    (off < s.width.toNat * s.numPages.toNat → memRead s 2#2 off = some (s.fb.read off)) ∧
    (64 ≤ off → memRead s 0#2 off = none) ∧ (8 ≤ off → memRead s 1#2 off = none) ∧
    (s.width.toNat * s.numPages.toNat ≤ off → memRead s 2#2 off = none) ∧
    memRead s 3#2 off = none ∧
    (s.txd.pfxRem ≠ 0#16 → memRead s s.txd.pfxSpace s.txd.pfxOff.toNat = none →
      exec .evtWritePrefix s =
        if s.txd.pfxSpace = 2#2 then .refused .staleFbCursor else .fault .noSuchByte) ∧
    (s.txd.payRem ≠ 0#16 → memRead s s.txd.paySpace s.txd.payOff.toNat = none →
      exec .evtWriteByte s =
        if s.txd.paySpace = 2#2 then .refused .staleFbCursor else .fault .noSuchByte)

/-- The Stop and Idle arms request STOP, go to Idle, and then run the stored completion action.
Rules: R88, R89, R94, R96. -/
def Obligations.StopAndIdleArmsEndTheTransaction : Prop :=
  ∀ (s : State) (i : Instr), (i = .evtStop ∨ i = .evtIdle) →
    (s.txd.cb = 1#4 → exec i s =
      .next { s with stopReq := true, fsm := 0#3, doneLog := s.doneLog ++ [s.txd.cbArg] }) ∧
    (s.txd.cb = 2#4 → exec i s = exec .cbWritePage { s with stopReq := true, fsm := 0#3 }) ∧
    (s.txd.cb = 3#4 → exec i s = exec .cbSetPage { s with stopReq := true, fsm := 0#3 }) ∧
    (s.txd.cb = 4#4 → exec i s =
      .next { s with stopReq := true, fsm := 0#3, lock := .released }) ∧
    (s.txd.cb = 0#4 → exec i s = .fault .nullCallback) ∧
    (4 < s.txd.cb.toNat → exec i s = .fault .reservedCallback)

/-- CB_HOST appends cb_arg to done_log; CB_RELEASE releases the lock; neither changes anything else.
Rules: R96, R128. -/
def Obligations.HostAndReleaseActions : Prop :=
  ∀ s : State,
    exec .cbHost s = .next { s with doneLog := s.doneLog ++ [s.txd.cbArg] } ∧
    exec .cbRelease s = .next { s with lock := .released }

/-- CB_WRITE_PAGE schedules the data marker and the page's bytes by reference and advances cur_page.
Rules: R125, R126, R134. -/
def Obligations.WritePageActionSendsThePage : Prop :=
  ∀ s : State,
    (s.curPage = s.numPages → exec .cbWritePage s = .next { s with lock := .released }) ∧
    (s.curPage.toNat < s.numPages.toNat → Legal s → s.fsm = 0#3 →
      exec .cbWritePage s = .next { s with
        txd := { addr := s.busAddr, pfxSpace := 0#2, pfxOff := 0x10#16, pfxRem := 1#16,
                 paySpace := 2#2, payOff := BitVec.ofNat 16 (s.curPage.toNat * s.width.toNat),
                 payRem := s.width, cb := 3#4, cbArg := 0#16, fastFail := true }
        fsm := 2#3, startReq := true, curPage := s.curPage + 1#4 })

/-- CB_SET_PAGE releases the lock after the last page, else builds and schedules the set-page
command for cur_page. Rules: R124, R127, R132. The payload cursor `-` is left open (log 27). -/
def Obligations.SetPageActionSendsThePageAddress : Prop :=
  ∀ s : State, ParamsOk s.openParams →
    (s.curPage = s.numPages → exec .cbSetPage s = .next { s with lock := .released }) ∧
    (s.curPage ≠ s.numPages → s.fsm = 0#3 →
      ∃ t : State, exec .cbSetPage s = .next t ∧
        t = { s with
          cmdBuf := t.cmdBuf
          txd := { addr := s.busAddr, pfxSpace := 1#2, pfxOff := 0#16,
                   pfxRem := BitVec.ofNat 16 s.openParams.setpageSeq.length,
                   paySpace := t.txd.paySpace, payOff := t.txd.payOff, payRem := 0#16, cb := 2#4,
                   cbArg := 0#16, fastFail := true }
          fsm := 2#3, startReq := true } ∧
        (∀ i, i < s.openParams.setpageSeq.length - 1 →
          t.cmdBuf[i]? = s.openParams.setpageSeq[i]?) ∧
        t.cmdBuf[s.openParams.setpageSeq.length - 1]? =
          some (pageBase s.openParams ||| s.curPage.setWidth 8) ∧
        (∀ i, s.openParams.setpageSeq.length ≤ i → t.cmdBuf[i]? = s.cmdBuf[i]?))

/-- INIT with a free lock and an idle engine writes the handle, clears the framebuffer and sends
INIT_SEQ. Rules: R121, R212. The cleared framebuffer is the memory that lists nothing (log 8);
the payload cursor `-` is left open (log 27). -/
def Obligations.InitConfiguresAndSchedules : Prop :=
  ∀ (s : State) (a : BitVec 7) (w h : BitVec 16) (f : BitVec 32),
    1 ≤ w.toNat → w.toNat ≤ 8191 → h.toNat % 8 = 0 → 8 ≤ h.toNat → h.toNat ≤ 64 →
    ParamsOk s.openParams → s.lock = .released → s.fsm = 0#3 → s.fb.wf → NotPreempted s →
    ∃ t : State, exec (.init a w h f) s = .next t ∧ t = { s with
      width := w, height := h, numPages := BitVec.ofNat 4 (h.toNat / 8), busAddr := a, busFreq := f,
      curPage := 0#4, inited := true, fb := [], lock := .held
      txd := { addr := a, pfxSpace := 0#2, pfxOff := 0#16,
               pfxRem := BitVec.ofNat 16 s.openParams.initSeq.length, paySpace := t.txd.paySpace,
               payOff := t.txd.payOff, payRem := 0#16, cb := 4#4, cbArg := 0#16,
               fastFail := true }
      fsm := 2#3, startReq := true, result := 0#32, todo := [] }

/-- INIT with a transaction in flight returns Busy with the new geometry in effect; an illegal
geometry is refused. Rules: R121, R184, R212. The cleared framebuffer is the memory that lists
nothing (log 8). -/
def Obligations.InitWhileBusyOrIllegal : Prop :=
  ∀ (s : State) (a : BitVec 7) (w h : BitVec 16) (f : BitVec 32),
    (1 ≤ w.toNat → w.toNat ≤ 8191 → h.toNat % 8 = 0 → 8 ≤ h.toNat → h.toNat ≤ 64 →
      ParamsOk s.openParams → s.lock = .released → s.fsm ≠ 0#3 → s.fb.wf → NotPreempted s →
      exec (.init a w h f) s = .next { s with
        width := w, height := h, numPages := BitVec.ofNat 4 (h.toNat / 8), busAddr := a,
        busFreq := f, curPage := 0#4, inited := true, fb := [], lock := .released,
        result := 3#32, todo := [] }) ∧
    (w.toNat = 0 ∨ 8191 < w.toNat ∨ h.toNat % 8 ≠ 0 ∨ h.toNat = 0 ∨ 64 < h.toNat →
      exec (.init a w h f) s = .refused .badGeometry)

/-- REFRESH with a free lock and an idle engine takes the lock and schedules the set-page command of
page 0. Rules: R122, R124, R132. The payload cursor `-` is left open (log 27). -/
def Obligations.RefreshStartsTheChain : Prop :=
  ∀ s : State, s.inited = true → ParamsOk s.openParams → s.lock = .released → s.fsm = 0#3 →
    NotPreempted s →
    ∃ t : State, exec .refresh s = .next t ∧
      t = { s with
        lock := .held, curPage := 0#4, cmdBuf := t.cmdBuf
        txd := { addr := s.busAddr, pfxSpace := 1#2, pfxOff := 0#16,
                 pfxRem := BitVec.ofNat 16 s.openParams.setpageSeq.length,
                 paySpace := t.txd.paySpace, payOff := t.txd.payOff, payRem := 0#16, cb := 2#4,
                 cbArg := 0#16, fastFail := true }
        fsm := 2#3, startReq := true, result := 0#32, todo := [] } ∧
      (∀ i, i < s.openParams.setpageSeq.length → t.cmdBuf[i]? = s.openParams.setpageSeq[i]?) ∧
      (∀ i, s.openParams.setpageSeq.length ≤ i → t.cmdBuf[i]? = s.cmdBuf[i]?)

/-- SET_BRIGHT with a free lock and an idle engine takes the lock and schedules the brightness
command. Rules: R123, R133. The payload cursor `-` is left open (log 27). -/
def Obligations.SetBrightSendsTheLevel : Prop :=
  ∀ (s : State) (level : Byte), s.inited = true → ParamsOk s.openParams → s.lock = .released →
    s.fsm = 0#3 → NotPreempted s →
    ∃ t : State, exec (.setBright level) s = .next t ∧
      t = { s with
        lock := .held, cmdBuf := t.cmdBuf
        txd := { addr := s.busAddr, pfxSpace := 1#2, pfxOff := 0#16,
                 pfxRem := BitVec.ofNat 16 s.openParams.brightSeq.length,
                 paySpace := t.txd.paySpace, payOff := t.txd.payOff, payRem := 0#16, cb := 4#4,
                 cbArg := 0#16, fastFail := true }
        fsm := 2#3, startReq := true, result := 0#32, todo := [] } ∧
      (∀ i, i < s.openParams.brightSeq.length - 1 → t.cmdBuf[i]? = s.openParams.brightSeq[i]?) ∧
      t.cmdBuf[s.openParams.brightSeq.length - 1]? = some level ∧
      (∀ i, s.openParams.brightSeq.length ≤ i → t.cmdBuf[i]? = s.cmdBuf[i]?)

/-- LOCK_ACQ, REFRESH, SET_BRIGHT and INIT hold at their acquire while the lock is Held, changing
nothing. Rules: R111, R121, R122, R123, R206. That a hold is recorded in `todo` is the model's
choice (logs 3, 4). -/
def Obligations.LockingCommandsHoldAtTheAcquire : Prop :=
  ∀ (s : State) (i : Instr), s.lock = .held →
    (i = .lockAcq ∨ (s.inited = true ∧ (i = .refresh ∨ ∃ level, i = .setBright level)) ∨
      ∃ a w h f, i = .init a w h f ∧ legalGeometry w.toNat h.toNat = true) →
    ∃ ms, exec i s = .next { s with todo := .acquire :: ms }

/-- REFRESH and SET_BRIGHT with the engine busy hold at the scheduler, lock taken and cmd_buf built,
and go on once fsm is Idle. Rules: R129, R122, R123, R124. That a hold is a step recorded in
`todo` is the model's choice (logs 3, 4); the payload cursor `-` is left open (log 27). -/
def Obligations.RefreshAndBrightWaitForTheEngine : Prop :=
  (∀ s : State, s.inited = true → ParamsOk s.openParams → s.lock = .released → s.fsm ≠ 0#3 →
    NotPreempted s →
    ∃ t : State, exec .refresh s = .next t ∧
      t = { s with lock := .held, curPage := 0#4, cmdBuf := t.cmdBuf,
                   todo := [.schedCmd s.openParams.setpageSeq.length 2#8] } ∧
      (∀ i, i < s.openParams.setpageSeq.length → t.cmdBuf[i]? = s.openParams.setpageSeq[i]?) ∧
      (∀ i, s.openParams.setpageSeq.length ≤ i → t.cmdBuf[i]? = s.cmdBuf[i]?)) ∧
  (∀ (s : State) (level : Byte), s.inited = true → ParamsOk s.openParams → s.lock = .released →
    s.fsm ≠ 0#3 → NotPreempted s →
    ∃ t : State, exec (.setBright level) s = .next t ∧
      t = { s with lock := .held, cmdBuf := t.cmdBuf,
                   todo := [.schedCmd s.openParams.brightSeq.length 4#8] } ∧
      (∀ i, i < s.openParams.brightSeq.length - 1 → t.cmdBuf[i]? = s.openParams.brightSeq[i]?) ∧
      t.cmdBuf[s.openParams.brightSeq.length - 1]? = some level ∧
      (∀ i, s.openParams.brightSeq.length ≤ i → t.cmdBuf[i]? = s.cmdBuf[i]?)) ∧
  ∀ (s : State) (h : HostTurn) (ts : List Turn) (n : Nat) (cb : Byte),
    s.turns = .host h :: ts → s.todo = [.schedCmd n cb] → ParamsOk s.openParams →
    ((n = s.openParams.setpageSeq.length ∧ cb = 2#8) ∨
     (n = s.openParams.brightSeq.length ∧ cb = 4#8)) →
    (s.fsm ≠ 0#3 → step s = .next { s with turns := ts, tick := s.tick + 1, choice := h }) ∧
    (s.fsm = 0#3 → ∃ t : State, step s = .next t ∧ t = { s with
      turns := ts, tick := s.tick + 1, choice := h
      txd := { addr := s.busAddr, pfxSpace := 1#2, pfxOff := 0#16, pfxRem := BitVec.ofNat 16 n,
               paySpace := t.txd.paySpace, payOff := t.txd.payOff, payRem := 0#16,
               cb := cb.setWidth 4, cbArg := 0#16, fastFail := true }
      fsm := 2#3, startReq := true, result := 0#32, todo := [] })

/-- REFRESH, SET_BRIGHT, the drawing commands and RD_FB are refused before the first INIT. Rules:
R28, R202. -/
def Obligations.CommandsBeforeInitAreRefused : Prop :=
  ∀ s : State, s.inited = false →
    exec .refresh s = .refused .beforeInit ∧
    (∀ level, exec (.setBright level) s = .refused .beforeInit) ∧
    (∀ p x y, exec (.putPixel p x y) s = .refused .beforeInit) ∧
    (∀ p x0 y0 x1 y1, exec (.putRect p x0 y0 x1 y1) s = .refused .beforeInit ∧
      exec (.putLine p x0 y0 x1 y1) s = .refused .beforeInit) ∧
    (∀ off, exec (.rdFb off) s = .refused .beforeInit)

/-- BUS.STOP, BUS.START and BUS.BYTE do to the wire log and the handshake bits exactly what their
rules say. Rules: R101, R102, R103. The bus agent rests on D20 and on the spec's own general
knowledge (log 12); that no step of it fails is U14 (log 13). -/
def Obligations.BusStepsDriveTheWire : Prop :=
  ∀ (s : State) (ts : List Turn), s.turns = .bus :: ts →
    (s.stopReq = true → s.txPending = false → step s = .next { s with
      turns := ts, tick := s.tick + 1,
      wireLog := s.wireLog ++ [.stop], stopReq := false, wire := .free }) ∧
    (s.startReq = true → s.stopReq = false → s.wire = .free → s.evtPending = false →
      step s = .next { s with
        turns := ts, tick := s.tick + 1,
        wireLog := s.wireLog ++ [.start], wire := .started, evtPending := true }) ∧
    (s.txPending = true → s.wire = .started → s.evtPending = false → step s = .next { s with
      turns := ts, tick := s.tick + 1,
      wireLog := s.wireLog ++ [.byte s.dataOut], txPending := false, evtPending := true })

/-- No handler arm or completion action writes the framebuffer, the geometry, the enables, the
result or the wire, or takes the lock. Rules: R47, R190, R191. -/
def Obligations.HandlerFrame : Prop :=
  ∀ (i : Instr) (s t : State), i.cls ≠ .command → exec i s = .next t →
    t = { s with fsm := t.fsm, txd := t.txd, startReq := t.startReq, stopReq := t.stopReq,
                 dataOut := t.dataOut, txPending := t.txPending, curPage := t.curPage,
                 lock := t.lock, cmdBuf := t.cmdBuf, doneLog := t.doneLog } ∧
    (t.lock = .held → s.lock = .held)

/-- What each host command, and each HOST turn that goes on with one, may change. Rules: R23, R24,
R25, R26, R29, R30, R191. -/
def Obligations.CommandFrame : Prop :=
  (∀ (i : Instr) (s t : State), i.cls = .command → exec i s = .next t →
    t = { s with fsm := t.fsm, txd := t.txd, startReq := t.startReq, irqEnable := t.irqEnable,
                 width := t.width, height := t.height, numPages := t.numPages,
                 busAddr := t.busAddr, busFreq := t.busFreq, curPage := t.curPage, lock := t.lock,
                 inited := t.inited, cmdBuf := t.cmdBuf, fb := t.fb, result := t.result,
                 todo := t.todo } ∧
    ((∀ a w h f, i ≠ .init a w h f) → t.width = s.width ∧ t.height = s.height ∧
      t.numPages = s.numPages ∧ t.busAddr = s.busAddr ∧ t.busFreq = s.busFreq ∧
      t.inited = s.inited) ∧
    ((∀ en, i ≠ .irqEn en) → t.irqEnable = s.irqEnable) ∧
    ((∀ a w h f, i ≠ .init a w h f) → (∀ p x y, i ≠ .putPixel p x y) →
      (∀ p a b c d, i ≠ .putRect p a b c d) → (∀ p a b c d, i ≠ .putLine p a b c d) →
      t.fb = s.fb) ∧
    (i ≠ .refresh → (∀ l, i ≠ .setBright l) → t.cmdBuf = s.cmdBuf) ∧
    ((∀ a w h f, i ≠ .init a w h f) → i ≠ .refresh → t.curPage = s.curPage) ∧
    ((∀ a b c d e f g h j k, i ≠ .sched a b c d e f g h j k) → (∀ a w h f, i ≠ .init a w h f) →
      i ≠ .refresh → (∀ l, i ≠ .setBright l) →
      t.txd = s.txd ∧ t.fsm = s.fsm ∧ t.startReq = s.startReq)) ∧
  ∀ (s t : State) (h : HostTurn) (ts : List Turn), s.turns = .host h :: ts → s.todo ≠ [] →
    step s = .next t →
    t = { s with turns := ts, tick := s.tick + 1, choice := h,
                 fsm := t.fsm, txd := t.txd, startReq := t.startReq,
                 width := t.width, height := t.height, numPages := t.numPages,
                 busAddr := t.busAddr, busFreq := t.busFreq, curPage := t.curPage, lock := t.lock,
                 inited := t.inited, cmdBuf := t.cmdBuf, fb := t.fb, result := t.result,
                 todo := t.todo } ∧
    ((∀ off, .zeroByte off ∉ s.todo) → (∀ x y on, .pixel x y on ∉ s.todo) → .setInited ∉ s.todo →
      t.fb = s.fb) ∧
    ((∀ i b, .cmdByte i b ∉ s.todo) → (∀ i b, .cmdPage i b ∉ s.todo) → t.cmdBuf = s.cmdBuf) ∧
    ((∀ w, .writeWidth w ∉ s.todo) → (∀ w, .writeHeight w ∉ s.todo) →
      (∀ n, .writePages n ∉ s.todo) →
      t.width = s.width ∧ t.height = s.height ∧ t.numPages = s.numPages)

/-- No instruction but the Stop and Idle arms returns fsm to Idle. Rules: R99. -/
def Obligations.NothingAbortsATransaction : Prop :=
  ∀ (i : Instr) (s t : State), exec i s = .next t → s.fsm ≠ 0#3 → t.fsm = 0#3 →
    i = .evtStop ∨ i = .evtIdle

/-- The lock is taken only by LOCK_ACQ, REFRESH, SET_BRIGHT and INIT, and released only by LOCK_REL,
INIT and the completion actions. Rules: R114, R27. -/
def Obligations.WhoTakesAndWhoReleasesTheLock : Prop :=
  ∀ (i : Instr) (s t : State), exec i s = .next t →
    (s.lock = .released → t.lock = .held →
      i = .lockAcq ∨ i = .refresh ∨ (∃ l, i = .setBright l) ∨ ∃ a w h f, i = .init a w h f) ∧
    (s.lock = .held → t.lock = .released →
      i = .lockRel ∨ i = .cbRelease ∨ i = .cbSetPage ∨ i = .cbWritePage ∨
      ((i = .evtStop ∨ i = .evtIdle) ∧ (s.txd.cb = 2#4 ∨ s.txd.cb = 3#4 ∨ s.txd.cb = 4#4)))

/-- After reset the state holds the values the spec gives, and meets every invariant. Rules: R38,
R200. -/
def Obligations.ResetStateIsAsSpecified : Prop :=
  (State.reset.fsm = 0#3 ∧
    State.reset.txd = ⟨0#7, 0#2, 0#16, 0#16, 0#2, 0#16, 0#16, 0#4, 0#16, false⟩ ∧
    State.reset.startReq = false ∧ State.reset.stopReq = false ∧ State.reset.txPending = false ∧
    State.reset.evtPending = false ∧ State.reset.wire = .free ∧ State.reset.irqEnable = false ∧
    State.reset.width = 0#16 ∧ State.reset.height = 0#16 ∧ State.reset.numPages = 0#4 ∧
    State.reset.busAddr = 0#7 ∧ State.reset.busFreq = 0#32 ∧ State.reset.curPage = 0#4 ∧
    State.reset.lock = .released ∧ State.reset.inited = false ∧ State.reset.wireLog = [] ∧
    State.reset.doneLog = [] ∧ (∀ sp off, sp = 2#2 → memRead State.reset sp off = none)) ∧
  EngineInv State.reset ∧ FbInv State.reset ∧ GeometryInv State.reset ∧ CursorInv State.reset

/-- Every step, of any agent from any state that meets it, keeps the engine invariant. Rules: R39,
R106. R39 is the spec's own inference; that it holds inside an INIT rests on log 5. -/
def Obligations.EveryStepKeepsTheEngineInvariant : Prop :=
  ∀ s t : State, EngineInv s → step s = .next t → EngineInv t

/-- In every state a run reaches from reset, whatever its turns and command words, the invariants
(a) to (g) of R39 hold. Rules: R39. R39 is the spec's own inference; that it holds inside an
INIT rests on log 5. -/
def Obligations.ReachableStatesMeetR39 : Prop :=
  (∀ s : State, EngineInv s → R39 s) ∧
  ∀ (p : OpenParams) (ts : List Turn) (ws : List CmdWord) (n : Nat) (t : State),
    Sys2Proof.core.run n { State.reset with openParams := p, turns := ts, cmdPort := ws } = .next t →
      R39 t

/-- Every step keeps the framebuffer memory canonical, and inside FB_SIZE but for the window of an
unfinished INIT. Rules: R43, R171, R121. The list form, and that the bytes a re-INIT takes away
leave the list at its `inited <- 1`, are the model's choice (log 8). -/
def Obligations.EveryStepKeepsTheFramebufferCanonical : Prop :=
  (∀ s t : State, FbInv s → step s = .next t → FbInv t) ∧
  ∀ s : State, FbInv s → s.todo = [] → s.fb.wf ∧ ∀ c ∈ s.fb, c.1 < s.width.toNat * s.numPages.toNat

/-- Every step keeps the geometry within R24's bounds, and legal between commands once INIT has run.
Rules: R24, R28, R121. The handle writes are micro-steps of their own, in the order R121 lists
them (logs 4, 5). -/
def Obligations.EveryStepKeepsTheGeometryLegal : Prop :=
  (∀ s t : State, GeometryInv s → step s = .next t → GeometryInv t) ∧
  ∀ s : State, GeometryInv s → s.todo = [] → s.inited = true → Legal s

/-- While FB does not shrink, no cursor of a transaction in flight leaves its space. Rules: R48,
R81. -/
def Obligations.CursorsStayInsideTheirSpaces : Prop :=
  ∀ s t : State, GeometryInv s → Descriptor s → CursorInv s → step s = .next t →
    s.fbSize ≤ t.fbSize → CursorInv t

/-- From a state that meets the invariants, an IRQ turn always completes: no fault, no refusal, no
waiting inside the handler. Rules: R86, R94, R189, R96. -/
def Obligations.HandlerAlwaysCompletes : Prop :=
  ∀ (s : State) (ts : List Turn), EngineInv s → GeometryInv s → CursorInv s →
    ParamsOk s.openParams → s.turns = .irq :: ts → ∃ t : State, step s = .next t

/-- In a quiescent state no IRQ or BUS step is enabled. Rules: R215. -/
def Obligations.QuiescentBlockStaysPut : Prop :=
  ∀ (s : State) (tn : Turn) (ts : List Turn), Quiescent s → s.turns = tn :: ts →
    (tn = .irq ∨ tn = .bus) →
    step s = .next { s with turns := ts, tick := s.tick + 1 } ∧
    Quiescent { s with turns := ts, tick := s.tick + 1 }

/-- A command held at its acquire with nothing in flight holds for ever. Rules: R206, R213. -/
def Obligations.LockDeadlockIsForEver : Prop :=
  ∀ (s : State) (ms : List Micro), s.todo = .acquire :: ms → s.lock = .held → s.fsm = 0#3 →
    s.startReq = false → s.stopReq = false → s.txPending = false → s.evtPending = false →
    ∃ t : State, step s = .next t ∧
      t = { s with turns := t.turns, choice := t.choice, tick := s.tick + 1 }

/-- An accepted transaction of P prefix and L payload bytes takes P + L + 2 IRQ steps and puts
exactly its bytes on the wire. Rules: R85, R97, R98, R105, R96, R128. The address byte and the
bus agent rest on the spec's own general knowledge (logs 12, 13). -/
def Obligations.TransactionRunsToItsStop : Prop :=
  ∀ (s : State) (ps ds : List Byte) (rest : List Turn),
    s.fsm = 2#3 → s.startReq = true → s.txPending = false → s.evtPending = false →
    ((s.stopReq = true ∧ s.wire = .started) ∨ (s.stopReq = false ∧ s.wire = .free)) →
    s.irqEnable = true → (s.txd.cb = 1#4 ∨ s.txd.cb = 4#4) →
    ps.length = s.txd.pfxRem.toNat → ds.length = s.txd.payRem.toNat →
    s.txd.pfxOff.toNat + ps.length ≤ 65536 → s.txd.payOff.toNat + ds.length ≤ 65536 →
    (∀ k, k < ps.length → memRead s s.txd.pfxSpace (s.txd.pfxOff.toNat + k) = ps[k]?) →
    (∀ k, k < ds.length → memRead s s.txd.paySpace (s.txd.payOff.toNat + k) = ds[k]?) →
    s.turns = pulses (ps.length + ds.length + 2) ++ .bus :: rest →
    (∃ t : State, Sys2Proof.core.run (3 * (ps.length + ds.length + 2) + 1) s = .next t ∧
      t.fsm = 0#3 ∧ t.stopReq = false ∧ t.wire = .free ∧ t.turns = rest ∧
      t.doneLog = (if s.txd.cb = 1#4 then s.doneLog ++ [s.txd.cbArg] else s.doneLog) ∧
      t.lock = (if s.txd.cb = 4#4 then .released else s.lock) ∧
      t.wireLog = s.wireLog ++ (if s.stopReq then [.stop] else []) ++
        [.start, .byte (s.txd.addr ++ 0#1)] ++ ps.map .byte ++ ds.map .byte ++ [.stop]) ∧
    (∃ u : State, Sys2Proof.core.run (3 * (ps.length + ds.length + 1) + 2) s = .next u ∧
      u.fsm ≠ 0#3 ∧ u.lock = s.lock ∧ u.doneLog = s.doneLog)

/-- One REFRESH sends 2 * num_pages transactions, page 0 to num_pages - 1, and releases the lock
only at the end. Rules: R130, R135. The address byte and the bus agent rest on the spec's own
general knowledge (logs 12, 13); the protocol bytes are any that meet D25 (log 9). -/
def Obligations.RefreshSendsEveryPageInOrder : Prop :=
  ∀ (s : State) (o : List Nat) (ws : List CmdWord) (rest : List Turn),
    Quiescent s → s.inited = true → Legal s → ParamsOk s.openParams → s.irqEnable = true →
    s.cmdPort = 0x05#128 :: ws →
    s.turns = .host { quantum := none, order := o } :: pulses (refreshIrqSteps s) ++ .bus :: rest →
    (∃ t : State, Sys2Proof.core.run (1 + 3 * refreshIrqSteps s + 1) s = .next t ∧
      t.wireLog = s.wireLog ++ refreshWire s ∧ t.curPage = s.numPages ∧ t.fsm = 0#3 ∧
      t.lock = .released ∧ t.fb = s.fb ∧ t.turns = rest) ∧
    (∀ k, 1 ≤ k → k ≤ 3 * refreshIrqSteps s →
      ∃ u : State, Sys2Proof.core.run k s = .next u ∧ u.lock = .held)
end

