-- ==== Sys2Proof/Laws/Memory.lean ====
section
/-! SUPPORT. The framebuffer memory: reads after writes, and that every operation keeps the canonical
form. -/

namespace Sys2Proof.Machine

@[simp] theorem Memory.read_nil (a : Nat) : Memory.read [] a = 0x00#8 := rfl

theorem Memory.read_cons (k : Nat) (b : Byte) (m : Memory) (a : Nat) :
    Memory.read ((k, b) :: m) a = if k = a then b else Memory.read m a := rfl

/-- An address below every listed one reads as unlisted. -/
theorem Memory.read_of_lt {m : Memory} {a : Nat} (h : ∀ c ∈ m, a < c.1) : m.read a = 0x00#8 := by
  induction m with
  | nil => rfl
  | cons c m ih =>
    obtain ⟨k, b⟩ := c
    have hk : a < k := h (k, b) (by simp)
    rw [Memory.read_cons, if_neg (by omega), ih fun d hd => h d (by simp [hd])]

/-- Canonical memories, one cell at a time. -/
theorem Memory.wf_cons {k : Nat} {b : Byte} {m : Memory} :
    Memory.wf ((k, b) :: m) ↔ (∀ c ∈ m, k < c.1) ∧ b ≠ 0x00#8 ∧ m.wf := by
  simp only [Memory.wf, List.pairwise_cons, List.mem_cons, forall_eq_or_imp]
  tauto

theorem Memory.wf_nil : Memory.wf [] := by simp [Memory.wf]

/-- The reset state's memory is canonical. -/
theorem reset_fb_wf : State.reset.fb.wf := Memory.wf_nil

/-- The addresses a write may list. -/
theorem Memory.mem_write {m : Memory} {a : Nat} {b : Byte} {c : Host.Cell}
    (h : c ∈ m.write a b) : c ∈ m ∨ c = (a, b) ∧ b ≠ 0x00#8 := by
  induction m with
  | nil =>
    by_cases hb : b = 0x00#8 <;> simp_all [Memory.write]
  | cons d m ih =>
    obtain ⟨k, e⟩ := d
    by_cases h1 : a < k
    · by_cases hb : b = 0x00#8
      · simp_all [Memory.write]
      · simp_all [Memory.write]; tauto
    · by_cases h2 : a = k
      · by_cases hb : b = 0x00#8
        · subst h2; simp_all [Memory.write]
        · subst h2; simp_all [Memory.write]; tauto
      · simp only [Memory.write, if_neg h1, if_neg h2, List.mem_cons] at h
        rcases h with h | h
        · exact .inl (by simp [h])
        · rcases ih h with h | h
          · exact .inl (by simp [h])
          · exact .inr h

/-- A write keeps the canonical form. -/
theorem Memory.wf_write {m : Memory} (hm : m.wf) (a : Nat) (b : Byte) : (m.write a b).wf := by
  induction m with
  | nil =>
    by_cases hb : b = 0x00#8 <;> simp [Memory.write, Memory.wf, hb]
  | cons d m ih =>
    obtain ⟨k, e⟩ := d
    obtain ⟨hlt, he, hwf⟩ := Memory.wf_cons.1 hm
    by_cases h1 : a < k
    · by_cases hb : b = 0x00#8
      · simpa [Memory.write, h1, hb] using hm
      · simp only [Memory.write, if_pos h1, if_neg hb]
        refine Memory.wf_cons.2 ⟨?_, hb, hm⟩
        intro c hc
        rcases List.mem_cons.1 hc with rfl | hc
        · exact h1
        · exact lt_trans h1 (hlt c hc)
    · by_cases h2 : a = k
      · subst h2
        by_cases hb : b = 0x00#8
        · simpa [Memory.write, hb] using hwf
        · simp only [Memory.write, lt_irrefl, if_false, if_true, if_neg hb]
          exact Memory.wf_cons.2 ⟨hlt, hb, hwf⟩
      · simp only [Memory.write, if_neg h1, if_neg h2]
        refine Memory.wf_cons.2 ⟨?_, he, ih hwf⟩
        intro c hc
        rcases Memory.mem_write hc with hc | ⟨rfl, -⟩
        · exact hlt c hc
        · show k < a
          omega

/-- A read after a write, in a canonical memory. -/
theorem Memory.read_write {m : Memory} (hm : m.wf) (a a' : Nat) (b : Byte) :
    (m.write a b).read a' = if a' = a then b else m.read a' := by
  induction m with
  | nil =>
    by_cases hb : b = 0x00#8
    · simp [Memory.write, hb]
    · by_cases ha : a' = a
      · subst ha; simp [Memory.write, hb, Memory.read_cons]
      · simp [Memory.write, hb, Memory.read_cons, ha, Ne.symm ha]
  | cons d m ih =>
    obtain ⟨k, e⟩ := d
    obtain ⟨hlt, he, hwf⟩ := Memory.wf_cons.1 hm
    have low : ∀ x, x ≤ k → Memory.read m x = 0x00#8 :=
      fun x hx => Memory.read_of_lt fun c hc => lt_of_le_of_lt hx (hlt c hc)
    by_cases h1 : a < k
    · by_cases hb : b = 0x00#8
      · simp only [Memory.write, if_pos h1, if_pos hb]
        by_cases ha : a' = a
        · subst ha
          rw [Memory.read_cons, if_neg (by omega), if_pos rfl, low a' (by omega), hb]
        · rw [if_neg ha]
      · simp only [Memory.write, if_pos h1, if_neg hb, Memory.read_cons]
        by_cases ha : a' = a
        · rw [if_pos ha.symm, if_pos ha]
        · rw [if_neg (Ne.symm ha), if_neg ha]
    · by_cases h2 : a = k
      · subst h2
        by_cases hb : b = 0x00#8
        · simp only [Memory.write, lt_irrefl, if_false, if_true, if_pos hb]
          by_cases ha : a' = a
          · subst ha; rw [if_pos rfl, low a' le_rfl, hb]
          · rw [if_neg ha, Memory.read_cons, if_neg (by omega)]
        · simp only [Memory.write, lt_irrefl, if_false, if_true, if_neg hb, Memory.read_cons]
          by_cases ha : a' = a
          · subst ha; simp
          · rw [if_neg (by omega), if_neg ha, if_neg (by omega)]
      · simp only [Memory.write, if_neg h1, if_neg h2, Memory.read_cons, ih hwf]
        by_cases hk : k = a'
        · rw [if_pos hk, if_pos hk, if_neg (by omega)]
        · rw [if_neg hk, if_neg hk]

/-- Truncation keeps the canonical form. -/
theorem Memory.wf_truncate {m : Memory} (hm : m.wf) (n : Nat) : (m.truncate n).wf :=
  ⟨hm.1.filter _, fun c hc => hm.2 c (List.mem_filter.1 hc).1⟩

/-- What truncation leaves. -/
theorem Memory.mem_truncate {m : Memory} {n : Nat} {c : Host.Cell} :
    c ∈ m.truncate n ↔ c ∈ m ∧ c.1 < n := by
  simp [Memory.truncate, List.mem_filter]

/-- A read after truncation. -/
theorem Memory.read_truncate (m : Memory) (n a : Nat) :
    (m.truncate n).read a = if a < n then m.read a else 0x00#8 := by
  induction m with
  | nil => simp [Memory.truncate]
  | cons d m ih =>
    obtain ⟨k, e⟩ := d
    rw [Memory.truncate] at ih ⊢
    by_cases hk : k < n
    · rw [List.filter_cons_of_pos (by simpa using hk), Memory.read_cons, Memory.read_cons, ih]
      by_cases h : k = a
      · subst h; simp [hk]
      · simp [h]
    · rw [List.filter_cons_of_neg (by simpa using hk), ih, Memory.read_cons]
      by_cases h : k = a
      · subst h; simp [hk]
      · simp [h]

/-- Every byte a canonical memory lists reads back, and is not 0x00. -/
theorem Memory.read_of_mem {m : Memory} (hm : m.wf) {c : Host.Cell} (hc : c ∈ m) :
    m.read c.1 = c.2 := by
  induction m with
  | nil => simp at hc
  | cons d m ih =>
    obtain ⟨k, e⟩ := d
    obtain ⟨hlt, -, hwf⟩ := Memory.wf_cons.1 hm
    rcases List.mem_cons.1 hc with rfl | hc
    · simp [Memory.read_cons]
    · have := hlt c hc
      rw [Memory.read_cons, if_neg (by omega), ih hwf hc]

/-- A canonical memory that reads 0x00 everywhere lists nothing. -/
theorem Memory.eq_nil_of_read {m : Memory} (hm : m.wf) (h : ∀ a, m.read a = 0x00#8) : m = [] := by
  cases m with
  | nil => rfl
  | cons c m =>
    exact absurd ((Memory.read_of_mem hm (c := c) (by simp)).symm.trans (h c.1)) (hm.2 c (by simp))

/-- Equal reads make equal canonical memories. -/
theorem Memory.ext_of_read {m n : Memory} (hm : m.wf) (hn : n.wf) (h : ∀ a, m.read a = n.read a) :
    m = n := by
  induction m generalizing n with
  | nil => exact (Memory.eq_nil_of_read hn fun a => (h a).symm.trans rfl).symm
  | cons c m ih =>
    obtain ⟨k, e⟩ := c
    obtain ⟨hlt, he, hwf⟩ := Memory.wf_cons.1 hm
    cases n with
    | nil => exact Memory.eq_nil_of_read hm h
    | cons d n =>
      obtain ⟨k', e'⟩ := d
      obtain ⟨hlt', he', hwf'⟩ := Memory.wf_cons.1 hn
      have lowm : ∀ x, x ≤ k → Memory.read m x = 0x00#8 :=
        fun x hx => Memory.read_of_lt fun c hc => lt_of_le_of_lt hx (hlt c hc)
      have lown : ∀ x, x ≤ k' → Memory.read n x = 0x00#8 :=
        fun x hx => Memory.read_of_lt fun c hc => lt_of_le_of_lt hx (hlt' c hc)
      have hk : k = k' := by
        rcases lt_trichotomy k k' with hl | hl | hl
        · have := h k
          rw [Memory.read_cons, if_pos rfl, Memory.read_cons, if_neg (by omega),
            lown k (by omega)] at this
          exact absurd this he
        · exact hl
        · have := h k'
          rw [Memory.read_cons, if_neg (by omega), Memory.read_cons, if_pos rfl,
            lowm k' (by omega)] at this
          exact absurd this.symm he'
      subst hk
      have hee : e = e' := by simpa [Memory.read_cons] using h k
      subst hee
      rw [ih hwf hwf' fun a => ?_]
      by_cases ha : k = a
      · subst ha; rw [lowm k le_rfl, lown k le_rfl]
      · simpa [Memory.read_cons, ha] using h a

end Sys2Proof.Machine
end

