-- ==== Sys2Proof/Laws/State.lean ====
section
/-! SUPPORT. What each named update does to each field of the state: one lemma per field per update. -/

namespace Sys2Proof.Machine

/-! ### State.cmdWrite -/

@[simp] theorem State.cmdWrite_fsm (s : State) (i : Nat) (b : Byte) :
    (s.cmdWrite i b).fsm = s.fsm := rfl
@[simp] theorem State.cmdWrite_txd (s : State) (i : Nat) (b : Byte) :
    (s.cmdWrite i b).txd = s.txd := rfl
@[simp] theorem State.cmdWrite_startReq (s : State) (i : Nat) (b : Byte) :
    (s.cmdWrite i b).startReq = s.startReq := rfl
@[simp] theorem State.cmdWrite_stopReq (s : State) (i : Nat) (b : Byte) :
    (s.cmdWrite i b).stopReq = s.stopReq := rfl
@[simp] theorem State.cmdWrite_dataOut (s : State) (i : Nat) (b : Byte) :
    (s.cmdWrite i b).dataOut = s.dataOut := rfl
@[simp] theorem State.cmdWrite_txPending (s : State) (i : Nat) (b : Byte) :
    (s.cmdWrite i b).txPending = s.txPending := rfl
@[simp] theorem State.cmdWrite_evtPending (s : State) (i : Nat) (b : Byte) :
    (s.cmdWrite i b).evtPending = s.evtPending := rfl
@[simp] theorem State.cmdWrite_wire (s : State) (i : Nat) (b : Byte) :
    (s.cmdWrite i b).wire = s.wire := rfl
@[simp] theorem State.cmdWrite_irqEnable (s : State) (i : Nat) (b : Byte) :
    (s.cmdWrite i b).irqEnable = s.irqEnable := rfl
@[simp] theorem State.cmdWrite_width (s : State) (i : Nat) (b : Byte) :
    (s.cmdWrite i b).width = s.width := rfl
@[simp] theorem State.cmdWrite_height (s : State) (i : Nat) (b : Byte) :
    (s.cmdWrite i b).height = s.height := rfl
@[simp] theorem State.cmdWrite_numPages (s : State) (i : Nat) (b : Byte) :
    (s.cmdWrite i b).numPages = s.numPages := rfl
@[simp] theorem State.cmdWrite_busAddr (s : State) (i : Nat) (b : Byte) :
    (s.cmdWrite i b).busAddr = s.busAddr := rfl
@[simp] theorem State.cmdWrite_busFreq (s : State) (i : Nat) (b : Byte) :
    (s.cmdWrite i b).busFreq = s.busFreq := rfl
@[simp] theorem State.cmdWrite_curPage (s : State) (i : Nat) (b : Byte) :
    (s.cmdWrite i b).curPage = s.curPage := rfl
@[simp] theorem State.cmdWrite_lock (s : State) (i : Nat) (b : Byte) :
    (s.cmdWrite i b).lock = s.lock := rfl
@[simp] theorem State.cmdWrite_inited (s : State) (i : Nat) (b : Byte) :
    (s.cmdWrite i b).inited = s.inited := rfl
@[simp] theorem State.cmdWrite_cmdBuf (s : State) (i : Nat) (b : Byte) :
    (s.cmdWrite i b).cmdBuf = s.cmdBuf.setIfInBounds i b := rfl
@[simp] theorem State.cmdWrite_fb (s : State) (i : Nat) (b : Byte) :
    (s.cmdWrite i b).fb = s.fb := rfl
@[simp] theorem State.cmdWrite_wireLog (s : State) (i : Nat) (b : Byte) :
    (s.cmdWrite i b).wireLog = s.wireLog := rfl
@[simp] theorem State.cmdWrite_doneLog (s : State) (i : Nat) (b : Byte) :
    (s.cmdWrite i b).doneLog = s.doneLog := rfl
@[simp] theorem State.cmdWrite_result (s : State) (i : Nat) (b : Byte) :
    (s.cmdWrite i b).result = s.result := rfl
@[simp] theorem State.cmdWrite_openParams (s : State) (i : Nat) (b : Byte) :
    (s.cmdWrite i b).openParams = s.openParams := rfl
@[simp] theorem State.cmdWrite_cmdPort (s : State) (i : Nat) (b : Byte) :
    (s.cmdWrite i b).cmdPort = s.cmdPort := rfl
@[simp] theorem State.cmdWrite_todo (s : State) (i : Nat) (b : Byte) :
    (s.cmdWrite i b).todo = s.todo := rfl
@[simp] theorem State.cmdWrite_choice (s : State) (i : Nat) (b : Byte) :
    (s.cmdWrite i b).choice = s.choice := rfl
@[simp] theorem State.cmdWrite_turns (s : State) (i : Nat) (b : Byte) :
    (s.cmdWrite i b).turns = s.turns := rfl
@[simp] theorem State.cmdWrite_tick (s : State) (i : Nat) (b : Byte) :
    (s.cmdWrite i b).tick = s.tick := rfl
@[simp] theorem State.cmdWrite_fbSize (s : State) (i : Nat) (b : Byte) :
    (s.cmdWrite i b).fbSize = s.fbSize := rfl

/-! ### State.fbWrite -/

@[simp] theorem State.fbWrite_fsm (s : State) (off : Nat) (b : Byte) :
    (s.fbWrite off b).fsm = s.fsm := rfl
@[simp] theorem State.fbWrite_txd (s : State) (off : Nat) (b : Byte) :
    (s.fbWrite off b).txd = s.txd := rfl
@[simp] theorem State.fbWrite_startReq (s : State) (off : Nat) (b : Byte) :
    (s.fbWrite off b).startReq = s.startReq := rfl
@[simp] theorem State.fbWrite_stopReq (s : State) (off : Nat) (b : Byte) :
    (s.fbWrite off b).stopReq = s.stopReq := rfl
@[simp] theorem State.fbWrite_dataOut (s : State) (off : Nat) (b : Byte) :
    (s.fbWrite off b).dataOut = s.dataOut := rfl
@[simp] theorem State.fbWrite_txPending (s : State) (off : Nat) (b : Byte) :
    (s.fbWrite off b).txPending = s.txPending := rfl
@[simp] theorem State.fbWrite_evtPending (s : State) (off : Nat) (b : Byte) :
    (s.fbWrite off b).evtPending = s.evtPending := rfl
@[simp] theorem State.fbWrite_wire (s : State) (off : Nat) (b : Byte) :
    (s.fbWrite off b).wire = s.wire := rfl
@[simp] theorem State.fbWrite_irqEnable (s : State) (off : Nat) (b : Byte) :
    (s.fbWrite off b).irqEnable = s.irqEnable := rfl
@[simp] theorem State.fbWrite_width (s : State) (off : Nat) (b : Byte) :
    (s.fbWrite off b).width = s.width := rfl
@[simp] theorem State.fbWrite_height (s : State) (off : Nat) (b : Byte) :
    (s.fbWrite off b).height = s.height := rfl
@[simp] theorem State.fbWrite_numPages (s : State) (off : Nat) (b : Byte) :
    (s.fbWrite off b).numPages = s.numPages := rfl
@[simp] theorem State.fbWrite_busAddr (s : State) (off : Nat) (b : Byte) :
    (s.fbWrite off b).busAddr = s.busAddr := rfl
@[simp] theorem State.fbWrite_busFreq (s : State) (off : Nat) (b : Byte) :
    (s.fbWrite off b).busFreq = s.busFreq := rfl
@[simp] theorem State.fbWrite_curPage (s : State) (off : Nat) (b : Byte) :
    (s.fbWrite off b).curPage = s.curPage := rfl
@[simp] theorem State.fbWrite_lock (s : State) (off : Nat) (b : Byte) :
    (s.fbWrite off b).lock = s.lock := rfl
@[simp] theorem State.fbWrite_inited (s : State) (off : Nat) (b : Byte) :
    (s.fbWrite off b).inited = s.inited := rfl
@[simp] theorem State.fbWrite_cmdBuf (s : State) (off : Nat) (b : Byte) :
    (s.fbWrite off b).cmdBuf = s.cmdBuf := rfl
@[simp] theorem State.fbWrite_fb (s : State) (off : Nat) (b : Byte) :
    (s.fbWrite off b).fb = s.fb.write off b := rfl
@[simp] theorem State.fbWrite_wireLog (s : State) (off : Nat) (b : Byte) :
    (s.fbWrite off b).wireLog = s.wireLog := rfl
@[simp] theorem State.fbWrite_doneLog (s : State) (off : Nat) (b : Byte) :
    (s.fbWrite off b).doneLog = s.doneLog := rfl
@[simp] theorem State.fbWrite_result (s : State) (off : Nat) (b : Byte) :
    (s.fbWrite off b).result = s.result := rfl
@[simp] theorem State.fbWrite_openParams (s : State) (off : Nat) (b : Byte) :
    (s.fbWrite off b).openParams = s.openParams := rfl
@[simp] theorem State.fbWrite_cmdPort (s : State) (off : Nat) (b : Byte) :
    (s.fbWrite off b).cmdPort = s.cmdPort := rfl
@[simp] theorem State.fbWrite_todo (s : State) (off : Nat) (b : Byte) :
    (s.fbWrite off b).todo = s.todo := rfl
@[simp] theorem State.fbWrite_choice (s : State) (off : Nat) (b : Byte) :
    (s.fbWrite off b).choice = s.choice := rfl
@[simp] theorem State.fbWrite_turns (s : State) (off : Nat) (b : Byte) :
    (s.fbWrite off b).turns = s.turns := rfl
@[simp] theorem State.fbWrite_tick (s : State) (off : Nat) (b : Byte) :
    (s.fbWrite off b).tick = s.tick := rfl
@[simp] theorem State.fbWrite_fbSize (s : State) (off : Nat) (b : Byte) :
    (s.fbWrite off b).fbSize = s.fbSize := rfl

/-! ### State.finish -/

@[simp] theorem State.finish_fsm (s : State) (c : Code) (v : BitVec 24) :
    (s.finish c v).fsm = s.fsm := rfl
@[simp] theorem State.finish_txd (s : State) (c : Code) (v : BitVec 24) :
    (s.finish c v).txd = s.txd := rfl
@[simp] theorem State.finish_startReq (s : State) (c : Code) (v : BitVec 24) :
    (s.finish c v).startReq = s.startReq := rfl
@[simp] theorem State.finish_stopReq (s : State) (c : Code) (v : BitVec 24) :
    (s.finish c v).stopReq = s.stopReq := rfl
@[simp] theorem State.finish_dataOut (s : State) (c : Code) (v : BitVec 24) :
    (s.finish c v).dataOut = s.dataOut := rfl
@[simp] theorem State.finish_txPending (s : State) (c : Code) (v : BitVec 24) :
    (s.finish c v).txPending = s.txPending := rfl
@[simp] theorem State.finish_evtPending (s : State) (c : Code) (v : BitVec 24) :
    (s.finish c v).evtPending = s.evtPending := rfl
@[simp] theorem State.finish_wire (s : State) (c : Code) (v : BitVec 24) :
    (s.finish c v).wire = s.wire := rfl
@[simp] theorem State.finish_irqEnable (s : State) (c : Code) (v : BitVec 24) :
    (s.finish c v).irqEnable = s.irqEnable := rfl
@[simp] theorem State.finish_width (s : State) (c : Code) (v : BitVec 24) :
    (s.finish c v).width = s.width := rfl
@[simp] theorem State.finish_height (s : State) (c : Code) (v : BitVec 24) :
    (s.finish c v).height = s.height := rfl
@[simp] theorem State.finish_numPages (s : State) (c : Code) (v : BitVec 24) :
    (s.finish c v).numPages = s.numPages := rfl
@[simp] theorem State.finish_busAddr (s : State) (c : Code) (v : BitVec 24) :
    (s.finish c v).busAddr = s.busAddr := rfl
@[simp] theorem State.finish_busFreq (s : State) (c : Code) (v : BitVec 24) :
    (s.finish c v).busFreq = s.busFreq := rfl
@[simp] theorem State.finish_curPage (s : State) (c : Code) (v : BitVec 24) :
    (s.finish c v).curPage = s.curPage := rfl
@[simp] theorem State.finish_lock (s : State) (c : Code) (v : BitVec 24) :
    (s.finish c v).lock = s.lock := rfl
@[simp] theorem State.finish_inited (s : State) (c : Code) (v : BitVec 24) :
    (s.finish c v).inited = s.inited := rfl
@[simp] theorem State.finish_cmdBuf (s : State) (c : Code) (v : BitVec 24) :
    (s.finish c v).cmdBuf = s.cmdBuf := rfl
@[simp] theorem State.finish_fb (s : State) (c : Code) (v : BitVec 24) :
    (s.finish c v).fb = s.fb := rfl
@[simp] theorem State.finish_wireLog (s : State) (c : Code) (v : BitVec 24) :
    (s.finish c v).wireLog = s.wireLog := rfl
@[simp] theorem State.finish_doneLog (s : State) (c : Code) (v : BitVec 24) :
    (s.finish c v).doneLog = s.doneLog := rfl
@[simp] theorem State.finish_result (s : State) (c : Code) (v : BitVec 24) :
    (s.finish c v).result = resultWord c v := rfl
@[simp] theorem State.finish_openParams (s : State) (c : Code) (v : BitVec 24) :
    (s.finish c v).openParams = s.openParams := rfl
@[simp] theorem State.finish_cmdPort (s : State) (c : Code) (v : BitVec 24) :
    (s.finish c v).cmdPort = s.cmdPort := rfl
@[simp] theorem State.finish_todo (s : State) (c : Code) (v : BitVec 24) :
    (s.finish c v).todo = [] := rfl
@[simp] theorem State.finish_choice (s : State) (c : Code) (v : BitVec 24) :
    (s.finish c v).choice = s.choice := rfl
@[simp] theorem State.finish_turns (s : State) (c : Code) (v : BitVec 24) :
    (s.finish c v).turns = s.turns := rfl
@[simp] theorem State.finish_tick (s : State) (c : Code) (v : BitVec 24) :
    (s.finish c v).tick = s.tick := rfl
@[simp] theorem State.finish_fbSize (s : State) (c : Code) (v : BitVec 24) :
    (s.finish c v).fbSize = s.fbSize := rfl

/-! ### State.setLock -/

@[simp] theorem State.setLock_fsm (s : State) (l : LockState) :
    (s.setLock l).fsm = s.fsm := rfl
@[simp] theorem State.setLock_txd (s : State) (l : LockState) :
    (s.setLock l).txd = s.txd := rfl
@[simp] theorem State.setLock_startReq (s : State) (l : LockState) :
    (s.setLock l).startReq = s.startReq := rfl
@[simp] theorem State.setLock_stopReq (s : State) (l : LockState) :
    (s.setLock l).stopReq = s.stopReq := rfl
@[simp] theorem State.setLock_dataOut (s : State) (l : LockState) :
    (s.setLock l).dataOut = s.dataOut := rfl
@[simp] theorem State.setLock_txPending (s : State) (l : LockState) :
    (s.setLock l).txPending = s.txPending := rfl
@[simp] theorem State.setLock_evtPending (s : State) (l : LockState) :
    (s.setLock l).evtPending = s.evtPending := rfl
@[simp] theorem State.setLock_wire (s : State) (l : LockState) :
    (s.setLock l).wire = s.wire := rfl
@[simp] theorem State.setLock_irqEnable (s : State) (l : LockState) :
    (s.setLock l).irqEnable = s.irqEnable := rfl
@[simp] theorem State.setLock_width (s : State) (l : LockState) :
    (s.setLock l).width = s.width := rfl
@[simp] theorem State.setLock_height (s : State) (l : LockState) :
    (s.setLock l).height = s.height := rfl
@[simp] theorem State.setLock_numPages (s : State) (l : LockState) :
    (s.setLock l).numPages = s.numPages := rfl
@[simp] theorem State.setLock_busAddr (s : State) (l : LockState) :
    (s.setLock l).busAddr = s.busAddr := rfl
@[simp] theorem State.setLock_busFreq (s : State) (l : LockState) :
    (s.setLock l).busFreq = s.busFreq := rfl
@[simp] theorem State.setLock_curPage (s : State) (l : LockState) :
    (s.setLock l).curPage = s.curPage := rfl
@[simp] theorem State.setLock_lock (s : State) (l : LockState) :
    (s.setLock l).lock = l := rfl
@[simp] theorem State.setLock_inited (s : State) (l : LockState) :
    (s.setLock l).inited = s.inited := rfl
@[simp] theorem State.setLock_cmdBuf (s : State) (l : LockState) :
    (s.setLock l).cmdBuf = s.cmdBuf := rfl
@[simp] theorem State.setLock_fb (s : State) (l : LockState) :
    (s.setLock l).fb = s.fb := rfl
@[simp] theorem State.setLock_wireLog (s : State) (l : LockState) :
    (s.setLock l).wireLog = s.wireLog := rfl
@[simp] theorem State.setLock_doneLog (s : State) (l : LockState) :
    (s.setLock l).doneLog = s.doneLog := rfl
@[simp] theorem State.setLock_result (s : State) (l : LockState) :
    (s.setLock l).result = s.result := rfl
@[simp] theorem State.setLock_openParams (s : State) (l : LockState) :
    (s.setLock l).openParams = s.openParams := rfl
@[simp] theorem State.setLock_cmdPort (s : State) (l : LockState) :
    (s.setLock l).cmdPort = s.cmdPort := rfl
@[simp] theorem State.setLock_todo (s : State) (l : LockState) :
    (s.setLock l).todo = s.todo := rfl
@[simp] theorem State.setLock_choice (s : State) (l : LockState) :
    (s.setLock l).choice = s.choice := rfl
@[simp] theorem State.setLock_turns (s : State) (l : LockState) :
    (s.setLock l).turns = s.turns := rfl
@[simp] theorem State.setLock_tick (s : State) (l : LockState) :
    (s.setLock l).tick = s.tick := rfl
@[simp] theorem State.setLock_fbSize (s : State) (l : LockState) :
    (s.setLock l).fbSize = s.fbSize := rfl

/-! ### State.takeEvent -/

@[simp] theorem State.takeEvent_fsm (s : State) :
    s.takeEvent.fsm = s.fsm := rfl
@[simp] theorem State.takeEvent_txd (s : State) :
    s.takeEvent.txd = s.txd := rfl
@[simp] theorem State.takeEvent_startReq (s : State) :
    s.takeEvent.startReq = s.startReq := rfl
@[simp] theorem State.takeEvent_stopReq (s : State) :
    s.takeEvent.stopReq = s.stopReq := rfl
@[simp] theorem State.takeEvent_dataOut (s : State) :
    s.takeEvent.dataOut = s.dataOut := rfl
@[simp] theorem State.takeEvent_txPending (s : State) :
    s.takeEvent.txPending = s.txPending := rfl
@[simp] theorem State.takeEvent_evtPending (s : State) :
    s.takeEvent.evtPending = false := rfl
@[simp] theorem State.takeEvent_wire (s : State) :
    s.takeEvent.wire = s.wire := rfl
@[simp] theorem State.takeEvent_irqEnable (s : State) :
    s.takeEvent.irqEnable = s.irqEnable := rfl
@[simp] theorem State.takeEvent_width (s : State) :
    s.takeEvent.width = s.width := rfl
@[simp] theorem State.takeEvent_height (s : State) :
    s.takeEvent.height = s.height := rfl
@[simp] theorem State.takeEvent_numPages (s : State) :
    s.takeEvent.numPages = s.numPages := rfl
@[simp] theorem State.takeEvent_busAddr (s : State) :
    s.takeEvent.busAddr = s.busAddr := rfl
@[simp] theorem State.takeEvent_busFreq (s : State) :
    s.takeEvent.busFreq = s.busFreq := rfl
@[simp] theorem State.takeEvent_curPage (s : State) :
    s.takeEvent.curPage = s.curPage := rfl
@[simp] theorem State.takeEvent_lock (s : State) :
    s.takeEvent.lock = s.lock := rfl
@[simp] theorem State.takeEvent_inited (s : State) :
    s.takeEvent.inited = s.inited := rfl
@[simp] theorem State.takeEvent_cmdBuf (s : State) :
    s.takeEvent.cmdBuf = s.cmdBuf := rfl
@[simp] theorem State.takeEvent_fb (s : State) :
    s.takeEvent.fb = s.fb := rfl
@[simp] theorem State.takeEvent_wireLog (s : State) :
    s.takeEvent.wireLog = s.wireLog := rfl
@[simp] theorem State.takeEvent_doneLog (s : State) :
    s.takeEvent.doneLog = s.doneLog := rfl
@[simp] theorem State.takeEvent_result (s : State) :
    s.takeEvent.result = s.result := rfl
@[simp] theorem State.takeEvent_openParams (s : State) :
    s.takeEvent.openParams = s.openParams := rfl
@[simp] theorem State.takeEvent_cmdPort (s : State) :
    s.takeEvent.cmdPort = s.cmdPort := rfl
@[simp] theorem State.takeEvent_todo (s : State) :
    s.takeEvent.todo = s.todo := rfl
@[simp] theorem State.takeEvent_choice (s : State) :
    s.takeEvent.choice = s.choice := rfl
@[simp] theorem State.takeEvent_turns (s : State) :
    s.takeEvent.turns = s.turns := rfl
@[simp] theorem State.takeEvent_tick (s : State) :
    s.takeEvent.tick = s.tick := rfl
@[simp] theorem State.takeEvent_fbSize (s : State) :
    s.takeEvent.fbSize = s.fbSize := rfl

/-! ### State.load -/

@[simp] theorem State.load_fsm (s : State) (b : Byte) :
    (s.load b).fsm = s.fsm := rfl
@[simp] theorem State.load_txd (s : State) (b : Byte) :
    (s.load b).txd = s.txd := rfl
@[simp] theorem State.load_startReq (s : State) (b : Byte) :
    (s.load b).startReq = s.startReq := rfl
@[simp] theorem State.load_stopReq (s : State) (b : Byte) :
    (s.load b).stopReq = s.stopReq := rfl
@[simp] theorem State.load_dataOut (s : State) (b : Byte) :
    (s.load b).dataOut = b := rfl
@[simp] theorem State.load_txPending (s : State) (b : Byte) :
    (s.load b).txPending = true := rfl
@[simp] theorem State.load_evtPending (s : State) (b : Byte) :
    (s.load b).evtPending = s.evtPending := rfl
@[simp] theorem State.load_wire (s : State) (b : Byte) :
    (s.load b).wire = s.wire := rfl
@[simp] theorem State.load_irqEnable (s : State) (b : Byte) :
    (s.load b).irqEnable = s.irqEnable := rfl
@[simp] theorem State.load_width (s : State) (b : Byte) :
    (s.load b).width = s.width := rfl
@[simp] theorem State.load_height (s : State) (b : Byte) :
    (s.load b).height = s.height := rfl
@[simp] theorem State.load_numPages (s : State) (b : Byte) :
    (s.load b).numPages = s.numPages := rfl
@[simp] theorem State.load_busAddr (s : State) (b : Byte) :
    (s.load b).busAddr = s.busAddr := rfl
@[simp] theorem State.load_busFreq (s : State) (b : Byte) :
    (s.load b).busFreq = s.busFreq := rfl
@[simp] theorem State.load_curPage (s : State) (b : Byte) :
    (s.load b).curPage = s.curPage := rfl
@[simp] theorem State.load_lock (s : State) (b : Byte) :
    (s.load b).lock = s.lock := rfl
@[simp] theorem State.load_inited (s : State) (b : Byte) :
    (s.load b).inited = s.inited := rfl
@[simp] theorem State.load_cmdBuf (s : State) (b : Byte) :
    (s.load b).cmdBuf = s.cmdBuf := rfl
@[simp] theorem State.load_fb (s : State) (b : Byte) :
    (s.load b).fb = s.fb := rfl
@[simp] theorem State.load_wireLog (s : State) (b : Byte) :
    (s.load b).wireLog = s.wireLog := rfl
@[simp] theorem State.load_doneLog (s : State) (b : Byte) :
    (s.load b).doneLog = s.doneLog := rfl
@[simp] theorem State.load_result (s : State) (b : Byte) :
    (s.load b).result = s.result := rfl
@[simp] theorem State.load_openParams (s : State) (b : Byte) :
    (s.load b).openParams = s.openParams := rfl
@[simp] theorem State.load_cmdPort (s : State) (b : Byte) :
    (s.load b).cmdPort = s.cmdPort := rfl
@[simp] theorem State.load_todo (s : State) (b : Byte) :
    (s.load b).todo = s.todo := rfl
@[simp] theorem State.load_choice (s : State) (b : Byte) :
    (s.load b).choice = s.choice := rfl
@[simp] theorem State.load_turns (s : State) (b : Byte) :
    (s.load b).turns = s.turns := rfl
@[simp] theorem State.load_tick (s : State) (b : Byte) :
    (s.load b).tick = s.tick := rfl
@[simp] theorem State.load_fbSize (s : State) (b : Byte) :
    (s.load b).fbSize = s.fbSize := rfl

/-! ### State.setFsm -/

@[simp] theorem State.setFsm_fsm (s : State) (c : BitVec 3) :
    (s.setFsm c).fsm = c := rfl
@[simp] theorem State.setFsm_txd (s : State) (c : BitVec 3) :
    (s.setFsm c).txd = s.txd := rfl
@[simp] theorem State.setFsm_startReq (s : State) (c : BitVec 3) :
    (s.setFsm c).startReq = s.startReq := rfl
@[simp] theorem State.setFsm_stopReq (s : State) (c : BitVec 3) :
    (s.setFsm c).stopReq = s.stopReq := rfl
@[simp] theorem State.setFsm_dataOut (s : State) (c : BitVec 3) :
    (s.setFsm c).dataOut = s.dataOut := rfl
@[simp] theorem State.setFsm_txPending (s : State) (c : BitVec 3) :
    (s.setFsm c).txPending = s.txPending := rfl
@[simp] theorem State.setFsm_evtPending (s : State) (c : BitVec 3) :
    (s.setFsm c).evtPending = s.evtPending := rfl
@[simp] theorem State.setFsm_wire (s : State) (c : BitVec 3) :
    (s.setFsm c).wire = s.wire := rfl
@[simp] theorem State.setFsm_irqEnable (s : State) (c : BitVec 3) :
    (s.setFsm c).irqEnable = s.irqEnable := rfl
@[simp] theorem State.setFsm_width (s : State) (c : BitVec 3) :
    (s.setFsm c).width = s.width := rfl
@[simp] theorem State.setFsm_height (s : State) (c : BitVec 3) :
    (s.setFsm c).height = s.height := rfl
@[simp] theorem State.setFsm_numPages (s : State) (c : BitVec 3) :
    (s.setFsm c).numPages = s.numPages := rfl
@[simp] theorem State.setFsm_busAddr (s : State) (c : BitVec 3) :
    (s.setFsm c).busAddr = s.busAddr := rfl
@[simp] theorem State.setFsm_busFreq (s : State) (c : BitVec 3) :
    (s.setFsm c).busFreq = s.busFreq := rfl
@[simp] theorem State.setFsm_curPage (s : State) (c : BitVec 3) :
    (s.setFsm c).curPage = s.curPage := rfl
@[simp] theorem State.setFsm_lock (s : State) (c : BitVec 3) :
    (s.setFsm c).lock = s.lock := rfl
@[simp] theorem State.setFsm_inited (s : State) (c : BitVec 3) :
    (s.setFsm c).inited = s.inited := rfl
@[simp] theorem State.setFsm_cmdBuf (s : State) (c : BitVec 3) :
    (s.setFsm c).cmdBuf = s.cmdBuf := rfl
@[simp] theorem State.setFsm_fb (s : State) (c : BitVec 3) :
    (s.setFsm c).fb = s.fb := rfl
@[simp] theorem State.setFsm_wireLog (s : State) (c : BitVec 3) :
    (s.setFsm c).wireLog = s.wireLog := rfl
@[simp] theorem State.setFsm_doneLog (s : State) (c : BitVec 3) :
    (s.setFsm c).doneLog = s.doneLog := rfl
@[simp] theorem State.setFsm_result (s : State) (c : BitVec 3) :
    (s.setFsm c).result = s.result := rfl
@[simp] theorem State.setFsm_openParams (s : State) (c : BitVec 3) :
    (s.setFsm c).openParams = s.openParams := rfl
@[simp] theorem State.setFsm_cmdPort (s : State) (c : BitVec 3) :
    (s.setFsm c).cmdPort = s.cmdPort := rfl
@[simp] theorem State.setFsm_todo (s : State) (c : BitVec 3) :
    (s.setFsm c).todo = s.todo := rfl
@[simp] theorem State.setFsm_choice (s : State) (c : BitVec 3) :
    (s.setFsm c).choice = s.choice := rfl
@[simp] theorem State.setFsm_turns (s : State) (c : BitVec 3) :
    (s.setFsm c).turns = s.turns := rfl
@[simp] theorem State.setFsm_tick (s : State) (c : BitVec 3) :
    (s.setFsm c).tick = s.tick := rfl
@[simp] theorem State.setFsm_fbSize (s : State) (c : BitVec 3) :
    (s.setFsm c).fbSize = s.fbSize := rfl

/-! ### State.start -/

@[simp] theorem State.start_fsm (s : State) (r : SchedReq) :
    (s.start r).fsm = fsmSlaveAddress := rfl
@[simp] theorem State.start_txd (s : State) (r : SchedReq) :
    (s.start r).txd = txdOf r s.tick := rfl
@[simp] theorem State.start_startReq (s : State) (r : SchedReq) :
    (s.start r).startReq = true := rfl
@[simp] theorem State.start_stopReq (s : State) (r : SchedReq) :
    (s.start r).stopReq = s.stopReq := rfl
@[simp] theorem State.start_dataOut (s : State) (r : SchedReq) :
    (s.start r).dataOut = s.dataOut := rfl
@[simp] theorem State.start_txPending (s : State) (r : SchedReq) :
    (s.start r).txPending = s.txPending := rfl
@[simp] theorem State.start_evtPending (s : State) (r : SchedReq) :
    (s.start r).evtPending = s.evtPending := rfl
@[simp] theorem State.start_wire (s : State) (r : SchedReq) :
    (s.start r).wire = s.wire := rfl
@[simp] theorem State.start_irqEnable (s : State) (r : SchedReq) :
    (s.start r).irqEnable = s.irqEnable := rfl
@[simp] theorem State.start_width (s : State) (r : SchedReq) :
    (s.start r).width = s.width := rfl
@[simp] theorem State.start_height (s : State) (r : SchedReq) :
    (s.start r).height = s.height := rfl
@[simp] theorem State.start_numPages (s : State) (r : SchedReq) :
    (s.start r).numPages = s.numPages := rfl
@[simp] theorem State.start_busAddr (s : State) (r : SchedReq) :
    (s.start r).busAddr = s.busAddr := rfl
@[simp] theorem State.start_busFreq (s : State) (r : SchedReq) :
    (s.start r).busFreq = s.busFreq := rfl
@[simp] theorem State.start_curPage (s : State) (r : SchedReq) :
    (s.start r).curPage = s.curPage := rfl
@[simp] theorem State.start_lock (s : State) (r : SchedReq) :
    (s.start r).lock = s.lock := rfl
@[simp] theorem State.start_inited (s : State) (r : SchedReq) :
    (s.start r).inited = s.inited := rfl
@[simp] theorem State.start_cmdBuf (s : State) (r : SchedReq) :
    (s.start r).cmdBuf = s.cmdBuf := rfl
@[simp] theorem State.start_fb (s : State) (r : SchedReq) :
    (s.start r).fb = s.fb := rfl
@[simp] theorem State.start_wireLog (s : State) (r : SchedReq) :
    (s.start r).wireLog = s.wireLog := rfl
@[simp] theorem State.start_doneLog (s : State) (r : SchedReq) :
    (s.start r).doneLog = s.doneLog := rfl
@[simp] theorem State.start_result (s : State) (r : SchedReq) :
    (s.start r).result = s.result := rfl
@[simp] theorem State.start_openParams (s : State) (r : SchedReq) :
    (s.start r).openParams = s.openParams := rfl
@[simp] theorem State.start_cmdPort (s : State) (r : SchedReq) :
    (s.start r).cmdPort = s.cmdPort := rfl
@[simp] theorem State.start_todo (s : State) (r : SchedReq) :
    (s.start r).todo = s.todo := rfl
@[simp] theorem State.start_choice (s : State) (r : SchedReq) :
    (s.start r).choice = s.choice := rfl
@[simp] theorem State.start_turns (s : State) (r : SchedReq) :
    (s.start r).turns = s.turns := rfl
@[simp] theorem State.start_tick (s : State) (r : SchedReq) :
    (s.start r).tick = s.tick := rfl
@[simp] theorem State.start_fbSize (s : State) (r : SchedReq) :
    (s.start r).fbSize = s.fbSize := rfl

/-! ### State.setWidth -/

@[simp] theorem State.setWidth_fsm (s : State) (w : BitVec 16) :
    (s.setWidth w).fsm = s.fsm := rfl
@[simp] theorem State.setWidth_txd (s : State) (w : BitVec 16) :
    (s.setWidth w).txd = s.txd := rfl
@[simp] theorem State.setWidth_startReq (s : State) (w : BitVec 16) :
    (s.setWidth w).startReq = s.startReq := rfl
@[simp] theorem State.setWidth_stopReq (s : State) (w : BitVec 16) :
    (s.setWidth w).stopReq = s.stopReq := rfl
@[simp] theorem State.setWidth_dataOut (s : State) (w : BitVec 16) :
    (s.setWidth w).dataOut = s.dataOut := rfl
@[simp] theorem State.setWidth_txPending (s : State) (w : BitVec 16) :
    (s.setWidth w).txPending = s.txPending := rfl
@[simp] theorem State.setWidth_evtPending (s : State) (w : BitVec 16) :
    (s.setWidth w).evtPending = s.evtPending := rfl
@[simp] theorem State.setWidth_wire (s : State) (w : BitVec 16) :
    (s.setWidth w).wire = s.wire := rfl
@[simp] theorem State.setWidth_irqEnable (s : State) (w : BitVec 16) :
    (s.setWidth w).irqEnable = s.irqEnable := rfl
@[simp] theorem State.setWidth_width (s : State) (w : BitVec 16) :
    (s.setWidth w).width = w := rfl
@[simp] theorem State.setWidth_height (s : State) (w : BitVec 16) :
    (s.setWidth w).height = s.height := rfl
@[simp] theorem State.setWidth_numPages (s : State) (w : BitVec 16) :
    (s.setWidth w).numPages = s.numPages := rfl
@[simp] theorem State.setWidth_busAddr (s : State) (w : BitVec 16) :
    (s.setWidth w).busAddr = s.busAddr := rfl
@[simp] theorem State.setWidth_busFreq (s : State) (w : BitVec 16) :
    (s.setWidth w).busFreq = s.busFreq := rfl
@[simp] theorem State.setWidth_curPage (s : State) (w : BitVec 16) :
    (s.setWidth w).curPage = s.curPage := rfl
@[simp] theorem State.setWidth_lock (s : State) (w : BitVec 16) :
    (s.setWidth w).lock = s.lock := rfl
@[simp] theorem State.setWidth_inited (s : State) (w : BitVec 16) :
    (s.setWidth w).inited = s.inited := rfl
@[simp] theorem State.setWidth_cmdBuf (s : State) (w : BitVec 16) :
    (s.setWidth w).cmdBuf = s.cmdBuf := rfl
@[simp] theorem State.setWidth_fb (s : State) (w : BitVec 16) :
    (s.setWidth w).fb = s.fb := rfl
@[simp] theorem State.setWidth_wireLog (s : State) (w : BitVec 16) :
    (s.setWidth w).wireLog = s.wireLog := rfl
@[simp] theorem State.setWidth_doneLog (s : State) (w : BitVec 16) :
    (s.setWidth w).doneLog = s.doneLog := rfl
@[simp] theorem State.setWidth_result (s : State) (w : BitVec 16) :
    (s.setWidth w).result = s.result := rfl
@[simp] theorem State.setWidth_openParams (s : State) (w : BitVec 16) :
    (s.setWidth w).openParams = s.openParams := rfl
@[simp] theorem State.setWidth_cmdPort (s : State) (w : BitVec 16) :
    (s.setWidth w).cmdPort = s.cmdPort := rfl
@[simp] theorem State.setWidth_todo (s : State) (w : BitVec 16) :
    (s.setWidth w).todo = s.todo := rfl
@[simp] theorem State.setWidth_choice (s : State) (w : BitVec 16) :
    (s.setWidth w).choice = s.choice := rfl
@[simp] theorem State.setWidth_turns (s : State) (w : BitVec 16) :
    (s.setWidth w).turns = s.turns := rfl
@[simp] theorem State.setWidth_tick (s : State) (w : BitVec 16) :
    (s.setWidth w).tick = s.tick := rfl
@[simp] theorem State.setWidth_fbSize (s : State) (w : BitVec 16) :
    (s.setWidth w).fbSize = w.toNat * s.numPages.toNat := rfl

/-! ### State.setHeight -/

@[simp] theorem State.setHeight_fsm (s : State) (h : BitVec 16) :
    (s.setHeight h).fsm = s.fsm := rfl
@[simp] theorem State.setHeight_txd (s : State) (h : BitVec 16) :
    (s.setHeight h).txd = s.txd := rfl
@[simp] theorem State.setHeight_startReq (s : State) (h : BitVec 16) :
    (s.setHeight h).startReq = s.startReq := rfl
@[simp] theorem State.setHeight_stopReq (s : State) (h : BitVec 16) :
    (s.setHeight h).stopReq = s.stopReq := rfl
@[simp] theorem State.setHeight_dataOut (s : State) (h : BitVec 16) :
    (s.setHeight h).dataOut = s.dataOut := rfl
@[simp] theorem State.setHeight_txPending (s : State) (h : BitVec 16) :
    (s.setHeight h).txPending = s.txPending := rfl
@[simp] theorem State.setHeight_evtPending (s : State) (h : BitVec 16) :
    (s.setHeight h).evtPending = s.evtPending := rfl
@[simp] theorem State.setHeight_wire (s : State) (h : BitVec 16) :
    (s.setHeight h).wire = s.wire := rfl
@[simp] theorem State.setHeight_irqEnable (s : State) (h : BitVec 16) :
    (s.setHeight h).irqEnable = s.irqEnable := rfl
@[simp] theorem State.setHeight_width (s : State) (h : BitVec 16) :
    (s.setHeight h).width = s.width := rfl
@[simp] theorem State.setHeight_height (s : State) (h : BitVec 16) :
    (s.setHeight h).height = h := rfl
@[simp] theorem State.setHeight_numPages (s : State) (h : BitVec 16) :
    (s.setHeight h).numPages = s.numPages := rfl
@[simp] theorem State.setHeight_busAddr (s : State) (h : BitVec 16) :
    (s.setHeight h).busAddr = s.busAddr := rfl
@[simp] theorem State.setHeight_busFreq (s : State) (h : BitVec 16) :
    (s.setHeight h).busFreq = s.busFreq := rfl
@[simp] theorem State.setHeight_curPage (s : State) (h : BitVec 16) :
    (s.setHeight h).curPage = s.curPage := rfl
@[simp] theorem State.setHeight_lock (s : State) (h : BitVec 16) :
    (s.setHeight h).lock = s.lock := rfl
@[simp] theorem State.setHeight_inited (s : State) (h : BitVec 16) :
    (s.setHeight h).inited = s.inited := rfl
@[simp] theorem State.setHeight_cmdBuf (s : State) (h : BitVec 16) :
    (s.setHeight h).cmdBuf = s.cmdBuf := rfl
@[simp] theorem State.setHeight_fb (s : State) (h : BitVec 16) :
    (s.setHeight h).fb = s.fb := rfl
@[simp] theorem State.setHeight_wireLog (s : State) (h : BitVec 16) :
    (s.setHeight h).wireLog = s.wireLog := rfl
@[simp] theorem State.setHeight_doneLog (s : State) (h : BitVec 16) :
    (s.setHeight h).doneLog = s.doneLog := rfl
@[simp] theorem State.setHeight_result (s : State) (h : BitVec 16) :
    (s.setHeight h).result = s.result := rfl
@[simp] theorem State.setHeight_openParams (s : State) (h : BitVec 16) :
    (s.setHeight h).openParams = s.openParams := rfl
@[simp] theorem State.setHeight_cmdPort (s : State) (h : BitVec 16) :
    (s.setHeight h).cmdPort = s.cmdPort := rfl
@[simp] theorem State.setHeight_todo (s : State) (h : BitVec 16) :
    (s.setHeight h).todo = s.todo := rfl
@[simp] theorem State.setHeight_choice (s : State) (h : BitVec 16) :
    (s.setHeight h).choice = s.choice := rfl
@[simp] theorem State.setHeight_turns (s : State) (h : BitVec 16) :
    (s.setHeight h).turns = s.turns := rfl
@[simp] theorem State.setHeight_tick (s : State) (h : BitVec 16) :
    (s.setHeight h).tick = s.tick := rfl
@[simp] theorem State.setHeight_fbSize (s : State) (h : BitVec 16) :
    (s.setHeight h).fbSize = s.fbSize := rfl

/-! ### State.setPages -/

@[simp] theorem State.setPages_fsm (s : State) (n : BitVec 4) :
    (s.setPages n).fsm = s.fsm := rfl
@[simp] theorem State.setPages_txd (s : State) (n : BitVec 4) :
    (s.setPages n).txd = s.txd := rfl
@[simp] theorem State.setPages_startReq (s : State) (n : BitVec 4) :
    (s.setPages n).startReq = s.startReq := rfl
@[simp] theorem State.setPages_stopReq (s : State) (n : BitVec 4) :
    (s.setPages n).stopReq = s.stopReq := rfl
@[simp] theorem State.setPages_dataOut (s : State) (n : BitVec 4) :
    (s.setPages n).dataOut = s.dataOut := rfl
@[simp] theorem State.setPages_txPending (s : State) (n : BitVec 4) :
    (s.setPages n).txPending = s.txPending := rfl
@[simp] theorem State.setPages_evtPending (s : State) (n : BitVec 4) :
    (s.setPages n).evtPending = s.evtPending := rfl
@[simp] theorem State.setPages_wire (s : State) (n : BitVec 4) :
    (s.setPages n).wire = s.wire := rfl
@[simp] theorem State.setPages_irqEnable (s : State) (n : BitVec 4) :
    (s.setPages n).irqEnable = s.irqEnable := rfl
@[simp] theorem State.setPages_width (s : State) (n : BitVec 4) :
    (s.setPages n).width = s.width := rfl
@[simp] theorem State.setPages_height (s : State) (n : BitVec 4) :
    (s.setPages n).height = s.height := rfl
@[simp] theorem State.setPages_numPages (s : State) (n : BitVec 4) :
    (s.setPages n).numPages = n := rfl
@[simp] theorem State.setPages_busAddr (s : State) (n : BitVec 4) :
    (s.setPages n).busAddr = s.busAddr := rfl
@[simp] theorem State.setPages_busFreq (s : State) (n : BitVec 4) :
    (s.setPages n).busFreq = s.busFreq := rfl
@[simp] theorem State.setPages_curPage (s : State) (n : BitVec 4) :
    (s.setPages n).curPage = if n.toNat < s.curPage.toNat then 0#4 else s.curPage := rfl
@[simp] theorem State.setPages_lock (s : State) (n : BitVec 4) :
    (s.setPages n).lock = s.lock := rfl
@[simp] theorem State.setPages_inited (s : State) (n : BitVec 4) :
    (s.setPages n).inited = s.inited := rfl
@[simp] theorem State.setPages_cmdBuf (s : State) (n : BitVec 4) :
    (s.setPages n).cmdBuf = s.cmdBuf := rfl
@[simp] theorem State.setPages_fb (s : State) (n : BitVec 4) :
    (s.setPages n).fb = s.fb := rfl
@[simp] theorem State.setPages_wireLog (s : State) (n : BitVec 4) :
    (s.setPages n).wireLog = s.wireLog := rfl
@[simp] theorem State.setPages_doneLog (s : State) (n : BitVec 4) :
    (s.setPages n).doneLog = s.doneLog := rfl
@[simp] theorem State.setPages_result (s : State) (n : BitVec 4) :
    (s.setPages n).result = s.result := rfl
@[simp] theorem State.setPages_openParams (s : State) (n : BitVec 4) :
    (s.setPages n).openParams = s.openParams := rfl
@[simp] theorem State.setPages_cmdPort (s : State) (n : BitVec 4) :
    (s.setPages n).cmdPort = s.cmdPort := rfl
@[simp] theorem State.setPages_todo (s : State) (n : BitVec 4) :
    (s.setPages n).todo = s.todo := rfl
@[simp] theorem State.setPages_choice (s : State) (n : BitVec 4) :
    (s.setPages n).choice = s.choice := rfl
@[simp] theorem State.setPages_turns (s : State) (n : BitVec 4) :
    (s.setPages n).turns = s.turns := rfl
@[simp] theorem State.setPages_tick (s : State) (n : BitVec 4) :
    (s.setPages n).tick = s.tick := rfl
@[simp] theorem State.setPages_fbSize (s : State) (n : BitVec 4) :
    (s.setPages n).fbSize = s.width.toNat * n.toNat := rfl

/-! ### State.setBusAddr -/

@[simp] theorem State.setBusAddr_fsm (s : State) (a : BitVec 7) :
    (s.setBusAddr a).fsm = s.fsm := rfl
@[simp] theorem State.setBusAddr_txd (s : State) (a : BitVec 7) :
    (s.setBusAddr a).txd = s.txd := rfl
@[simp] theorem State.setBusAddr_startReq (s : State) (a : BitVec 7) :
    (s.setBusAddr a).startReq = s.startReq := rfl
@[simp] theorem State.setBusAddr_stopReq (s : State) (a : BitVec 7) :
    (s.setBusAddr a).stopReq = s.stopReq := rfl
@[simp] theorem State.setBusAddr_dataOut (s : State) (a : BitVec 7) :
    (s.setBusAddr a).dataOut = s.dataOut := rfl
@[simp] theorem State.setBusAddr_txPending (s : State) (a : BitVec 7) :
    (s.setBusAddr a).txPending = s.txPending := rfl
@[simp] theorem State.setBusAddr_evtPending (s : State) (a : BitVec 7) :
    (s.setBusAddr a).evtPending = s.evtPending := rfl
@[simp] theorem State.setBusAddr_wire (s : State) (a : BitVec 7) :
    (s.setBusAddr a).wire = s.wire := rfl
@[simp] theorem State.setBusAddr_irqEnable (s : State) (a : BitVec 7) :
    (s.setBusAddr a).irqEnable = s.irqEnable := rfl
@[simp] theorem State.setBusAddr_width (s : State) (a : BitVec 7) :
    (s.setBusAddr a).width = s.width := rfl
@[simp] theorem State.setBusAddr_height (s : State) (a : BitVec 7) :
    (s.setBusAddr a).height = s.height := rfl
@[simp] theorem State.setBusAddr_numPages (s : State) (a : BitVec 7) :
    (s.setBusAddr a).numPages = s.numPages := rfl
@[simp] theorem State.setBusAddr_busAddr (s : State) (a : BitVec 7) :
    (s.setBusAddr a).busAddr = a := rfl
@[simp] theorem State.setBusAddr_busFreq (s : State) (a : BitVec 7) :
    (s.setBusAddr a).busFreq = s.busFreq := rfl
@[simp] theorem State.setBusAddr_curPage (s : State) (a : BitVec 7) :
    (s.setBusAddr a).curPage = s.curPage := rfl
@[simp] theorem State.setBusAddr_lock (s : State) (a : BitVec 7) :
    (s.setBusAddr a).lock = s.lock := rfl
@[simp] theorem State.setBusAddr_inited (s : State) (a : BitVec 7) :
    (s.setBusAddr a).inited = s.inited := rfl
@[simp] theorem State.setBusAddr_cmdBuf (s : State) (a : BitVec 7) :
    (s.setBusAddr a).cmdBuf = s.cmdBuf := rfl
@[simp] theorem State.setBusAddr_fb (s : State) (a : BitVec 7) :
    (s.setBusAddr a).fb = s.fb := rfl
@[simp] theorem State.setBusAddr_wireLog (s : State) (a : BitVec 7) :
    (s.setBusAddr a).wireLog = s.wireLog := rfl
@[simp] theorem State.setBusAddr_doneLog (s : State) (a : BitVec 7) :
    (s.setBusAddr a).doneLog = s.doneLog := rfl
@[simp] theorem State.setBusAddr_result (s : State) (a : BitVec 7) :
    (s.setBusAddr a).result = s.result := rfl
@[simp] theorem State.setBusAddr_openParams (s : State) (a : BitVec 7) :
    (s.setBusAddr a).openParams = s.openParams := rfl
@[simp] theorem State.setBusAddr_cmdPort (s : State) (a : BitVec 7) :
    (s.setBusAddr a).cmdPort = s.cmdPort := rfl
@[simp] theorem State.setBusAddr_todo (s : State) (a : BitVec 7) :
    (s.setBusAddr a).todo = s.todo := rfl
@[simp] theorem State.setBusAddr_choice (s : State) (a : BitVec 7) :
    (s.setBusAddr a).choice = s.choice := rfl
@[simp] theorem State.setBusAddr_turns (s : State) (a : BitVec 7) :
    (s.setBusAddr a).turns = s.turns := rfl
@[simp] theorem State.setBusAddr_tick (s : State) (a : BitVec 7) :
    (s.setBusAddr a).tick = s.tick := rfl
@[simp] theorem State.setBusAddr_fbSize (s : State) (a : BitVec 7) :
    (s.setBusAddr a).fbSize = s.fbSize := rfl

/-! ### State.setBusFreq -/

@[simp] theorem State.setBusFreq_fsm (s : State) (f : BitVec 32) :
    (s.setBusFreq f).fsm = s.fsm := rfl
@[simp] theorem State.setBusFreq_txd (s : State) (f : BitVec 32) :
    (s.setBusFreq f).txd = s.txd := rfl
@[simp] theorem State.setBusFreq_startReq (s : State) (f : BitVec 32) :
    (s.setBusFreq f).startReq = s.startReq := rfl
@[simp] theorem State.setBusFreq_stopReq (s : State) (f : BitVec 32) :
    (s.setBusFreq f).stopReq = s.stopReq := rfl
@[simp] theorem State.setBusFreq_dataOut (s : State) (f : BitVec 32) :
    (s.setBusFreq f).dataOut = s.dataOut := rfl
@[simp] theorem State.setBusFreq_txPending (s : State) (f : BitVec 32) :
    (s.setBusFreq f).txPending = s.txPending := rfl
@[simp] theorem State.setBusFreq_evtPending (s : State) (f : BitVec 32) :
    (s.setBusFreq f).evtPending = s.evtPending := rfl
@[simp] theorem State.setBusFreq_wire (s : State) (f : BitVec 32) :
    (s.setBusFreq f).wire = s.wire := rfl
@[simp] theorem State.setBusFreq_irqEnable (s : State) (f : BitVec 32) :
    (s.setBusFreq f).irqEnable = s.irqEnable := rfl
@[simp] theorem State.setBusFreq_width (s : State) (f : BitVec 32) :
    (s.setBusFreq f).width = s.width := rfl
@[simp] theorem State.setBusFreq_height (s : State) (f : BitVec 32) :
    (s.setBusFreq f).height = s.height := rfl
@[simp] theorem State.setBusFreq_numPages (s : State) (f : BitVec 32) :
    (s.setBusFreq f).numPages = s.numPages := rfl
@[simp] theorem State.setBusFreq_busAddr (s : State) (f : BitVec 32) :
    (s.setBusFreq f).busAddr = s.busAddr := rfl
@[simp] theorem State.setBusFreq_busFreq (s : State) (f : BitVec 32) :
    (s.setBusFreq f).busFreq = f := rfl
@[simp] theorem State.setBusFreq_curPage (s : State) (f : BitVec 32) :
    (s.setBusFreq f).curPage = s.curPage := rfl
@[simp] theorem State.setBusFreq_lock (s : State) (f : BitVec 32) :
    (s.setBusFreq f).lock = s.lock := rfl
@[simp] theorem State.setBusFreq_inited (s : State) (f : BitVec 32) :
    (s.setBusFreq f).inited = s.inited := rfl
@[simp] theorem State.setBusFreq_cmdBuf (s : State) (f : BitVec 32) :
    (s.setBusFreq f).cmdBuf = s.cmdBuf := rfl
@[simp] theorem State.setBusFreq_fb (s : State) (f : BitVec 32) :
    (s.setBusFreq f).fb = s.fb := rfl
@[simp] theorem State.setBusFreq_wireLog (s : State) (f : BitVec 32) :
    (s.setBusFreq f).wireLog = s.wireLog := rfl
@[simp] theorem State.setBusFreq_doneLog (s : State) (f : BitVec 32) :
    (s.setBusFreq f).doneLog = s.doneLog := rfl
@[simp] theorem State.setBusFreq_result (s : State) (f : BitVec 32) :
    (s.setBusFreq f).result = s.result := rfl
@[simp] theorem State.setBusFreq_openParams (s : State) (f : BitVec 32) :
    (s.setBusFreq f).openParams = s.openParams := rfl
@[simp] theorem State.setBusFreq_cmdPort (s : State) (f : BitVec 32) :
    (s.setBusFreq f).cmdPort = s.cmdPort := rfl
@[simp] theorem State.setBusFreq_todo (s : State) (f : BitVec 32) :
    (s.setBusFreq f).todo = s.todo := rfl
@[simp] theorem State.setBusFreq_choice (s : State) (f : BitVec 32) :
    (s.setBusFreq f).choice = s.choice := rfl
@[simp] theorem State.setBusFreq_turns (s : State) (f : BitVec 32) :
    (s.setBusFreq f).turns = s.turns := rfl
@[simp] theorem State.setBusFreq_tick (s : State) (f : BitVec 32) :
    (s.setBusFreq f).tick = s.tick := rfl
@[simp] theorem State.setBusFreq_fbSize (s : State) (f : BitVec 32) :
    (s.setBusFreq f).fbSize = s.fbSize := rfl

/-! ### State.clearPage -/

@[simp] theorem State.clearPage_fsm (s : State) :
    s.clearPage.fsm = s.fsm := rfl
@[simp] theorem State.clearPage_txd (s : State) :
    s.clearPage.txd = s.txd := rfl
@[simp] theorem State.clearPage_startReq (s : State) :
    s.clearPage.startReq = s.startReq := rfl
@[simp] theorem State.clearPage_stopReq (s : State) :
    s.clearPage.stopReq = s.stopReq := rfl
@[simp] theorem State.clearPage_dataOut (s : State) :
    s.clearPage.dataOut = s.dataOut := rfl
@[simp] theorem State.clearPage_txPending (s : State) :
    s.clearPage.txPending = s.txPending := rfl
@[simp] theorem State.clearPage_evtPending (s : State) :
    s.clearPage.evtPending = s.evtPending := rfl
@[simp] theorem State.clearPage_wire (s : State) :
    s.clearPage.wire = s.wire := rfl
@[simp] theorem State.clearPage_irqEnable (s : State) :
    s.clearPage.irqEnable = s.irqEnable := rfl
@[simp] theorem State.clearPage_width (s : State) :
    s.clearPage.width = s.width := rfl
@[simp] theorem State.clearPage_height (s : State) :
    s.clearPage.height = s.height := rfl
@[simp] theorem State.clearPage_numPages (s : State) :
    s.clearPage.numPages = s.numPages := rfl
@[simp] theorem State.clearPage_busAddr (s : State) :
    s.clearPage.busAddr = s.busAddr := rfl
@[simp] theorem State.clearPage_busFreq (s : State) :
    s.clearPage.busFreq = s.busFreq := rfl
@[simp] theorem State.clearPage_curPage (s : State) :
    s.clearPage.curPage = 0#4 := rfl
@[simp] theorem State.clearPage_lock (s : State) :
    s.clearPage.lock = s.lock := rfl
@[simp] theorem State.clearPage_inited (s : State) :
    s.clearPage.inited = s.inited := rfl
@[simp] theorem State.clearPage_cmdBuf (s : State) :
    s.clearPage.cmdBuf = s.cmdBuf := rfl
@[simp] theorem State.clearPage_fb (s : State) :
    s.clearPage.fb = s.fb := rfl
@[simp] theorem State.clearPage_wireLog (s : State) :
    s.clearPage.wireLog = s.wireLog := rfl
@[simp] theorem State.clearPage_doneLog (s : State) :
    s.clearPage.doneLog = s.doneLog := rfl
@[simp] theorem State.clearPage_result (s : State) :
    s.clearPage.result = s.result := rfl
@[simp] theorem State.clearPage_openParams (s : State) :
    s.clearPage.openParams = s.openParams := rfl
@[simp] theorem State.clearPage_cmdPort (s : State) :
    s.clearPage.cmdPort = s.cmdPort := rfl
@[simp] theorem State.clearPage_todo (s : State) :
    s.clearPage.todo = s.todo := rfl
@[simp] theorem State.clearPage_choice (s : State) :
    s.clearPage.choice = s.choice := rfl
@[simp] theorem State.clearPage_turns (s : State) :
    s.clearPage.turns = s.turns := rfl
@[simp] theorem State.clearPage_tick (s : State) :
    s.clearPage.tick = s.tick := rfl
@[simp] theorem State.clearPage_fbSize (s : State) :
    s.clearPage.fbSize = s.fbSize := rfl

/-! ### State.setInited -/

@[simp] theorem State.setInited_fsm (s : State) :
    s.setInited.fsm = s.fsm := rfl
@[simp] theorem State.setInited_txd (s : State) :
    s.setInited.txd = s.txd := rfl
@[simp] theorem State.setInited_startReq (s : State) :
    s.setInited.startReq = s.startReq := rfl
@[simp] theorem State.setInited_stopReq (s : State) :
    s.setInited.stopReq = s.stopReq := rfl
@[simp] theorem State.setInited_dataOut (s : State) :
    s.setInited.dataOut = s.dataOut := rfl
@[simp] theorem State.setInited_txPending (s : State) :
    s.setInited.txPending = s.txPending := rfl
@[simp] theorem State.setInited_evtPending (s : State) :
    s.setInited.evtPending = s.evtPending := rfl
@[simp] theorem State.setInited_wire (s : State) :
    s.setInited.wire = s.wire := rfl
@[simp] theorem State.setInited_irqEnable (s : State) :
    s.setInited.irqEnable = s.irqEnable := rfl
@[simp] theorem State.setInited_width (s : State) :
    s.setInited.width = s.width := rfl
@[simp] theorem State.setInited_height (s : State) :
    s.setInited.height = s.height := rfl
@[simp] theorem State.setInited_numPages (s : State) :
    s.setInited.numPages = s.numPages := rfl
@[simp] theorem State.setInited_busAddr (s : State) :
    s.setInited.busAddr = s.busAddr := rfl
@[simp] theorem State.setInited_busFreq (s : State) :
    s.setInited.busFreq = s.busFreq := rfl
@[simp] theorem State.setInited_curPage (s : State) :
    s.setInited.curPage = s.curPage := rfl
@[simp] theorem State.setInited_lock (s : State) :
    s.setInited.lock = s.lock := rfl
@[simp] theorem State.setInited_inited (s : State) :
    s.setInited.inited = true := rfl
@[simp] theorem State.setInited_cmdBuf (s : State) :
    s.setInited.cmdBuf = s.cmdBuf := rfl
@[simp] theorem State.setInited_fb (s : State) :
    s.setInited.fb = s.fb.truncate s.fbSize := rfl
@[simp] theorem State.setInited_wireLog (s : State) :
    s.setInited.wireLog = s.wireLog := rfl
@[simp] theorem State.setInited_doneLog (s : State) :
    s.setInited.doneLog = s.doneLog := rfl
@[simp] theorem State.setInited_result (s : State) :
    s.setInited.result = s.result := rfl
@[simp] theorem State.setInited_openParams (s : State) :
    s.setInited.openParams = s.openParams := rfl
@[simp] theorem State.setInited_cmdPort (s : State) :
    s.setInited.cmdPort = s.cmdPort := rfl
@[simp] theorem State.setInited_todo (s : State) :
    s.setInited.todo = s.todo := rfl
@[simp] theorem State.setInited_choice (s : State) :
    s.setInited.choice = s.choice := rfl
@[simp] theorem State.setInited_turns (s : State) :
    s.setInited.turns = s.turns := rfl
@[simp] theorem State.setInited_tick (s : State) :
    s.setInited.tick = s.tick := rfl
@[simp] theorem State.setInited_fbSize (s : State) :
    s.setInited.fbSize = s.fbSize := rfl

/-! ### State.nextPage -/

@[simp] theorem State.nextPage_fsm (s : State) :
    s.nextPage.fsm = s.fsm := rfl
@[simp] theorem State.nextPage_txd (s : State) :
    s.nextPage.txd = s.txd := rfl
@[simp] theorem State.nextPage_startReq (s : State) :
    s.nextPage.startReq = s.startReq := rfl
@[simp] theorem State.nextPage_stopReq (s : State) :
    s.nextPage.stopReq = s.stopReq := rfl
@[simp] theorem State.nextPage_dataOut (s : State) :
    s.nextPage.dataOut = s.dataOut := rfl
@[simp] theorem State.nextPage_txPending (s : State) :
    s.nextPage.txPending = s.txPending := rfl
@[simp] theorem State.nextPage_evtPending (s : State) :
    s.nextPage.evtPending = s.evtPending := rfl
@[simp] theorem State.nextPage_wire (s : State) :
    s.nextPage.wire = s.wire := rfl
@[simp] theorem State.nextPage_irqEnable (s : State) :
    s.nextPage.irqEnable = s.irqEnable := rfl
@[simp] theorem State.nextPage_width (s : State) :
    s.nextPage.width = s.width := rfl
@[simp] theorem State.nextPage_height (s : State) :
    s.nextPage.height = s.height := rfl
@[simp] theorem State.nextPage_numPages (s : State) :
    s.nextPage.numPages = s.numPages := rfl
@[simp] theorem State.nextPage_busAddr (s : State) :
    s.nextPage.busAddr = s.busAddr := rfl
@[simp] theorem State.nextPage_busFreq (s : State) :
    s.nextPage.busFreq = s.busFreq := rfl
@[simp] theorem State.nextPage_curPage (s : State) :
    s.nextPage.curPage = s.curPage + 1#4 := rfl
@[simp] theorem State.nextPage_lock (s : State) :
    s.nextPage.lock = s.lock := rfl
@[simp] theorem State.nextPage_inited (s : State) :
    s.nextPage.inited = s.inited := rfl
@[simp] theorem State.nextPage_cmdBuf (s : State) :
    s.nextPage.cmdBuf = s.cmdBuf := rfl
@[simp] theorem State.nextPage_fb (s : State) :
    s.nextPage.fb = s.fb := rfl
@[simp] theorem State.nextPage_wireLog (s : State) :
    s.nextPage.wireLog = s.wireLog := rfl
@[simp] theorem State.nextPage_doneLog (s : State) :
    s.nextPage.doneLog = s.doneLog := rfl
@[simp] theorem State.nextPage_result (s : State) :
    s.nextPage.result = s.result := rfl
@[simp] theorem State.nextPage_openParams (s : State) :
    s.nextPage.openParams = s.openParams := rfl
@[simp] theorem State.nextPage_cmdPort (s : State) :
    s.nextPage.cmdPort = s.cmdPort := rfl
@[simp] theorem State.nextPage_todo (s : State) :
    s.nextPage.todo = s.todo := rfl
@[simp] theorem State.nextPage_choice (s : State) :
    s.nextPage.choice = s.choice := rfl
@[simp] theorem State.nextPage_turns (s : State) :
    s.nextPage.turns = s.turns := rfl
@[simp] theorem State.nextPage_tick (s : State) :
    s.nextPage.tick = s.tick := rfl
@[simp] theorem State.nextPage_fbSize (s : State) :
    s.nextPage.fbSize = s.fbSize := rfl

/-! ### State.passTurn -/

@[simp] theorem State.passTurn_fsm (s : State) :
    s.passTurn.fsm = s.fsm := rfl
@[simp] theorem State.passTurn_txd (s : State) :
    s.passTurn.txd = s.txd := rfl
@[simp] theorem State.passTurn_startReq (s : State) :
    s.passTurn.startReq = s.startReq := rfl
@[simp] theorem State.passTurn_stopReq (s : State) :
    s.passTurn.stopReq = s.stopReq := rfl
@[simp] theorem State.passTurn_dataOut (s : State) :
    s.passTurn.dataOut = s.dataOut := rfl
@[simp] theorem State.passTurn_txPending (s : State) :
    s.passTurn.txPending = s.txPending := rfl
@[simp] theorem State.passTurn_evtPending (s : State) :
    s.passTurn.evtPending = s.evtPending := rfl
@[simp] theorem State.passTurn_wire (s : State) :
    s.passTurn.wire = s.wire := rfl
@[simp] theorem State.passTurn_irqEnable (s : State) :
    s.passTurn.irqEnable = s.irqEnable := rfl
@[simp] theorem State.passTurn_width (s : State) :
    s.passTurn.width = s.width := rfl
@[simp] theorem State.passTurn_height (s : State) :
    s.passTurn.height = s.height := rfl
@[simp] theorem State.passTurn_numPages (s : State) :
    s.passTurn.numPages = s.numPages := rfl
@[simp] theorem State.passTurn_busAddr (s : State) :
    s.passTurn.busAddr = s.busAddr := rfl
@[simp] theorem State.passTurn_busFreq (s : State) :
    s.passTurn.busFreq = s.busFreq := rfl
@[simp] theorem State.passTurn_curPage (s : State) :
    s.passTurn.curPage = s.curPage := rfl
@[simp] theorem State.passTurn_lock (s : State) :
    s.passTurn.lock = s.lock := rfl
@[simp] theorem State.passTurn_inited (s : State) :
    s.passTurn.inited = s.inited := rfl
@[simp] theorem State.passTurn_cmdBuf (s : State) :
    s.passTurn.cmdBuf = s.cmdBuf := rfl
@[simp] theorem State.passTurn_fb (s : State) :
    s.passTurn.fb = s.fb := rfl
@[simp] theorem State.passTurn_wireLog (s : State) :
    s.passTurn.wireLog = s.wireLog := rfl
@[simp] theorem State.passTurn_doneLog (s : State) :
    s.passTurn.doneLog = s.doneLog := rfl
@[simp] theorem State.passTurn_result (s : State) :
    s.passTurn.result = s.result := rfl
@[simp] theorem State.passTurn_openParams (s : State) :
    s.passTurn.openParams = s.openParams := rfl
@[simp] theorem State.passTurn_cmdPort (s : State) :
    s.passTurn.cmdPort = s.cmdPort := rfl
@[simp] theorem State.passTurn_todo (s : State) :
    s.passTurn.todo = s.todo := rfl
@[simp] theorem State.passTurn_choice (s : State) :
    s.passTurn.choice = s.choice := rfl
@[simp] theorem State.passTurn_turns (s : State) :
    s.passTurn.turns = s.turns.tail := rfl
@[simp] theorem State.passTurn_tick (s : State) :
    s.passTurn.tick = s.tick + 1 := rfl
@[simp] theorem State.passTurn_fbSize (s : State) :
    s.passTurn.fbSize = s.fbSize := rfl

/-! ### busStop -/

@[simp] theorem busStop_fsm (s : State) :
    (busStop s).fsm = s.fsm := rfl
@[simp] theorem busStop_txd (s : State) :
    (busStop s).txd = s.txd := rfl
@[simp] theorem busStop_startReq (s : State) :
    (busStop s).startReq = s.startReq := rfl
@[simp] theorem busStop_stopReq (s : State) :
    (busStop s).stopReq = false := rfl
@[simp] theorem busStop_dataOut (s : State) :
    (busStop s).dataOut = s.dataOut := rfl
@[simp] theorem busStop_txPending (s : State) :
    (busStop s).txPending = s.txPending := rfl
@[simp] theorem busStop_evtPending (s : State) :
    (busStop s).evtPending = s.evtPending := rfl
@[simp] theorem busStop_wire (s : State) :
    (busStop s).wire = .free := rfl
@[simp] theorem busStop_irqEnable (s : State) :
    (busStop s).irqEnable = s.irqEnable := rfl
@[simp] theorem busStop_width (s : State) :
    (busStop s).width = s.width := rfl
@[simp] theorem busStop_height (s : State) :
    (busStop s).height = s.height := rfl
@[simp] theorem busStop_numPages (s : State) :
    (busStop s).numPages = s.numPages := rfl
@[simp] theorem busStop_busAddr (s : State) :
    (busStop s).busAddr = s.busAddr := rfl
@[simp] theorem busStop_busFreq (s : State) :
    (busStop s).busFreq = s.busFreq := rfl
@[simp] theorem busStop_curPage (s : State) :
    (busStop s).curPage = s.curPage := rfl
@[simp] theorem busStop_lock (s : State) :
    (busStop s).lock = s.lock := rfl
@[simp] theorem busStop_inited (s : State) :
    (busStop s).inited = s.inited := rfl
@[simp] theorem busStop_cmdBuf (s : State) :
    (busStop s).cmdBuf = s.cmdBuf := rfl
@[simp] theorem busStop_fb (s : State) :
    (busStop s).fb = s.fb := rfl
@[simp] theorem busStop_wireLog (s : State) :
    (busStop s).wireLog = s.wireLog ++ [.stop] := rfl
@[simp] theorem busStop_doneLog (s : State) :
    (busStop s).doneLog = s.doneLog := rfl
@[simp] theorem busStop_result (s : State) :
    (busStop s).result = s.result := rfl
@[simp] theorem busStop_openParams (s : State) :
    (busStop s).openParams = s.openParams := rfl
@[simp] theorem busStop_cmdPort (s : State) :
    (busStop s).cmdPort = s.cmdPort := rfl
@[simp] theorem busStop_todo (s : State) :
    (busStop s).todo = s.todo := rfl
@[simp] theorem busStop_choice (s : State) :
    (busStop s).choice = s.choice := rfl
@[simp] theorem busStop_turns (s : State) :
    (busStop s).turns = s.turns := rfl
@[simp] theorem busStop_tick (s : State) :
    (busStop s).tick = s.tick := rfl
@[simp] theorem busStop_fbSize (s : State) :
    (busStop s).fbSize = s.fbSize := rfl

/-! ### busStart -/

@[simp] theorem busStart_fsm (s : State) :
    (busStart s).fsm = s.fsm := rfl
@[simp] theorem busStart_txd (s : State) :
    (busStart s).txd = s.txd := rfl
@[simp] theorem busStart_startReq (s : State) :
    (busStart s).startReq = s.startReq := rfl
@[simp] theorem busStart_stopReq (s : State) :
    (busStart s).stopReq = s.stopReq := rfl
@[simp] theorem busStart_dataOut (s : State) :
    (busStart s).dataOut = s.dataOut := rfl
@[simp] theorem busStart_txPending (s : State) :
    (busStart s).txPending = s.txPending := rfl
@[simp] theorem busStart_evtPending (s : State) :
    (busStart s).evtPending = true := rfl
@[simp] theorem busStart_wire (s : State) :
    (busStart s).wire = .started := rfl
@[simp] theorem busStart_irqEnable (s : State) :
    (busStart s).irqEnable = s.irqEnable := rfl
@[simp] theorem busStart_width (s : State) :
    (busStart s).width = s.width := rfl
@[simp] theorem busStart_height (s : State) :
    (busStart s).height = s.height := rfl
@[simp] theorem busStart_numPages (s : State) :
    (busStart s).numPages = s.numPages := rfl
@[simp] theorem busStart_busAddr (s : State) :
    (busStart s).busAddr = s.busAddr := rfl
@[simp] theorem busStart_busFreq (s : State) :
    (busStart s).busFreq = s.busFreq := rfl
@[simp] theorem busStart_curPage (s : State) :
    (busStart s).curPage = s.curPage := rfl
@[simp] theorem busStart_lock (s : State) :
    (busStart s).lock = s.lock := rfl
@[simp] theorem busStart_inited (s : State) :
    (busStart s).inited = s.inited := rfl
@[simp] theorem busStart_cmdBuf (s : State) :
    (busStart s).cmdBuf = s.cmdBuf := rfl
@[simp] theorem busStart_fb (s : State) :
    (busStart s).fb = s.fb := rfl
@[simp] theorem busStart_wireLog (s : State) :
    (busStart s).wireLog = s.wireLog ++ [.start] := rfl
@[simp] theorem busStart_doneLog (s : State) :
    (busStart s).doneLog = s.doneLog := rfl
@[simp] theorem busStart_result (s : State) :
    (busStart s).result = s.result := rfl
@[simp] theorem busStart_openParams (s : State) :
    (busStart s).openParams = s.openParams := rfl
@[simp] theorem busStart_cmdPort (s : State) :
    (busStart s).cmdPort = s.cmdPort := rfl
@[simp] theorem busStart_todo (s : State) :
    (busStart s).todo = s.todo := rfl
@[simp] theorem busStart_choice (s : State) :
    (busStart s).choice = s.choice := rfl
@[simp] theorem busStart_turns (s : State) :
    (busStart s).turns = s.turns := rfl
@[simp] theorem busStart_tick (s : State) :
    (busStart s).tick = s.tick := rfl
@[simp] theorem busStart_fbSize (s : State) :
    (busStart s).fbSize = s.fbSize := rfl

/-! ### busByte -/

@[simp] theorem busByte_fsm (s : State) :
    (busByte s).fsm = s.fsm := rfl
@[simp] theorem busByte_txd (s : State) :
    (busByte s).txd = s.txd := rfl
@[simp] theorem busByte_startReq (s : State) :
    (busByte s).startReq = s.startReq := rfl
@[simp] theorem busByte_stopReq (s : State) :
    (busByte s).stopReq = s.stopReq := rfl
@[simp] theorem busByte_dataOut (s : State) :
    (busByte s).dataOut = s.dataOut := rfl
@[simp] theorem busByte_txPending (s : State) :
    (busByte s).txPending = false := rfl
@[simp] theorem busByte_evtPending (s : State) :
    (busByte s).evtPending = true := rfl
@[simp] theorem busByte_wire (s : State) :
    (busByte s).wire = s.wire := rfl
@[simp] theorem busByte_irqEnable (s : State) :
    (busByte s).irqEnable = s.irqEnable := rfl
@[simp] theorem busByte_width (s : State) :
    (busByte s).width = s.width := rfl
@[simp] theorem busByte_height (s : State) :
    (busByte s).height = s.height := rfl
@[simp] theorem busByte_numPages (s : State) :
    (busByte s).numPages = s.numPages := rfl
@[simp] theorem busByte_busAddr (s : State) :
    (busByte s).busAddr = s.busAddr := rfl
@[simp] theorem busByte_busFreq (s : State) :
    (busByte s).busFreq = s.busFreq := rfl
@[simp] theorem busByte_curPage (s : State) :
    (busByte s).curPage = s.curPage := rfl
@[simp] theorem busByte_lock (s : State) :
    (busByte s).lock = s.lock := rfl
@[simp] theorem busByte_inited (s : State) :
    (busByte s).inited = s.inited := rfl
@[simp] theorem busByte_cmdBuf (s : State) :
    (busByte s).cmdBuf = s.cmdBuf := rfl
@[simp] theorem busByte_fb (s : State) :
    (busByte s).fb = s.fb := rfl
@[simp] theorem busByte_wireLog (s : State) :
    (busByte s).wireLog = s.wireLog ++ [.byte s.dataOut] := rfl
@[simp] theorem busByte_doneLog (s : State) :
    (busByte s).doneLog = s.doneLog := rfl
@[simp] theorem busByte_result (s : State) :
    (busByte s).result = s.result := rfl
@[simp] theorem busByte_openParams (s : State) :
    (busByte s).openParams = s.openParams := rfl
@[simp] theorem busByte_cmdPort (s : State) :
    (busByte s).cmdPort = s.cmdPort := rfl
@[simp] theorem busByte_todo (s : State) :
    (busByte s).todo = s.todo := rfl
@[simp] theorem busByte_choice (s : State) :
    (busByte s).choice = s.choice := rfl
@[simp] theorem busByte_turns (s : State) :
    (busByte s).turns = s.turns := rfl
@[simp] theorem busByte_tick (s : State) :
    (busByte s).tick = s.tick := rfl
@[simp] theorem busByte_fbSize (s : State) :
    (busByte s).fbSize = s.fbSize := rfl

end Sys2Proof.Machine
end

