-- ==== Sys2Proof/Laws/Ops.lean ====
section
/-! SUPPORT. One lemma per shared operation, saying once everything it can do. -/

namespace Sys2Proof.Machine

@[simp] theorem resultWord_ok : resultWord .ok 0#24 = 0#32 := rfl
@[simp] theorem resultWord_outOfBounds : resultWord .outOfBounds 0#24 = 1#32 := rfl
@[simp] theorem resultWord_invalidParams : resultWord .invalidParams 0#24 = 2#32 := rfl
@[simp] theorem resultWord_busy : resultWord .busy 0#24 = 3#32 := rfl

/-! ### The scheduler -/

/-- Everything an accepted scheduler call says: the engine was Idle, the call was admitted, and the
state is the started one. -/
theorem sched_accepted {r : SchedReq} {s s' : State} (h : sched r s = .accepted s') :
    s.fsm = fsmIdle ∧ legalCb r.cb.toNat = true ∧
    runAdmitted s r.pfxSpace r.pfxOff r.pfxLen = true ∧
    runAdmitted s r.paySpace r.payOff r.payLen = true ∧ s' = s.start r := by
  unfold sched at h
  split at h
  · cases h
  · split at h
    · cases h
    · split at h
      · simp only [SchedAnswer.accepted.injEq] at h
        simp_all
      · split at h <;> cases h

/-- A Busy answer: the engine was not Idle, and the call was fast-fail. -/
theorem sched_busy {r : SchedReq} {s : State} (h : sched r s = .busy) :
    s.fsm ≠ fsmIdle ∧ r.fastFail = true := by
  unfold sched at h
  split at h
  · cases h
  · split at h
    · cases h
    · split at h
      · cases h
      · split at h
        · exact ⟨‹_›, ‹_›⟩
        · cases h

/-- An admitted call is accepted in Idle. -/
theorem sched_of_idle {r : SchedReq} {s : State} (hcb : legalCb r.cb.toNat = true)
    (hp : runAdmitted s r.pfxSpace r.pfxOff r.pfxLen = true)
    (hd : runAdmitted s r.paySpace r.payOff r.payLen = true) (hf : s.fsm = fsmIdle) :
    sched r s = .accepted (s.start r) := by
  simp [sched, hcb, hp, hd, hf]

/-- An admitted fast-fail call is rejected outside Idle. -/
theorem sched_of_not_idle {r : SchedReq} {s : State} (hcb : legalCb r.cb.toNat = true)
    (hp : runAdmitted s r.pfxSpace r.pfxOff r.pfxLen = true)
    (hd : runAdmitted s r.paySpace r.payOff r.payLen = true) (hf : s.fsm ≠ fsmIdle)
    (hff : r.fastFail = true) : sched r s = .busy := by
  simp [sched, hcb, hp, hd, hf, hff]

/-- A scheduler call inside the handler that completes started the transaction. -/
theorem schedInHandler_next {r : SchedReq} {s t : State} (h : schedInHandler r s = .next t) :
    sched r s = .accepted t := by
  unfold schedInHandler at h
  split at h
  · simp only [Host.Outcome.next.injEq] at h
    subst h; assumption
  · cases h
  · cases h

/-! ### Micro-steps -/

/-- What a micro-step can do when the command goes on. -/
theorem runMicro_done {m : Micro} {s s' : State} (h : runMicro m s = .done s') :
    (m = .acquire ∧ s.lock = .released ∧ s' = s.setLock .held) ∨
    (∃ w, m = .writeWidth w ∧ s' = s.setWidth w) ∨
    (∃ h, m = .writeHeight h ∧ s' = s.setHeight h) ∨
    (∃ n, m = .writePages n ∧ s' = s.setPages n) ∨
    (∃ a, m = .writeBusAddr a ∧ s' = s.setBusAddr a) ∨
    (∃ f, m = .writeBusFreq f ∧ s' = s.setBusFreq f) ∨
    (∃ off, m = .zeroByte off ∧ off < s.fbSize ∧ s' = s.fbWrite off 0x00#8) ∨
    (m = .setInited ∧ s' = s.setInited) ∨
    (m = .schedInit ∧ sched (initReq s) s = .accepted s') ∨
    (m = .clearCurPage ∧ s' = s.clearPage) ∨
    (∃ i b, m = .cmdByte i b ∧ s' = s.cmdWrite i b) ∨
    (∃ i b, m = .cmdPage i b ∧ s' = s.cmdWrite i (pageByte s b)) ∨
    (∃ n cb, m = .schedCmd n cb ∧ sched (cmdReq s n cb) s = .accepted s') ∨
    (∃ x y on, m = .pixel x y on ∧ x < s.width.toNat ∧ y < s.height.toNat ∧
      pixelIndex s.width.toNat x y < s.fbSize ∧ s' = s.paint x y on) := by
  cases m <;> simp only [runMicro] at h
  case acquire => split at h <;> simp_all
  case zeroByte => split at h <;> simp_all
  case schedInit => split at h <;> simp_all
  case schedCmd => split at h <;> simp_all
  case pixel =>
    split at h
    · rename_i hin
      split at h
      · rename_i hidx
        simp only [MicroOut.done.injEq] at h
        iterate 13 right
        exact ⟨_, _, _, rfl, hin.1, hin.2, hidx, h.symm⟩
      · cases h
    · cases h
  all_goals simp_all

/-- Only INIT's scheduler attempt raises: Busy, with the lock given back. -/
theorem runMicro_raised {m : Micro} {s s' : State} (h : runMicro m s = .raised s') :
    m = .schedInit ∧ sched (initReq s) s = .busy ∧
      s' = (s.setLock .released).finish .busy 0#24 := by
  cases m <;> simp only [runMicro] at h
  case acquire => split at h <;> cases h
  case zeroByte => split at h <;> cases h
  case schedInit => split at h <;> simp_all
  case schedCmd => split at h <;> cases h
  case pixel => split at h <;> [(split at h <;> cases h); cases h]
  all_goals cases h

/-- A micro-step that has its effect does not touch HOST's position. -/
theorem runMicro_todo {m : Micro} {s s' : State} (h : runMicro m s = .done s') :
    s'.todo = s.todo := by
  rcases runMicro_done h with ⟨-, -, rfl⟩ | ⟨w, -, rfl⟩ | ⟨hh, -, rfl⟩ | ⟨n, -, rfl⟩ | ⟨a, -, rfl⟩ |
    ⟨f, -, rfl⟩ | ⟨off, -, -, rfl⟩ | ⟨-, rfl⟩ | ⟨-, hs⟩ | ⟨-, rfl⟩ | ⟨i, b, -, rfl⟩ |
    ⟨i, b, -, rfl⟩ | ⟨n, cb, -, hs⟩ | ⟨x, y, on, -, -, -, -, rfl⟩
  all_goals first | rfl | (rw [(sched_accepted hs).2.2.2.2]; rfl)

/-- The one induction over the micro-steps of a command: `P` holds of what is left and the state at
every micro-step, so `Q` holds where the run of them ends. -/
theorem runTodo_induction (P : List Micro → State → Prop) (Q : State → Prop)
    (hdone : ∀ m ms s s', P (m :: ms) s → runMicro m s = .done s' → P ms s')
    (hraise : ∀ m ms s s', P (m :: ms) s → runMicro m s = .raised s' → Q s')
    (hstop : ∀ ms s, P ms s → Q { s with todo := ms })
    (hfin : ∀ s, P [] s → Q (s.finish .ok 0#24)) :
    ∀ (ms : List Micro) (q : Option Nat) (s t : State), P ms s → runTodo q ms s = .next t → Q t := by
  intro ms
  induction ms with
  | nil =>
    intro q s t hP h
    simp only [runTodo, Host.Outcome.next.injEq] at h
    exact h ▸ hstop [] s hP
  | cons m ms ih =>
    intro q s t hP h
    rw [runTodo] at h
    split at h
    · rename_i s' hm
      have hP' := hdone m ms s s' hP hm
      split at h
      · subst_vars
        simp only [Host.Outcome.next.injEq] at h
        exact h ▸ hfin s' hP'
      · split at h
        · simp only [Host.Outcome.next.injEq] at h
          exact h ▸ hstop ms s' hP'
        · exact ih _ _ _ hP' h
    · simp only [Host.Outcome.next.injEq] at h
      exact h ▸ hstop (m :: ms) s hP
    · rename_i s' hm
      simp only [Host.Outcome.next.injEq] at h
      exact h ▸ hraise m ms s s' hP hm
    · cases h
    · cases h

/-- A command of one micro-step that has its effect ends with Ok, whatever the quantum. -/
theorem runTodo_single {q : Option Nat} {m : Micro} {s s' : State} (h : runMicro m s = .done s') :
    runTodo q [m] s = .next (s'.finish .ok 0#24) := by
  simp [runTodo, h]

/-- A micro-step that has its effect, not the last, in a run that is not preempted. -/
theorem runTodo_none_cons {m : Micro} {ms : List Micro} {s s' : State}
    (h : runMicro m s = .done s') (hms : ms ≠ []) :
    runTodo none (m :: ms) s = runTodo none ms s' := by
  simp [runTodo, h, hms]

/-- A micro-step that holds. -/
theorem runTodo_hold {q : Option Nat} {m : Micro} {ms : List Micro} {s : State}
    (h : runMicro m s = .hold) : runTodo q (m :: ms) s = .next { s with todo := m :: ms } := by
  simp [runTodo, h]

/-! ### The bus agent -/

/-- What a BUS turn can do (R100): at most one of its three steps, or nothing. -/
theorem busStep_cases (s : State) :
    (busStopReady s = true ∧ busStep s = busStop s) ∨
    (busStartReady s = true ∧ busStep s = busStart s) ∨
    (busByteReady s = true ∧ busStep s = busByte s) ∨
    (busStopReady s = false ∧ busStartReady s = false ∧ busByteReady s = false ∧ busStep s = s) := by
  unfold busStep
  split
  · exact .inl ⟨‹_›, rfl⟩
  · split
    · exact .inr (.inl ⟨‹_›, rfl⟩)
    · split
      · exact .inr (.inr (.inl ⟨‹_›, rfl⟩))
      · exact .inr (.inr (.inr (by simp_all)))

/-! ### The handler -/

/-- Which completion action `invoke` runs. -/
theorem invoke_next {s t : State} (h : invoke s = .next t) :
    (s.txd.cb = 1#4 ∧ execCbHost s = .next t) ∨ (s.txd.cb = 2#4 ∧ execCbWritePage s = .next t) ∨
    (s.txd.cb = 3#4 ∧ execCbSetPage s = .next t) ∨ (s.txd.cb = 4#4 ∧ execCbRelease s = .next t) := by
  unfold invoke decodeAction at h
  split at h
  · rename_i heq
    refine .inl ⟨?_, h⟩
    split at heq <;> simp_all
    exact BitVec.eq_of_toNat_eq (by simpa using ‹s.txd.cb.toNat = 1›)
  · rename_i heq
    refine .inr (.inl ⟨?_, h⟩)
    split at heq <;> simp_all
    exact BitVec.eq_of_toNat_eq (by simpa using ‹s.txd.cb.toNat = 2›)
  · rename_i heq
    refine .inr (.inr (.inl ⟨?_, h⟩))
    split at heq <;> simp_all
    exact BitVec.eq_of_toNat_eq (by simpa using ‹s.txd.cb.toNat = 3›)
  · rename_i heq
    refine .inr (.inr (.inr ⟨?_, h⟩))
    split at heq <;> simp_all
    exact BitVec.eq_of_toNat_eq (by simpa using ‹s.txd.cb.toNat = 4›)
  · cases h
  · cases h

/-- What CB_WRITE_PAGE can do. -/
theorem writePageStep_next {s t : State} (h : writePageStep s = .next t) :
    (s.curPage = s.numPages ∧ t = s.setLock .released) ∨
    (s.curPage ≠ s.numPages ∧ sched (pageReq s) s = .accepted (s.start (pageReq s)) ∧
      t = (s.start (pageReq s)).nextPage) := by
  unfold writePageStep at h
  split at h
  · simp only [Host.Outcome.next.injEq] at h
    exact .inl ⟨‹_›, h.symm⟩
  · split at h
    · rename_i s' hs
      have hacc := schedInHandler_next hs
      have hs' := (sched_accepted hacc).2.2.2.2
      subst hs'
      simp only [Host.Outcome.next.injEq] at h
      exact .inr ⟨‹_›, hacc, h.symm⟩
    · cases h
    · cases h

/-- What CB_SET_PAGE can do. -/
theorem execCbSetPage_next {s t : State} (h : execCbSetPage s = .next t) :
    (s.curPage = s.numPages ∧ t = s.setLock .released) ∨
    (s.curPage ≠ s.numPages ∧
      sched (cmdReq s s.openParams.setpageSeq.length codeWritePage) s.buildSetPage = .accepted t) := by
  unfold execCbSetPage at h
  split at h
  · simp only [Host.Outcome.next.injEq] at h
    exact .inl ⟨‹_›, h.symm⟩
  · exact .inr ⟨‹_›, schedInHandler_next h⟩

/-- Building the set-page command writes `cmd_buf` alone. -/
theorem cmdWrites_frame (bs : List Byte) (s : State) (i : Nat) :
    s.cmdWrites i bs = { s with cmdBuf := (s.cmdWrites i bs).cmdBuf } := by
  induction bs generalizing s i with
  | nil => rfl
  | cons b bs ih =>
    rw [State.cmdWrites, ih]
    rfl

/-- Building the set-page command writes `cmd_buf` alone. -/
theorem buildSetPage_frame (s : State) :
    s.buildSetPage = { s with cmdBuf := s.buildSetPage.cmdBuf } := cmdWrites_frame _ _ _

/-! ### The load arms -/

/-- A missing byte stops the machine. -/
theorem missingByte_ne_next (space : BitVec 2) (t : State) : missingByte space ≠ .next t := by
  unfold missingByte
  split <;> simp

/-- What the WritePrefix arm does when it answers a next state (R91). -/
theorem execEvtWritePrefix_next {s t : State} (h : execEvtWritePrefix s = .next t) :
    s.txd.pfxRem ≠ 0#16 ∧ ∃ b, memRead s s.txd.pfxSpace s.txd.pfxOff.toNat = some b ∧
      t = { (s.load b).setFsm (afterPrefix s.txd.stepPrefix) with txd := s.txd.stepPrefix } := by
  unfold execEvtWritePrefix at h
  split at h
  · cases h
  · rename_i hr
    split at h
    · exact (missingByte_ne_next _ _ h).elim
    · rename_i b hb
      simp only [Host.Outcome.next.injEq] at h
      exact ⟨hr, b, hb, h.symm⟩

/-- What the WriteByte arm does when it answers a next state (R92). -/
theorem execEvtWriteByte_next {s t : State} (h : execEvtWriteByte s = .next t) :
    s.txd.payRem ≠ 0#16 ∧ ∃ b, memRead s s.txd.paySpace s.txd.payOff.toNat = some b ∧
      t = { (s.load b).setFsm (afterPayload s.txd.stepPayload) with txd := s.txd.stepPayload } := by
  unfold execEvtWriteByte at h
  split at h
  · cases h
  · rename_i hr
    split at h
    · exact (missingByte_ne_next _ _ h).elim
    · rename_i b hb
      simp only [Host.Outcome.next.injEq] at h
      exact ⟨hr, b, hb, h.symm⟩

/-! ### Writing `cmd_buf` -/

/-- What a run of `cmd_buf` writes leaves in each byte (R29). -/
theorem cmdWrites_getElem (bs : List Byte) (s : State) (i k : Nat) :
    (s.cmdWrites i bs).cmdBuf[k]? =
      if i ≤ k ∧ k < i + bs.length ∧ k < 8 then bs[k - i]? else s.cmdBuf[k]? := by
  induction bs generalizing s i with
  | nil => rw [if_neg (by simp; omega)]; rfl
  | cons b bs ih =>
    rw [State.cmdWrites, ih, State.cmdWrite_cmdBuf, Vector.getElem?_setIfInBounds]
    by_cases hk : i = k
    · subst hk
      rw [if_neg (by omega)]
      by_cases h8 : i < 8
      · rw [if_pos rfl, if_pos h8, if_pos (by simp; omega)]
        simp
      · rw [if_pos rfl, if_neg h8, if_neg (by omega)]
        exact (Vector.getElem?_eq_none (by omega)).symm
    · rw [if_neg hk]
      by_cases h : i + 1 ≤ k ∧ k < i + 1 + bs.length ∧ k < 8
      · rw [if_pos h, if_pos (by simp only [List.length_cons]; omega),
          show k - i = (k - (i + 1)) + 1 by omega, List.getElem?_cons_succ]
      · rw [if_neg h, if_neg (by simp only [List.length_cons]; omega)]

/-- The `cmd_buf` micro-steps of a command that is not preempted. -/
theorem runTodo_cmdBytes (bs : List Byte) (i : Nat) {ms : List Micro} (hms : ms ≠ []) (s : State) :
    runTodo none (cmdBytes i bs ++ ms) s = runTodo none ms (s.cmdWrites i bs) := by
  induction bs generalizing s i with
  | nil => rfl
  | cons b bs ih =>
    rw [cmdBytes, List.cons_append, runTodo_none_cons rfl (by simp [hms]), ih]
    rfl

end Sys2Proof.Machine
end

