-- ==== Sys2Proof/Laws/PerInstr.lean ====
section
/-! SUPPORT. For every instruction, its row of spec/opcode_table.json: the code `encode` writes has the
row's fixed bits. -/

namespace Sys2Proof.Laws

/-- The `mask` and `match` of a host command's row of spec/opcode_table.json. -/
def TableRow.command (mask value : CmdWord) (e : Encoded) : Prop :=
  ∃ w, e = .command w ∧ w &&& mask = value

/-- The fixed bits of the row of spec/opcode_table.json, in the code of the instruction. -/
def TableRow.Statement (i : Instr) : Prop :=
  match i with
  | .init .. => TableRow.command 0xFFFFFFFFFFFF000000000000000080FF#128 0x01#128 (encode i)
  | .putPixel .. => TableRow.command 0xFFFFFFFFFFFFFFFFFFFF0000000000FF#128 0x02#128 (encode i)
  | .putRect .. => TableRow.command 0xFFFFFFFFFFFF000000000000000000FF#128 0x03#128 (encode i)
  | .putLine .. => TableRow.command 0xFFFFFFFFFFFF000000000000000000FF#128 0x04#128 (encode i)
  | .refresh => TableRow.command 0xFFFFFFFFFFFFFFFFFFFFFFFFFFFFFFFF#128 0x05#128 (encode i)
  | .setBright _ => TableRow.command 0xFFFFFFFFFFFFFFFFFFFFFFFFFFFF00FF#128 0x06#128 (encode i)
  | .lockAcq => TableRow.command 0xFFFFFFFFFFFFFFFFFFFFFFFFFFFFFFFF#128 0x07#128 (encode i)
  | .lockRel => TableRow.command 0xFFFFFFFFFFFFFFFFFFFFFFFFFFFFFFFF#128 0x08#128 (encode i)
  | .sched .. => TableRow.command 0xFF0000000000000000000000000000FF#128 0x09#128 (encode i)
  | .irqEn _ => TableRow.command 0xFFFFFFFFFFFFFFFFFFFFFFFFFFFFFEFF#128 0x0A#128 (encode i)
  | .rdFb _ => TableRow.command 0xFFFFFFFFFFFFFFFFFFFFFFFF0000FFFF#128 0x0B#128 (encode i)
  | .rdStatus => TableRow.command 0xFFFFFFFFFFFFFFFFFFFFFFFFFFFFFFFF#128 0x0C#128 (encode i)
  | .evtIdle => encode i = .arm 0#3
  | .evtStop => encode i = .arm 1#3
  | .evtSlaveAddress => encode i = .arm 2#3
  | .evtWritePrefix => encode i = .arm 3#3
  | .evtWriteByte => encode i = .arm 4#3
  | .cbHost => encode i = .action 1#4
  | .cbWritePage => encode i = .action 2#4
  | .cbSetPage => encode i = .action 3#4
  | .cbRelease => encode i = .action 4#4

/-- The bits of two concatenated words, under a mask cut at the same place. -/
theorem and_append_eq {n m : Nat} {a c e : BitVec n} {b d f : BitVec m} (h : a &&& c = e)
    (h' : b &&& d = f) : (a ++ b) &&& (c ++ d) = e ++ f := by
  rw [BitVec.and_append, h, h']

theorem and_ones {n : Nat} (a : BitVec n) : a &&& BitVec.allOnes n = a := BitVec.and_allOnes

theorem and_none {n : Nat} (a : BitVec n) : a &&& 0#n = 0#n := BitVec.and_zero

theorem TableRow.init (a : BitVec 7) (w h : BitVec 16) (f : BitVec 32) :
    TableRow.Statement (.init a w h f) :=
  ⟨_, rfl, and_append_eq (and_append_eq (and_append_eq (and_append_eq (and_append_eq
    (and_append_eq (and_ones 0#48) (and_none f)) (and_none h)) (and_none w)) (and_ones 0#1))
    (and_none a)) (and_ones 0x01#8)⟩

theorem TableRow.putPixel (p : Byte) (x y : Coord) : TableRow.Statement (.putPixel p x y) :=
  ⟨_, rfl, and_append_eq (and_append_eq (and_append_eq (and_append_eq (and_ones 0#80)
    (and_none y)) (and_none x)) (and_none p)) (and_ones 0x02#8)⟩

/-- Format R (R64). -/
theorem TableRow.formatR (op p : Byte) (x0 y0 x1 y1 : Coord) :
    encodeR op p x0 y0 x1 y1 &&& 0xFFFFFFFFFFFF000000000000000000FF#128 = 0#120 ++ op :=
  and_append_eq (and_append_eq (and_append_eq (and_append_eq (and_append_eq
    (and_append_eq (and_ones 0#48) (and_none y1)) (and_none x1)) (and_none y0)) (and_none x0))
    (and_none p)) (and_ones op)

theorem TableRow.putRect (p : Byte) (x0 y0 x1 y1 : Coord) :
    TableRow.Statement (.putRect p x0 y0 x1 y1) := ⟨_, rfl, TableRow.formatR 0x03#8 p x0 y0 x1 y1⟩

theorem TableRow.putLine (p : Byte) (x0 y0 x1 y1 : Coord) :
    TableRow.Statement (.putLine p x0 y0 x1 y1) := ⟨_, rfl, TableRow.formatR 0x04#8 p x0 y0 x1 y1⟩

theorem TableRow.refresh : TableRow.Statement .refresh := ⟨_, rfl, rfl⟩

theorem TableRow.setBright (level : Byte) : TableRow.Statement (.setBright level) :=
  ⟨_, rfl, and_append_eq (and_append_eq (and_ones 0#112) (and_none level)) (and_ones 0x06#8)⟩

theorem TableRow.lockAcq : TableRow.Statement .lockAcq := ⟨_, rfl, rfl⟩

theorem TableRow.lockRel : TableRow.Statement .lockRel := ⟨_, rfl, rfl⟩

theorem TableRow.sched (addr : BitVec 7) (ff : Bool) (po : Len16) (ps : Byte) (pl yo : Len16)
    (ys : Byte) (yl : Len16) (cb : Byte) (arg : BitVec 16) :
    TableRow.Statement (.sched addr ff po ps pl yo ys yl cb arg) :=
  ⟨_, rfl, and_append_eq (and_append_eq (and_append_eq (and_append_eq (and_append_eq
    (and_append_eq (and_append_eq (and_append_eq (and_append_eq (and_append_eq (and_append_eq
    (and_ones 0#8) (and_none arg)) (and_none cb)) (and_none yl)) (and_none ys)) (and_none yo))
    (and_none pl)) (and_none ps)) (and_none po)) (and_none (BitVec.ofBool ff))) (and_none addr))
    (and_ones 0x09#8)⟩

theorem TableRow.irqEn (en : Bool) : TableRow.Statement (.irqEn en) :=
  ⟨_, rfl, and_append_eq (and_append_eq (and_ones 0#119) (and_none (BitVec.ofBool en)))
    (and_ones 0x0A#8)⟩

theorem TableRow.rdFb (off : Len16) : TableRow.Statement (.rdFb off) :=
  ⟨_, rfl, and_append_eq (and_append_eq (and_append_eq (and_ones 0#96) (and_none off))
    (and_ones 0#8)) (and_ones 0x0B#8)⟩

theorem TableRow.rdStatus : TableRow.Statement .rdStatus := ⟨_, rfl, rfl⟩

theorem TableRow.evtIdle : TableRow.Statement .evtIdle := rfl
theorem TableRow.evtStop : TableRow.Statement .evtStop := rfl
theorem TableRow.evtSlaveAddress : TableRow.Statement .evtSlaveAddress := rfl
theorem TableRow.evtWritePrefix : TableRow.Statement .evtWritePrefix := rfl
theorem TableRow.evtWriteByte : TableRow.Statement .evtWriteByte := rfl
theorem TableRow.cbHost : TableRow.Statement .cbHost := rfl
theorem TableRow.cbWritePage : TableRow.Statement .cbWritePage := rfl
theorem TableRow.cbSetPage : TableRow.Statement .cbSetPage := rfl
theorem TableRow.cbRelease : TableRow.Statement .cbRelease := rfl

end Sys2Proof.Laws
end

