-- ==== Sys2Proof/Laws/Step.lean ====
section
/-! SUPPORT. What a step can do: which agent moved and what it ran, which arm `fsm` selected, and what
a host command can answer. Later proofs cite these instead of unfolding `step` and `exec`. -/

namespace Sys2Proof.Machine

/-- A command word decodes to a host command (R60). -/
theorem decodeCommand_cls {w : CmdWord} {i : Instr} (h : decodeCommand w = .instr i) :
    i.cls = .command := by
  have key : ∀ (z : Bool) (j : Instr), j.cls = .command → ifZero z j = .instr i →
      i.cls = .command := by
    intro z j hj hz
    cases z <;> simp [ifZero] at hz
    exact hz ▸ hj
  unfold decodeCommand at h
  split at h
  case h_13 => simp at h
  all_goals exact key _ _ rfl h

/-- The five arms and their codes (R72). -/
theorem decodeArm_cases {c : BitVec 3} {i : Instr} (h : decodeArm c = .instr i) :
    (c = fsmIdle ∧ i = .evtIdle) ∨ (c = fsmStop ∧ i = .evtStop) ∨
    (c = fsmSlaveAddress ∧ i = .evtSlaveAddress) ∨ (c = fsmWritePrefix ∧ i = .evtWritePrefix) ∨
    (c = fsmWriteByte ∧ i = .evtWriteByte) := by
  have all : ∀ c : BitVec 3, decodeArm c = .reject .reservedArm ∨
      (c = fsmIdle ∧ decodeArm c = .instr .evtIdle) ∨
      (c = fsmStop ∧ decodeArm c = .instr .evtStop) ∨
      (c = fsmSlaveAddress ∧ decodeArm c = .instr .evtSlaveAddress) ∨
      (c = fsmWritePrefix ∧ decodeArm c = .instr .evtWritePrefix) ∨
      (c = fsmWriteByte ∧ decodeArm c = .instr .evtWriteByte) := by decide
  rcases all c with hd | ⟨hc, hd⟩ | ⟨hc, hd⟩ | ⟨hc, hd⟩ | ⟨hc, hd⟩ | ⟨hc, hd⟩ <;> rw [hd] at h
  · cases h
  all_goals cases h; simp [hc, fsmIdle, fsmStop, fsmSlaveAddress, fsmWritePrefix, fsmWriteByte]

/-- An arm code decodes to a handler arm (R60). -/
theorem decodeArm_cls {c : BitVec 3} {i : Instr} (h : decodeArm c = .instr i) : i.cls = .arm := by
  rcases decodeArm_cases h with ⟨-, rfl⟩ | ⟨-, rfl⟩ | ⟨-, rfl⟩ | ⟨-, rfl⟩ | ⟨-, rfl⟩ <;> rfl

/-- The bytes of a word, read back as a word. -/
theorem wordOfBytes_bytesOfWord (n w : Nat) : wordOfBytes (bytesOfWord n w) = w % 256 ^ n := by
  induction n generalizing w with
  | zero => simp [bytesOfWord, wordOfBytes, Nat.mod_one]
  | succ n ih =>
    rw [bytesOfWord, wordOfBytes, ih, BitVec.toNat_ofNat, show 2 ^ 8 = 256 from rfl, Nat.pow_succ',
      Nat.mod_mul]

theorem length_bytesOfWord (n w : Nat) : (bytesOfWord n w).length = n := by
  induction n generalizing w with
  | zero => rfl
  | succ n ih => rw [bytesOfWord, List.length_cons, ih]

/-- A command word taken from the port, through its 16 bytes (R60). -/
theorem decodeBytes_word (w : CmdWord) :
    decodeBytes (bytesOfWord 16 w.toNat) = decodeCommand w := by
  have hw : wordOfBytes (bytesOfWord 16 w.toNat) = w.toNat := by
    rw [wordOfBytes_bytesOfWord]
    exact Nat.mod_eq_of_lt w.isLt
  rw [decodeBytes, if_pos (length_bytesOfWord 16 w.toNat), hw, BitVec.ofNat_toNat,
    BitVec.setWidth_eq]

/-- The bytes of a command word decode to a host command, if to anything (R60). -/
theorem decodeBytes_cls {bs : List Byte} {i : Instr} (h : decodeBytes bs = .instr i) :
    i.cls = .command := by
  unfold decodeBytes at h
  split at h
  · exact decodeCommand_cls h
  · cases h

/-- What a fetched instruction or answer gives. -/
def Fetched.outcome : Fetched → Out
  | .run i s => exec i s
  | .answer o => o

theorem step_eq (s : State) : step s = (fetch s).outcome := by
  unfold step Fetched.outcome
  cases fetch s <;> rfl

/-- What a HOST turn that answers a next state did. -/
theorem hostFetch_next {u t : State} (h : (hostFetch u).outcome = .next t) :
    (∃ m ms, u.todo = m :: ms ∧ runTodo u.choice.quantum (m :: ms) u = .next t) ∨
    (u.todo = [] ∧ u.cmdPort = [] ∧ t = u) ∨
    (∃ w ws i, u.todo = [] ∧ u.cmdPort = w :: ws ∧
      decodeBytes (bytesOfWord 16 w.toNat) = .instr i ∧
      exec i { u with cmdPort := ws } = .next t) := by
  unfold hostFetch at h
  split at h
  · rename_i m ms hd
    exact .inl ⟨m, ms, hd, h⟩
  · rename_i hd
    split at h
    · rename_i hp
      simp only [Fetched.outcome, Host.Outcome.next.injEq] at h
      exact .inr (.inl ⟨hd, hp, h.symm⟩)
    · rename_i w ws hp
      split at h
      · rename_i i hb
        exact .inr (.inr ⟨w, ws, i, hd, hp, hb, h⟩)
      · cases h

/-- What an IRQ turn that answers a next state did. -/
theorem irqFetch_next {u t : State} (h : (irqFetch u).outcome = .next t) :
    (irqReady u = false ∧ t = u) ∨
    (∃ i, u.evtPending = true ∧ u.irqEnable = true ∧ decodeArm u.fsm = .instr i ∧
      exec i u.takeEvent = .next t) := by
  unfold irqFetch at h
  split at h
  · rename_i hr
    split at h
    · rename_i i hd
      simp only [irqReady, Bool.and_eq_true] at hr
      exact .inr ⟨i, hr.1, hr.2, hd, h⟩
    · cases h
  · rename_i hr
    simp only [Fetched.outcome, Host.Outcome.next.injEq] at h
    exact .inl ⟨by simpa using hr, h.symm⟩

/-- The state in which a HOST turn runs: the turn is consumed, its choices are in place. -/
def State.hostTurn (s : State) (h : HostTurn) : State := { s.passTurn with choice := h }

/-- What a step that answers a next state did: HOST went on with its command, had nothing to do, or
ran a command; IRQ had no step, or ran the arm of `fsm`; BUS took its turn. -/
theorem step_cases {s t : State} (h : step s = .next t) :
    (∃ hc m ms, turnOf s = .host hc ∧ s.todo = m :: ms ∧
      runTodo hc.quantum (m :: ms) (s.hostTurn hc) = .next t) ∨
    (∃ hc, turnOf s = .host hc ∧ s.todo = [] ∧ s.cmdPort = [] ∧ t = s.hostTurn hc) ∨
    (∃ hc w ws i, turnOf s = .host hc ∧ s.todo = [] ∧ s.cmdPort = w :: ws ∧
      decodeBytes (bytesOfWord 16 w.toNat) = .instr i ∧
      exec i { s.hostTurn hc with cmdPort := ws } = .next t) ∨
    (turnOf s = .irq ∧ irqReady s = false ∧ t = s.passTurn) ∨
    (∃ i, turnOf s = .irq ∧ s.evtPending = true ∧ s.irqEnable = true ∧
      decodeArm s.fsm = .instr i ∧ exec i s.passTurn.takeEvent = .next t) ∨
    (turnOf s = .bus ∧ t = busStep s.passTurn) := by
  rw [step_eq] at h
  unfold fetch at h
  split at h
  · rename_i hc ht
    rcases hostFetch_next h with ⟨m, ms, hd, hr⟩ | ⟨hd, hp, he⟩ | ⟨w, ws, i, hd, hp, hb, hr⟩
    · exact .inl ⟨hc, m, ms, ht, hd, hr⟩
    · exact .inr (.inl ⟨hc, ht, hd, hp, he⟩)
    · exact .inr (.inr (.inl ⟨hc, w, ws, i, ht, hd, hp, hb, hr⟩))
  · rename_i ht
    rcases irqFetch_next h with ⟨hr, he⟩ | ⟨i, h1, h2, hd, hr⟩
    · exact .inr (.inr (.inr (.inl ⟨ht, hr, he⟩)))
    · exact .inr (.inr (.inr (.inr (.inl ⟨i, ht, h1, h2, hd, hr⟩))))
  · rename_i ht
    simp only [Fetched.outcome, Host.Outcome.next.injEq] at h
    exact .inr (.inr (.inr (.inr (.inr ⟨ht, h.symm⟩))))

/-- The micro-steps a host command begins with, when it begins any. -/
def programOf (i : Instr) (s : State) : List Micro :=
  match i with
  | .init a w h f => initProgram a w h f
  | .putPixel params x y => [.pixel (sext16 x).toNat (sext16 y).toNat (paramsColor params)]
  | .putRect params x0 y0 x1 y1 =>
      drawProgram (reorder s.choice.order
        (rectPixels (paramsFill params) (s.clamped x0 y0 x1 y1))) (paramsColor params)
  | .putLine params x0 y0 x1 y1 =>
      drawProgram (reorder s.choice.order (linePixels (s.clamped x0 y0 x1 y1))) (paramsColor params)
  | .refresh => refreshProgram s.openParams
  | .setBright level => brightProgram s.openParams level
  | .lockAcq => [.acquire]
  | .lockRel | .sched .. | .irqEn _ | .rdFb _ | .rdStatus => []
  | .evtIdle | .evtStop | .evtSlaveAddress | .evtWritePrefix | .evtWriteByte => []
  | .cbHost | .cbWritePage | .cbSetPage | .cbRelease => []

/-- What a host command that answers a next state did: it delivered a result and changed nothing
else, wrote its one bit, started a transaction, or ran its micro-steps. -/
theorem exec_command_next {i : Instr} {s t : State} (hi : i.cls = .command)
    (h : exec i s = .next t) :
    (∃ c v, t = s.finish c v) ∨
    (i = .lockRel ∧ t = (s.setLock .released).finish .ok 0#24) ∨
    (∃ en, i = .irqEn en ∧ t = { s with irqEnable := en }.finish .ok 0#24) ∨
    (∃ addr ff po ps pl yo ys yl cb arg s', i = .sched addr ff po ps pl yo ys yl cb arg ∧
      sched { addr := addr, pfxSpace := ps, pfxOff := po.toNat, pfxLen := pl.toNat,
              paySpace := ys, payOff := yo.toNat, payLen := yl.toNat, cb := cb, cbArg := arg,
              fastFail := ff } s = .accepted s' ∧ t = s'.finish .ok 0#24) ∨
    (runTodo s.choice.quantum (programOf i s) s = .next t ∧
      (∀ a w hh f, i = .init a w hh f → legalGeometry w.toNat hh.toNat = true)) := by
  have fin : ∀ c v, (Host.Outcome.next (s.finish c v) : Out) = .next t → ∃ c v, t = s.finish c v := by
    intro c v hf
    simp only [Host.Outcome.next.injEq] at hf
    exact ⟨c, v, hf.symm⟩
  have run : ∀ ms, programOf i s = ms →
      (∀ a w hh f, i = .init a w hh f → legalGeometry w.toNat hh.toNat = true) →
      startCommand ms s = .next t →
      runTodo s.choice.quantum (programOf i s) s = .next t ∧
        (∀ a w hh f, i = .init a w hh f → legalGeometry w.toNat hh.toNat = true) :=
    fun ms hp hg hr => ⟨hp ▸ hr, hg⟩
  cases i <;> simp only [Instr.cls, reduceCtorEq] at hi <;> simp only [exec] at h
  case init a w hh f =>
    unfold execInit at h
    split at h
    · refine .inr (.inr (.inr (.inr (run _ rfl ?_ h))))
      intro a' w' hh' f' he
      cases he; assumption
    · cases h
  case putPixel =>
    unfold execPutPixel at h
    split at h
    · cases h
    · split at h
      · exact .inl (fin _ _ h)
      · split at h
        · exact .inl (fin _ _ h)
        · exact .inr (.inr (.inr (.inr (run _ rfl (by simp) h))))
  case putRect =>
    unfold execPutRect at h
    split at h
    · cases h
    · split at h
      · exact .inl (fin _ _ h)
      · split at h
        · exact .inl (fin _ _ h)
        · exact .inr (.inr (.inr (.inr (run _ rfl (by simp) h))))
  case putLine =>
    unfold execPutLine at h
    split at h
    · cases h
    · split at h
      · exact .inl (fin _ _ h)
      · split at h
        · exact .inl (fin _ _ h)
        · exact .inr (.inr (.inr (.inr (run _ rfl (by simp) h))))
  case refresh =>
    unfold execRefresh at h
    split at h
    · exact .inr (.inr (.inr (.inr (run _ rfl (by simp) h))))
    · cases h
  case setBright =>
    unfold execSetBright at h
    split at h
    · exact .inr (.inr (.inr (.inr (run _ rfl (by simp) h))))
    · cases h
  case lockAcq => exact .inr (.inr (.inr (.inr (run _ rfl (by simp) h))))
  case lockRel =>
    simp only [execLockRel, Host.Outcome.next.injEq] at h
    exact .inr (.inl ⟨rfl, h.symm⟩)
  case sched =>
    unfold execSched at h
    split at h
    · rename_i s' hs
      simp only [Host.Outcome.next.injEq] at h
      exact .inr (.inr (.inr (.inl ⟨_, _, _, _, _, _, _, _, _, _, s', rfl, hs, h.symm⟩)))
    · exact .inl (fin _ _ h)
    · cases h
  case irqEn en =>
    simp only [execIrqEn, Host.Outcome.next.injEq] at h
    exact .inr (.inr (.inl ⟨en, rfl, h.symm⟩))
  case rdFb =>
    unfold execRdFb at h
    split at h
    · cases h
    · split at h
      · exact .inl (fin _ _ h)
      · cases h
  case rdStatus => exact .inl (fin _ _ h)

/-- The fields no handler arm, completion action or bus turn writes: the framebuffer, the geometry,
`inited`, the parameters, and HOST's position. -/
abbrev SameDisplay (t s : State) : Prop :=
  t.fb = s.fb ∧ t.width = s.width ∧ t.height = s.height ∧ t.numPages = s.numPages ∧
  t.inited = s.inited ∧ t.openParams = s.openParams ∧ t.todo = s.todo

/-- A completion action writes no field of the display. -/
theorem invoke_display {s t : State} (h : invoke s = .next t) : SameDisplay t s := by
  rcases invoke_next h with ⟨-, h'⟩ | ⟨-, h'⟩ | ⟨-, h'⟩ | ⟨-, h'⟩
  · simp only [execCbHost, Host.Outcome.next.injEq] at h'
    subst h'; simp [SameDisplay]
  · rcases writePageStep_next h' with ⟨-, rfl⟩ | ⟨-, -, rfl⟩ <;> simp [SameDisplay]
  · rcases execCbSetPage_next h' with ⟨-, rfl⟩ | ⟨-, ha⟩
    · simp [SameDisplay]
    · obtain ⟨-, -, -, -, rfl⟩ := sched_accepted ha
      rw [buildSetPage_frame]; simp [SameDisplay]
  · simp only [execCbRelease, Host.Outcome.next.injEq] at h'
    subst h'; simp [SameDisplay]

/-- A handler arm writes no field of the display. -/
theorem exec_arm_display {i : Instr} {s t : State} (hi : i.cls = .arm) (h : exec i s = .next t) :
    SameDisplay t s := by
  have stop : endTransaction s = .next t → SameDisplay t s := fun hr =>
    invoke_display (s := { s with stopReq := true, fsm := fsmIdle }) hr
  cases i <;> simp only [Instr.cls, reduceCtorEq] at hi <;> simp only [exec] at h
  case evtIdle => exact stop h
  case evtStop => exact stop h
  case evtSlaveAddress =>
    simp only [execEvtSlaveAddress, Host.Outcome.next.injEq] at h
    subst h; simp [SameDisplay]
  case evtWritePrefix =>
    obtain ⟨-, b, -, rfl⟩ := execEvtWritePrefix_next h
    simp [SameDisplay]
  case evtWriteByte =>
    obtain ⟨-, b, -, rfl⟩ := execEvtWriteByte_next h
    simp [SameDisplay]

/-- A bus turn writes no field of the display. -/
theorem busStep_display (s : State) : SameDisplay (busStep s) s := by
  rcases busStep_cases s with ⟨-, he⟩ | ⟨-, he⟩ | ⟨-, he⟩ | ⟨-, -, -, he⟩ <;> rw [he] <;>
    simp [SameDisplay]

/-- The micro-steps of a `cmd_buf` write are `cmdByte`s. -/
theorem mem_cmdBytes {bs : List Byte} {k : Nat} {m : Micro} (h : m ∈ cmdBytes k bs) :
    ∃ j b, m = .cmdByte j b := by
  induction bs generalizing k with
  | nil => simp [cmdBytes] at h
  | cons b bs ih =>
    rcases List.mem_cons.1 h with rfl | h
    · exact ⟨k, b, rfl⟩
    · exact ih h

/-- The micro-steps of a drawing command are pixels of its list. -/
theorem mem_drawProgram {l : List (Nat × Nat)} {on : Bool} {m : Micro} (h : m ∈ drawProgram l on) :
    ∃ x y, (x, y) ∈ l ∧ m = .pixel x y on := by
  obtain ⟨q, hq, rfl⟩ := List.mem_map.1 h
  exact ⟨q.1, q.2, hq, rfl⟩

/-- The same outcome of a micro-step, with another list of micro-steps left. -/
def MicroOut.withTodo (td : List Micro) : MicroOut → MicroOut
  | .done s => .done { s with todo := td }
  | .hold => .hold
  | .raised s => .raised s
  | .fault r => .fault r
  | .refused r => .refused r

/-- The scheduler does not look at HOST's position. -/
theorem sched_withTodo (r : SchedReq) (s : State) (td : List Micro) :
    sched r { s with todo := td } =
      match sched r s with
      | .accepted s' => .accepted { s' with todo := td }
      | .busy => .busy
      | .refused why => .refused why := by
  have adm : ∀ a b c, runAdmitted { s with todo := td } a b c = runAdmitted s a b c :=
    fun _ _ _ => rfl
  unfold sched
  simp only [adm]
  split
  · rfl
  · split
    · rfl
    · split
      · rfl
      · split <;> rfl

/-- A micro-step does not look at HOST's position. -/
theorem runMicro_withTodo (m : Micro) (s : State) (td : List Micro) :
    runMicro m { s with todo := td } = (runMicro m s).withTodo td := by
  have size : State.fbSize { s with todo := td } = s.fbSize := rfl
  cases m <;> simp only [runMicro]
  case acquire => split <;> rfl
  case zeroByte => rw [size]; split <;> rfl
  case schedInit =>
    rw [show initReq { s with todo := td } = initReq s from rfl, sched_withTodo]
    cases sched (initReq s) s <;> rfl
  case schedCmd n cb =>
    rw [show cmdReq { s with todo := td } n cb = cmdReq s n cb from rfl, sched_withTodo]
    cases sched (cmdReq s n cb) s <;> rfl
  case pixel =>
    rw [size]
    split
    · split <;> rfl
    · rfl
  all_goals rfl

/-- Running micro-steps does not look at the position HOST had before. -/
theorem runTodo_withTodo (q : Option Nat) (ms : List Micro) (s : State) (td : List Micro) :
    runTodo q ms { s with todo := td } = runTodo q ms s := by
  induction ms generalizing q s with
  | nil => rfl
  | cons m ms ih =>
    rw [runTodo, runMicro_withTodo, runTodo]
    cases runMicro m s with
    | done s' =>
      simp only [MicroOut.withTodo]
      split
      · rfl
      · split
        · rfl
        · exact ih _ s'
    | hold => rfl
    | raised s' => rfl
    | fault r => rfl
    | refused r => rfl

end Sys2Proof.Machine
end

