-- ==== Sys2Proof/Laws/Run.lean ====
section
/-! SUPPORT. Runs of several steps: one step at a time, two runs one after the other, and the one
induction over a run. -/

namespace Sys2Proof.Machine

/-- A run of no step. -/
theorem run_zero (s : State) : Sys2Proof.core.run 0 s = .next s := rfl

/-- Of any machine: a run whose first step answers a next state. -/
theorem core_run_succ (M : Host.Core) (k : Nat) {s s' : M.State} (h : M.step s = .next s') :
    M.run (k + 1) s = M.run k s' := by
  rw [Host.Core.run, h]

/-- Of any machine: a run that reaches a next state took a first step. -/
theorem core_run_succ_next (M : Host.Core) (k : Nat) {s t : M.State} (h : M.run (k + 1) s = .next t) :
    ∃ s', M.step s = .next s' ∧ M.run k s' = .next t := by
  rw [Host.Core.run] at h
  split at h
  · exact ⟨_, ‹_›, h⟩
  · cases h
  · cases h

/-- A run whose first step answers a next state. -/
theorem run_succ {s s' : State} (k : Nat) (h : step s = .next s') :
    Sys2Proof.core.run (k + 1) s = Sys2Proof.core.run k s' :=
  core_run_succ Sys2Proof.core k h

/-- A run that reaches a next state took a first step. -/
theorem run_succ_next {s t : State} {k : Nat} (h : Sys2Proof.core.run (k + 1) s = .next t) :
    ∃ s', step s = .next s' ∧ Sys2Proof.core.run k s' = .next t :=
  core_run_succ_next Sys2Proof.core k h

/-- Two runs, one after the other. -/
theorem run_add {s u : State} (j k : Nat) (h : Sys2Proof.core.run j s = .next u) :
    Sys2Proof.core.run (j + k) s = Sys2Proof.core.run k u := by
  induction j generalizing s with
  | zero =>
    cases h
    rw [Nat.zero_add]
  | succ j ih =>
    obtain ⟨s', hs, hr⟩ := run_succ_next h
    rw [show j + 1 + k = (j + k) + 1 by omega, run_succ _ hs]
    exact ih hr

/-- What every step keeps holds after a run. -/
theorem run_induction (P : State → Prop) (hstep : ∀ s t, P s → step s = .next t → P t) (n : Nat)
    {s t : State} (hs : P s) (h : Sys2Proof.core.run n s = .next t) : P t := by
  induction n generalizing s with
  | zero => cases h; exact hs
  | succ n ih =>
    obtain ⟨s', hs', hr⟩ := run_succ_next h
    exact ih (hstep _ _ hs hs') hr

end Sys2Proof.Machine
end

