-- ==== Sys2Proof/Tests/Slice0.lean ====
section
/-! SUPPORT. The model's own tests. Expected values are copied from spec/95_test_vectors.md (V<n>, P<n>)
and from the examples inside the rules, or worked out by hand from a rule. The `test_witness_` theorems
show states and operands that meet the hypotheses of the statements of the same name. -/

namespace Sys2Proof.Machine

/-- What a step or an instruction that answers a next state leaves in one field. -/
def after {α : Type} (o : Out) (f : State → α) : Option α := (nextOf o).map f

/-- An initialised, idle display of 4 by 16 pixels (V2), interrupts enabled, not preempted. -/
def small : State :=
  { State.reset with width := 4#16, height := 16#16, numPages := 2#4, busAddr := 0x3C#7,
                     inited := true, irqEnable := true }

/-- The same with 16 by 16 pixels (V3). -/
def square : State :=
  { State.reset with width := 16#16, height := 16#16, numPages := 2#4, busAddr := 0x3C#7,
                     inited := true, irqEnable := true }

/-- P3's transaction in flight: one prefix byte, three payload bytes, CB_HOST. -/
def flight : State :=
  { small with fsm := 2#3, startReq := true, fb := [(0, 0x01#8), (1, 0x02#8), (2, 0x04#8)],
               txd := { addr := 0x3C#7, pfxSpace := 0#2, pfxOff := 0x10#16, pfxRem := 1#16,
                        paySpace := 2#2, payOff := 0#16, payRem := 3#16, cb := 1#4,
                        cbArg := 0xBEEF#16, fastFail := true } }

/-- The last event of that transaction is pending: its Stop arm is about to run. -/
def ending : State :=
  { flight with fsm := 1#3, startReq := false, wire := .started, evtPending := true,
                txd := { flight.txd with pfxOff := 0x11#16, pfxRem := 0#16, payOff := 3#16,
                                         payRem := 0#16 } }

/-- A HOST turn in the listed order, without preemption. -/
def hostTurn : Turn := .host { quantum := none, order := [] }

/-- `s` with one turn next. -/
def State.withTurn (s : State) (t : Turn) : State := { s with turns := [t] }

/-- `square` with the other reading of `LINE_OOB_RULE`. -/
def squareEndpoint : State :=
  { square with openParams := { square.openParams with lineOob := .perEndpoint } }

/-- The transaction of `flight` with its payload cursor past the end of `FB`. -/
def stale : State :=
  { flight with fsm := 4#3, startReq := false, wire := .started, evtPending := true,
                txd := { flight.txd with pfxRem := 0#16, payOff := 8#16, payRem := 1#16 } }

/-- HOST inside an INIT that makes 16 by 16 pixels into 4 by 8, two handle writes done. -/
def resizing : State :=
  { square with lock := .held, width := 4#16, height := 8#16, curPage := 2#4,
                fb := [(5, 1#8), (20, 2#8)],
                todo := (initProgram 0x3C#7 4#16 8#16 0#32).drop 3 }

/-- The host's commands of the test vectors. -/
def schedV12 : Instr :=
  .sched 0x3C#7 true 0x10#16 0#8 1#16 0#16 2#8 3#16 1#8 0xBEEF#16

/-! ### Well-formedness: an ill-formed term for each check -/

/-- V44b, R121. -/
theorem test_wf_init_width_zero :
    Instr.wf (.init 0x3C#7 0#16 16#16 0#32) = false := by decide

/-- V44b, R121. -/
theorem test_wf_init_width_above :
    Instr.wf (.init 0x3C#7 8192#16 8#16 0#32) = false := by decide

/-- R121. -/
theorem test_wf_init_height_zero :
    Instr.wf (.init 0x3C#7 4#16 0#16 0#32) = false := by decide

/-- V44b, R121. -/
theorem test_wf_init_height_no_multiple :
    Instr.wf (.init 0x3C#7 4#16 12#16 0#32) = false := by decide

/-- V44b, R121. -/
theorem test_wf_init_height_above :
    Instr.wf (.init 0x3C#7 4#16 72#16 0#32) = false := by decide

theorem test_wf_init_ok :
    Instr.wf (.init 0x3C#7 4#16 16#16 0#32) = true := by decide

/-- V36: `cb = 0`. -/
theorem test_wf_sched_null_cb :
    Instr.wf (.sched 0#7 true 0#16 0#8 0#16 0#16 0#8 0#16 0#8 0#16) = false := by decide

/-- V36: `cb = 5`. -/
theorem test_wf_sched_reserved_cb :
    Instr.wf (.sched 0#7 true 0#16 0#8 0#16 0#16 0#8 0#16 5#8 0#16) = false := by decide

/-- V37. -/
theorem test_wf_sched_prefix_span :
    Instr.wf (.sched 0#7 true 64#16 0#8 1#16 0#16 0#8 0#16 1#8 0#16) = false ∧
    Instr.wf (.sched 0#7 true 63#16 0#8 1#16 0#16 0#8 0#16 1#8 0#16) = true := by decide

/-- R81: `CMD` has 8 bytes. -/
theorem test_wf_sched_payload_span :
    Instr.wf (.sched 0#7 true 0#16 0#8 0#16 6#16 1#8 3#16 1#8 0#16) = false := by decide

/-- R81, V39. -/
theorem test_wf_sched_reserved_space :
    Instr.wf (.sched 0#7 true 0#16 3#8 1#16 0#16 0#8 0#16 1#8 0#16) = false ∧
    Instr.wf (.sched 0#7 true 0#16 0#8 0#16 0#16 7#8 0#16 1#8 0#16) = true := by decide

/-! ### Decoding: words written out from the encodings of the spec -/

/-- V1. -/
theorem test_decode_init :
    decodeCommand 0x000000000000000186A0004000803C01#128 =
      .instr (.init 0x3C#7 128#16 64#16 100000#32) := by rfl

/-- V6. -/
theorem test_decode_putPixel :
    decodeCommand 0x000000000000000000007FFF80000102#128 =
      .instr (.putPixel 1#8 (BitVec.ofInt 16 (-32768)) 32767#16) := by rfl

/-- V7. -/
theorem test_decode_putRect :
    decodeCommand 0x000000000000FFFD000A000500140303#128 =
      .instr (.putRect 3#8 20#16 5#16 10#16 (BitVec.ofInt 16 (-3))) := by rfl

/-- V8. -/
theorem test_decode_putLine :
    decodeCommand 0x0000000000000007000C000300020104#128 =
      .instr (.putLine 1#8 2#16 3#16 12#16 7#16) := by rfl

/-- V9. -/
theorem test_decode_refresh :
    decodeCommand 0x5#128 =
      .instr (.refresh) := by rfl

/-- V10. -/
theorem test_decode_setBright :
    decodeCommand 0x7F06#128 =
      .instr (.setBright 0x7F#8) := by rfl

/-- V11. -/
theorem test_decode_lockAcq :
    decodeCommand 0x7#128 =
      .instr (.lockAcq) := by rfl

/-- V11. -/
theorem test_decode_lockRel :
    decodeCommand 0x8#128 =
      .instr (.lockRel) := by rfl

/-- V12. -/
theorem test_decode_sched :
    decodeCommand 0x00BEEF0100030200000001000010BC09#128 =
      .instr (schedV12) := by rfl

/-- V14. -/
theorem test_decode_irqEn :
    decodeCommand 0x10A#128 =
      .instr (.irqEn true) := by rfl

/-- V14. -/
theorem test_decode_irqEn_zero :
    decodeCommand 0xA#128 =
      .instr (.irqEn false) := by rfl

/-- V15. -/
theorem test_decode_rdFb :
    decodeCommand 0x83000B#128 =
      .instr (.rdFb 131#16) := by rfl

/-- V16. -/
theorem test_decode_rdStatus :
    decodeCommand 0xC#128 =
      .instr (.rdStatus) := by rfl

/-- R72. -/
theorem test_decode_arms :
    [0#3, 1#3, 2#3, 3#3, 4#3].map decodeArm =
      [.instr .evtIdle, .instr .evtStop, .instr .evtSlaveAddress, .instr .evtWritePrefix,
       .instr .evtWriteByte] := by decide

/-- R73. -/
theorem test_decode_actions :
    [1#4, 2#4, 3#4, 4#4].map decodeAction =
      [.instr .cbHost, .instr .cbWritePage, .instr .cbSetPage, .instr .cbRelease] := by decide

/-- V17 to V22. -/
theorem test_decode_illegal :
    [0x0#128, 0xD#128, 0x105#128, 0x00000000000000000001000A00030102#128,
      0x1000000000048001#128, 0x01000000000000000000000000000009#128].map decodeCommand =
      [.reject .reservedOpcode, .reject .reservedOpcode, .reject .mustBeZero, .reject .mustBeZero,
       .reject .mustBeZero, .reject .mustBeZero] := by decide

/-- R72, R73. -/
theorem test_decode_reserved_codes :
    [5#3, 6#3, 7#3].map decodeArm = List.replicate 3 (.reject .reservedArm) ∧
    decodeAction 0#4 = .reject .nullAction ∧ decodeAction 5#4 = .reject .reservedAction ∧
    decodeAction 15#4 = .reject .reservedAction := by decide

/-- Not illegal at decode (V54). -/
theorem test_decode_bad_params :
    decodeCommand 0x300030402#128 = .instr (.putPixel 4#8 3#16 3#16) := by rfl

/-- V1, V12. -/
theorem test_encode_words :
    encode (.init 0x3C#7 128#16 64#16 100000#32) = .command 0x186A0004000803C01#128 ∧
    encode schedV12 = .command 0x00BEEF0100030200000001000010BC09#128 := by decide

/-- The rows of spec/opcode_table.json (log 19). -/
theorem test_decode_table_word :
    decodeTableWord 128 0x83000B = some (.rdFb 131#16) ∧
    decodeTableWord 8 3 = some .evtWritePrefix ∧ decodeTableWord 4 3 = some .cbSetPage := by decide

/-- R77, V12, V5. -/
theorem test_asm :
    Instr.asm schedV12 = "SCHED 60, 1, ROM:16, 1, FB:0, 3, CB_HOST, 48879" ∧
    Instr.asm (.putPixel 1#8 (BitVec.ofInt 16 (-1)) 0#16) = "PUT_PIXEL 1, -1, 0" := by decide

/-! ### Host commands -/

/-- R121: an IRQ step may fall between two handle writes. -/
theorem test_init_preempted :
    after (exec (.init 0x3C#7 4#16 8#16 9#32)
      { square with curPage := 2#4, choice := { quantum := some 2, order := [] } })
      (fun t => (t.width, t.height, t.numPages, t.curPage, t.busFreq, t.lock)) =
      some (4#16, 8#16, 2#4, 2#4, 0#32, .held) := by decide

/-- R39 (g), R121 (logs 5, 8). -/
theorem test_init_pages_keep_R39g :
    after (step (resizing.withTurn (.host { quantum := some 0, order := [] })))
      (fun t => (t.numPages, t.curPage, t.fb)) = some (1#4, 0#4, resizing.fb) ∧
    after (step (resizing.withTurn hostTurn)) (fun t => (t.fb, t.inited)) = some ([], true) := by decide

/-- R121, P4. -/
theorem test_init_geometry :
    after (exec (.init 0x3C#7 4#16 8#16 9#32) { State.reset with fb := [] })
      (fun t => (t.width, t.height, t.numPages, t.busAddr, t.busFreq, t.inited)) =
      some (4#16, 8#16, 1#4, 0x3C#7, 9#32, true) := by decide

/-- V44. -/
theorem test_init_busy :
    after (exec (.init 0x3C#7 4#16 16#16 0#32) flight)
      (fun t => (t.result, t.lock, t.fb, t.inited)) =
      some (3#32, .released, [], true) ∧
    after (exec (.init 0x3C#7 4#16 16#16 0#32) flight) (·.txd) = some flight.txd := by decide

/-- V53a. -/
theorem test_putPixel_sets :
    after (exec (.putPixel 1#8 15#16 15#16) square) (fun t => (t.fb, t.result)) =
      some ([(31, 0x80#8)], 0#32) := by decide

/-- V53b, V54a. -/
theorem test_putPixel_errors :
    after (exec (.putPixel 1#8 16#16 0#16) square) (·.result) = some 1#32 ∧
    after (exec (.putPixel 255#8 16#16 16#16) square) (·.result) = some 2#32 := by decide

/-- V65. -/
theorem test_putRect_outline :
    after (exec (.putRect 1#8 3#16 3#16 4#16 4#16) square) (·.fb) =
      some [(3, 0x18#8), (4, 0x18#8)] := by decide

/-- V67, V69. -/
theorem test_putRect_clamped :
    after (exec (.putRect 3#8 (BitVec.ofInt 16 (-5)) 2#16 (BitVec.ofInt 16 (-1)) 6#16) square)
      (·.fb) = some [(0, 0x7C#8)] ∧
    after (exec (.putRect 3#8 (BitVec.ofInt 16 (-1)) (BitVec.ofInt 16 (-1)) 16#16 16#16) square)
      (·.result) = some 1#32 := by decide

/-- V72, V74a. -/
theorem test_putLine_stair :
    linePixels (clampPoints 16 16 0#16 0#16 10#16 4#16) =
      [(0, 0), (1, 0), (2, 1), (3, 1), (4, 1), (5, 2), (6, 2), (7, 3), (8, 3), (9, 3), (10, 4)] ∧
    linePixels (clampPoints 16 16 0#16 4#16 10#16 0#16) =
      [(10, 0), (9, 0), (8, 1), (7, 1), (6, 1), (5, 2), (4, 2), (3, 3), (2, 3), (1, 3), (0, 4)] := by decide

/-- V87, V81. -/
theorem test_putLine_oob :
    after (exec (.putLine 1#8 5#16 20#16 5#16 30#16) square) (·.result) = some 1#32 ∧
    after (exec (.putLine 1#8 (BitVec.ofInt 16 (-2)) (BitVec.ofInt 16 (-3)) 5#16 5#16) square)
      (·.fb) = some [(0, 1#8), (1, 2#8), (2, 4#8), (3, 8#8), (4, 16#8), (5, 32#8)] := by decide

/-- R161's other reading. -/
theorem test_putLine_per_endpoint :
    after (exec (.putLine 1#8 (BitVec.ofInt 16 (-2)) (BitVec.ofInt 16 (-3)) 5#16 5#16) squareEndpoint)
      (·.result) = some 1#32 ∧
    after (exec (.putLine 1#8 5#16 20#16 5#16 30#16) squareEndpoint) (fun t => (t.result, t.fb)) =
      some (0#32, [(21, 0x80#8)]) := by decide

/-- P1. -/
theorem test_refresh_starts :
    after (exec .refresh small) (fun t => (t.cmdBuf.toList.take 6, t.txd.pfxRem, t.txd.cb, t.lock)) =
      some ([0x80#8, 0x00#8, 0x80#8, 0x10#8, 0x80#8, 0xB0#8], 6#16, 2#4, .held) := by decide

/-- P4. -/
theorem test_refresh_holds :
    after (exec .refresh { small with lock := .held }) (fun t => (t.todo.head?, t.fsm)) =
      some (some .acquire, 0#3) := by decide

/-- V43. -/
theorem test_setBright_starts :
    after (exec (.setBright 0x7F#8) small)
      (fun t => (t.cmdBuf.toList.take 4, t.txd.pfxRem, t.txd.cb, t.fsm)) =
      some ([0x80#8, 0x81#8, 0x80#8, 0x7F#8], 4#16, 4#4, 2#3) := by decide

/-- V45 to V52, lock vectors. -/
theorem test_lockAcq :
    after (exec .lockAcq small) (·.lock) = some .held ∧
    after (exec .lockAcq { small with lock := .held }) (·.todo) = some [.acquire] := by decide

/-- Lock vectors. -/
theorem test_lockRel :
    after (exec .lockRel small) (·.lock) = some .released ∧
    after (exec .lockRel { small with lock := .held }) (·.lock) = some .released := by decide

/-- P3. -/
theorem test_sched_starts :
    after (exec schedV12 small) (fun t => (t.txd, t.fsm, t.startReq)) =
      some (flight.txd, 2#3, true) := by decide

/-- P3. -/
theorem test_sched_busy :
    after (exec (.sched 0x3D#7 true 0#16 0#8 0#16 0#16 0#8 0#16 1#8 0x1234#16) flight)
      (fun t => (t.result, t.txd, t.fsm)) = some (3#32, flight.txd, 2#3) := by decide

/-- V38. -/
theorem test_sched_span :
    exec (.sched 0x3C#7 true 0#16 0#8 0#16 5#16 2#8 4#16 1#8 0#16) small = .refused .schedSpan ∧
    (after (exec (.sched 0x3C#7 true 0#16 0#8 0#16 4#16 2#8 4#16 1#8 0#16) small) (·.fsm)) =
      some 2#3 := ⟨rfl, by decide⟩

/-- R115. -/
theorem test_irqEn :
    after (exec (.irqEn true) State.reset) (·.irqEnable) = some true := by decide

/-- R144, V56. -/
theorem test_rdFb :
    after (exec (.rdFb 2#16) flight) (·.result) = some 0x00000400#32 ∧
    exec (.rdFb 32#16) square = .refused .readOutsideFb := ⟨by decide, rfl⟩

/-- V46, V49. -/
theorem test_rdStatus :
    after (exec .rdStatus { State.reset with irqEnable := true }) (·.result) = some 0x00002000#32 ∧
    after (exec .rdStatus { small with
      fsm := 3#3, lock := .held, txPending := true, wire := .started, numPages := 8#4 }) (·.result) = some 0x04053B00#32 := by decide

/-! ### Handler arms, completion actions, bus agent -/

/-- R90's example, P3. -/
theorem test_evtSlaveAddress :
    after (exec .evtSlaveAddress flight) (fun t => (t.dataOut, t.fsm, t.startReq)) =
      some (0x78#8, 3#3, false) := by decide

/-- P3. -/
theorem test_evtWritePrefix :
    after (exec .evtWritePrefix { flight with fsm := 3#3 })
      (fun t => (t.dataOut, t.txd.pfxOff, t.txd.pfxRem, t.fsm)) = some (0x40#8, 0x11#16, 0#16, 4#3) := by decide

/-- R92's example. -/
theorem test_evtWriteByte :
    after (exec .evtWriteByte { flight with fsm := 4#3, txd := { flight.txd with payOff := 2#16, payRem := 1#16 } })
      (fun t => (t.dataOut, t.txd.payOff, t.txd.payRem, t.fsm)) = some (0x04#8, 3#16, 0#16, 1#3) := by decide

/-- U19. -/
theorem test_stale_cursor :
    exec .evtWriteByte stale = .refused .staleFbCursor := rfl

/-- P3. -/
theorem test_evtStop :
    after (exec .evtStop ending) (fun t => (t.stopReq, t.fsm, t.doneLog, t.wire)) =
      some (true, 0#3, [0xBEEF#16], .started) := by decide

/-- R88, U11. -/
theorem test_evtIdle :
    exec .evtIdle State.reset = .fault .nullCallback ∧
    after (exec .evtIdle { ending with fsm := 0#3 }) (·.doneLog) = some [0xBEEF#16] := ⟨rfl, by decide⟩

/-- R96. -/
theorem test_cbHost :
    after (exec .cbHost flight) (·.doneLog) = some [0xBEEF#16] := by decide

/-- R125, P1. -/
theorem test_cbWritePage :
    after (exec .cbWritePage { small with curPage := 1#4 })
      (fun t => (t.txd.payOff, t.txd.payRem, t.txd.cb, t.curPage)) = some (4#16, 4#16, 3#4, 2#4) := by decide

/-- R127, P1. -/
theorem test_cbSetPage :
    after (exec .cbSetPage { small with curPage := 1#4 }) (fun t => (t.cmdBuf[5], t.txd.cb)) =
      some (0xB1#8, 2#4) ∧
    after (exec .cbSetPage { small with curPage := 2#4, lock := .held }) (·.lock) = some .released := by decide

/-- R128. -/
theorem test_cbRelease :
    after (exec .cbRelease { small with lock := .held }) (·.lock) = some .released := by decide

/-- R101, R102. -/
theorem test_bus_start_waits_for_stop :
    after (step ({ flight with stopReq := true, wire := .started }.withTurn .bus))
      (fun t => (t.wireLog, t.evtPending, t.wire)) = some ([.stop], false, .free) := by decide

/-- R103. -/
theorem test_bus_byte :
    after (step ({ flight with
      fsm := 3#3, startReq := false, txPending := true, wire := .started, dataOut := 0x78#8 }.withTurn .bus))
      (fun t => (t.wireLog, t.txPending, t.evtPending)) = some ([.byte 0x78#8], false, true) := by decide

/-- R60, R115. -/
theorem test_step_runs_port :
    after (step { State.reset with cmdPort := [0x10A#128], turns := [hostTurn] })
      (fun t => (t.irqEnable, t.cmdPort, t.result)) = some (true, [], 0#32) := by decide

/-- V17. -/
theorem test_step_illegal :
    step { State.reset with cmdPort := [0x0#128], turns := [hostTurn] } =
      .refused (.illegalWord .reservedOpcode) := rfl

/-- R111, R60. -/
theorem test_fetch_word_command :
    after (step (State.reset.withFetchWord 128 0x7)) (·.lock) = some .held := by decide

/-- R90 with both runs empty; R96 with the null callback of reset. -/
theorem test_fetch_word_arm :
    after (step (State.reset.withFetchWord 8 2)) (·.fsm) = some 1#3 ∧
    step (State.reset.withFetchWord 8 1) = .fault .nullCallback := ⟨by decide, rfl⟩

/-- R96. -/
theorem test_fetch_word_action :
    after (step (State.reset.withFetchWord 4 1)) (·.doneLog) = some [0#16] := by decide

/-! ### Witnesses: the hypotheses of the statements can be met -/

theorem test_witness_IllegalWordIffReserved :
    let s : State := { small with turns := [hostTurn], cmdPort := [0xD#128] }
    s.turns = .host { quantum := none, order := [] } :: [] ∧ s.todo = [] ∧ s.cmdPort = 0xD#128 :: [] ∧
      decodeCommand 0xD#128 = .reject .reservedOpcode := by decide

theorem test_witness_StepRunsDecodedCommand :
    let s : State := { small with turns := [hostTurn], cmdPort := [5#128] }
    s.turns = .host { quantum := none, order := [] } :: [] ∧ s.todo = [] ∧ s.cmdPort = 5#128 :: [] ∧
      decodeCommand 5#128 = .instr .refresh := by decide

theorem test_witness_StepRunsSelectedArm :
    (ending.withTurn .irq).turns = .irq :: [] ∧ ending.evtPending = true ∧ ending.irqEnable = true ∧
    decodeArm ending.fsm = .instr .evtStop ∧ 4 < ({ ending with fsm := 5#3 } : State).fsm.toNat := by decide

theorem test_witness_AgentWithoutEnabledStepHolds :
    (small.withTurn .irq).turns = .irq :: [] ∧ (small.withTurn .irq).evtPending = false ∧
    (small.withTurn .bus).turns = .bus :: [] ∧ small.stopReq = false ∧ small.startReq = false ∧
    small.txPending = false ∧
    (small.withTurn hostTurn).turns = .host { quantum := none, order := [] } :: [] ∧
    small.todo = [] ∧ small.cmdPort = [] := by decide

theorem test_witness_PreemptedCommandResumes :
    after (runTodo (some 1) (refreshProgram small.openParams) small) (fun t => decide (t.todo = setPageProgram small.openParams)) =
      some true ∧ setPageProgram small.openParams ≠ [] := by decide

theorem test_witness_LockAcqTakesOrHolds :
    small.lock = .released ∧ ({ small with lock := .held } : State).lock = .held := by decide

/-- The last byte and the first one outside. -/
theorem test_witness_RdFbReturnsTheByte :
    small.inited = true ∧ (7#16).toNat < small.width.toNat * small.numPages.toNat ∧
    State.reset.inited = false ∧ small.width.toNat * small.numPages.toNat ≤ (8#16).toNat := by decide

/-- The corner pixel, and the coordinates just outside. -/
theorem test_witness_PutPixelWritesOneBit :
    State.reset.inited = false ∧ small.inited = true ∧ 3 < (4#8).toNat ∧ Legal small ∧
    small.fb.wf ∧ (3#8).toNat ≤ 3 ∧ Outside 4#16 small.width.toNat ∧
    Outside (BitVec.ofInt 16 (-1)) small.height.toNat ∧ ¬Outside 3#16 small.width.toNat ∧
    ¬Outside 15#16 small.height.toNat := by decide

theorem test_witness_PutPixelReadsBack :
    flight.inited = true ∧ Legal flight ∧ flight.fb.wf ∧ (1#8).toNat ≤ 3 ∧
    ¬Outside 0#16 flight.width.toNat ∧ ¬Outside 15#16 flight.height.toNat ∧
    ((3 : Nat), (15 : Nat)) ≠ ((0#16).toNat, (15#16).toNat) := by decide

theorem test_witness_PutRectErrors :
    State.reset.inited = false ∧ small.inited = true ∧ 3 < (255#8).toNat ∧ Legal small ∧
    (0#8).toNat ≤ 3 ∧ Outside 4#16 small.width.toNat ∧ Outside 16#16 small.height.toNat ∧
    Outside (BitVec.ofInt 16 (-32768)) small.width.toNat ∧ Outside 32767#16 small.height.toNat := by decide

/-- Three coordinates outside, one just inside. -/
theorem test_witness_FilledRectPaintsItsBox :
    small.inited = true ∧ Legal small ∧ small.fb.wf ∧ (3#8).toNat ≤ 3 ∧
    (3#8).getLsbD 1 = true ∧
    ¬(Outside 4#16 small.width.toNat ∧ Outside 16#16 small.height.toNat ∧
      Outside (BitVec.ofInt 16 (-1)) small.width.toNat ∧ Outside 15#16 small.height.toNat) ∧
    NotPreempted small := by decide

theorem test_witness_OutlineRectPaintsItsPerimeter :
    small.inited = true ∧ Legal small ∧ small.fb.wf ∧ (1#8).toNat ≤ 3 ∧
    (1#8).getLsbD 1 = false ∧
    ¬(Outside 0#16 small.width.toNat ∧ Outside 16#16 small.height.toNat ∧
      Outside 4#16 small.width.toNat ∧ Outside 16#16 small.height.toNat) ∧ NotPreempted small := by decide

theorem test_witness_PutLineErrors :
    State.reset.inited = false ∧ small.inited = true ∧ 3 < (4#8).toNat ∧ Legal small ∧
    (2#8).toNat ≤ 3 ∧ Outside 4#16 small.width.toNat ∧
    Outside (BitVec.ofInt 16 (-1)) small.width.toNat ∧ Outside 16#16 small.height.toNat ∧
    Outside 17#16 small.height.toNat ∧ small.openParams.lineOob = .perAxis ∧
    squareEndpoint.inited = true ∧ Legal squareEndpoint ∧
    squareEndpoint.openParams.lineOob = .perEndpoint := by decide

theorem test_witness_PutLinePaintsTheLine :
    small.inited = true ∧ Legal small ∧ small.fb.wf ∧ (3#8).toNat ≤ 3 ∧
    ¬(Outside (BitVec.ofInt 16 (-1)) small.width.toNat ∧ Outside 3#16 small.width.toNat) ∧
    ¬(Outside 15#16 small.height.toNat ∧ Outside 16#16 small.height.toNat) ∧ NotPreempted small ∧
    squareEndpoint.inited = true ∧ squareEndpoint.openParams.lineOob = .perEndpoint ∧
    ¬(Outside (BitVec.ofInt 16 (-1)) squareEndpoint.width.toNat ∧
      Outside 15#16 squareEndpoint.height.toNat) ∧
    ¬(Outside 16#16 squareEndpoint.width.toNat ∧ Outside 0#16 squareEndpoint.height.toNat) := by decide

theorem test_witness_StairRunsAreEven :
    1 ≤ 1 ∧ 1 < 2 ∧ (0 : Nat) < 1 := by decide

theorem test_witness_DrawingStaysInsideTheFramebuffer :
    small.inited = true ∧ Legal small ∧ small.fb.wf ∧
    (Instr.putLine 1#8 0#16 0#16 3#16 15#16 = .putRect 1#8 0#16 0#16 3#16 15#16 ∨
      Instr.putLine 1#8 0#16 0#16 3#16 15#16 = .putLine 1#8 0#16 0#16 3#16 15#16) := by decide

theorem test_witness_DrawingOrderDoesNotMatter :
    flight.inited = true ∧ Legal flight ∧ flight.fb.wf ∧ ([] : List Nat) ≠ [1, 2] := by decide

theorem test_witness_ClearClearsEveryPixel :
    flight.inited = true ∧ Legal flight ∧ flight.fb.wf ∧ NotPreempted flight := by decide

/-- V37, V38, V39: the largest admitted runs. -/
theorem test_witness_SchedStartsATransaction :
    1 ≤ (4#8).toNat ∧ (4#8).toNat ≤ 4 ∧ RunOk small 0#8 63#16 1#16 ∧ RunOk small 2#8 0#16 8#16 ∧
    RunOk small 7#8 9#16 0#16 ∧ RunOk small 1#8 0#16 8#16 ∧ small.fsm = 0#3 := by decide

theorem test_witness_SchedWhileBusyChangesNothing :
    1 ≤ (1#8).toNat ∧ (1#8).toNat ≤ 4 ∧ RunOk flight 0#8 0#16 0#16 ∧ RunOk flight 2#8 4#16 4#16 ∧
    flight.fsm ≠ 0#3 := by decide

theorem test_witness_SchedIsRefusedOutsideItsContract :
    (0#8).toNat = 0 ∧ 4 < (5#8).toNat ∧ ¬RunOk small 0#8 64#16 1#16 ∧ ¬RunOk small 3#8 0#16 1#16 ∧
    ¬RunOk small 2#8 5#16 4#16 ∧ ¬RunOk small 1#8 8#16 1#16 ∧ flight.fsm ≠ 0#3 ∧
    RunOk flight 0#8 0#16 0#16 := by decide

theorem test_witness_WritePrefixArm :
    ending.txd.pfxRem = 0#16 ∧ flight.txd.pfxRem ≠ 0#16 ∧
    memRead flight flight.txd.pfxSpace flight.txd.pfxOff.toNat = some 0x40#8 := by decide

theorem test_witness_WriteByteArm :
    ending.txd.payRem = 0#16 ∧ flight.txd.payRem ≠ 0#16 ∧
    memRead flight flight.txd.paySpace flight.txd.payOff.toNat = some 0x01#8 := by decide

/-- The edges of every region (R41 to R43). -/
theorem test_witness_ReadsOfTheThreeSpaces :
    memRead flight 0#2 63 = some 0x00#8 ∧ memRead flight 0#2 64 = none ∧
    memRead flight 0#2 11 = some 0xA7#8 ∧ memRead flight 0#2 12 = some 0x00#8 ∧
    memRead flight 0#2 0x1D = some 0xB0#8 ∧ memRead flight 0#2 0x21 = some 0x81#8 ∧
    memRead flight 1#2 7 = some 0x00#8 ∧ memRead flight 1#2 8 = none ∧
    memRead flight 2#2 2 = some 0x04#8 ∧ memRead flight 2#2 7 = some 0x00#8 ∧
    memRead flight 2#2 8 = none ∧ memRead flight 3#2 0 = none ∧
    ParamsOk flight.openParams ∧ stale.txd.payRem ≠ 0#16 ∧
    memRead stale stale.txd.paySpace stale.txd.payOff.toNat = none ∧
    (let s : State := { flight with txd := { flight.txd with pfxOff := 64#16 } }
     s.txd.pfxRem ≠ 0#16 ∧ memRead s s.txd.pfxSpace s.txd.pfxOff.toNat = none) := by decide

theorem test_witness_StopAndIdleArmsEndTheTransaction :
    ending.txd.cb = 1#4 ∧ State.reset.txd.cb = 0#4 ∧
    4 < ({ ending.txd with cb := 5#4 } : Txd).cb.toNat ∧
    4 < ({ ending.txd with cb := 15#4 } : Txd).cb.toNat := by decide

theorem test_witness_WritePageActionSendsThePage :
    ({ small with curPage := 2#4 } : State).curPage = small.numPages ∧
    ({ small with curPage := 1#4 } : State).curPage.toNat < small.numPages.toNat ∧ Legal small ∧
    small.fsm = 0#3 := by decide

theorem test_witness_SetPageActionSendsThePageAddress :
    ({ small with curPage := 2#4 } : State).curPage = small.numPages ∧
    small.curPage ≠ small.numPages ∧ small.fsm = 0#3 ∧
    ParamsOk small.openParams := by decide

/-- The largest geometry. -/
theorem test_witness_InitConfiguresAndSchedules :
    1 ≤ (8191#16).toNat ∧ (8191#16).toNat ≤ 8191 ∧ (64#16).toNat % 8 = 0 ∧ 8 ≤ (64#16).toNat ∧
    (64#16).toNat ≤ 64 ∧ State.reset.lock = .released ∧ State.reset.fsm = 0#3 ∧
    State.reset.fb.wf ∧ NotPreempted State.reset ∧ ParamsOk State.reset.openParams := by decide

theorem test_witness_InitWhileBusyOrIllegal :
    ParamsOk flight.openParams ∧ flight.lock = .released ∧ flight.fsm ≠ 0#3 ∧ flight.fb.wf ∧ NotPreempted flight ∧
    8191 < (8192#16).toNat ∧ (12#16).toNat % 8 ≠ 0 ∧ 64 < (72#16).toNat ∧ 1 ≤ (1#16).toNat ∧
    (8#16).toNat % 8 = 0 ∧ 8 ≤ (8#16).toNat := by decide

theorem test_witness_RefreshStartsTheChain :
    ParamsOk small.openParams ∧ small.inited = true ∧ small.lock = .released ∧ small.fsm = 0#3 ∧ NotPreempted small := by decide

theorem test_witness_SetBrightSendsTheLevel :
    ParamsOk flight.openParams ∧ flight.inited = true ∧ flight.lock = .released ∧ ({ flight with fsm := 0#3 } : State).fsm = 0#3 ∧
    NotPreempted flight := by decide

theorem test_witness_LockingCommandsHoldAtTheAcquire :
    ({ small with lock := .held } : State).lock = .held ∧ small.inited = true ∧
    legalGeometry (1#16).toNat (8#16).toNat = true := by decide

/-- Held with the engine busy, and going on once it is Idle. -/
theorem test_witness_RefreshAndBrightWaitForTheEngine :
    flight.inited = true ∧ ParamsOk flight.openParams ∧ flight.lock = .released ∧
    flight.fsm ≠ 0#3 ∧ NotPreempted flight ∧
    (let s : State := { small with turns := [hostTurn], todo := [.schedCmd 6 2#8] }
     s.turns = .host { quantum := none, order := [] } :: [] ∧
       s.todo = [.schedCmd s.openParams.setpageSeq.length 2#8] ∧ ParamsOk s.openParams ∧
       s.fsm = 0#3) ∧
    (let s : State := { flight with turns := [hostTurn], todo := [.schedCmd 4 4#8] }
     s.turns = .host { quantum := none, order := [] } :: [] ∧
       s.todo = [.schedCmd s.openParams.brightSeq.length 4#8] ∧ ParamsOk s.openParams ∧
       s.fsm ≠ 0#3) := by decide

theorem test_witness_CommandsBeforeInitAreRefused :
    State.reset.inited = false := by decide

theorem test_witness_BusStepsDriveTheWire :
    (flight.withTurn .bus).turns = .bus :: [] ∧ flight.startReq = true ∧ flight.stopReq = false ∧ flight.wire = .free ∧
    flight.evtPending = false ∧ ({ flight with stopReq := true } : State).stopReq = true ∧
    flight.txPending = false ∧
    ({ ending with evtPending := false, txPending := true } : State).txPending = true ∧
    ending.wire = .started := by decide

theorem test_witness_HandlerFrame :
    Instr.cls .evtStop ≠ .command ∧ (nextOf (exec .evtStop ending)).isSome = true ∧
    Instr.cls .cbSetPage ≠ .command ∧ (nextOf (exec .cbSetPage small)).isSome = true := by decide

theorem test_witness_CommandFrame :
    Instr.cls schedV12 = .command ∧ (nextOf (exec schedV12 small)).isSome = true ∧
    (resizing.withTurn hostTurn).turns = .host { quantum := none, order := [] } :: [] ∧
    resizing.todo ≠ [] ∧ (nextOf (step (resizing.withTurn hostTurn))).isSome = true := by decide

theorem test_witness_NothingAbortsATransaction :
    after (exec .evtStop ending) (·.fsm) = some 0#3 ∧ ending.fsm ≠ 0#3 := by decide

theorem test_witness_WhoTakesAndWhoReleasesTheLock :
    small.lock = .released ∧ after (exec .lockAcq small) (·.lock) = some .held ∧
    after (exec .lockRel { small with lock := .held }) (·.lock) = some .released := by decide

theorem test_witness_EveryStepKeepsTheEngineInvariant :
    EngineInv (ending.withTurn .irq) ∧ (nextOf (step (ending.withTurn .irq))).isSome = true := by decide

theorem test_witness_ReachableStatesMeetR39 :
    (nextOf (Sys2Proof.core.run 1 { State.reset with turns := [hostTurn], cmdPort := [7#128] })).isSome =
      true := by decide

/-- Between commands, and inside an INIT with old bytes beyond the new size. -/
theorem test_witness_EveryStepKeepsTheFramebufferCanonical :
    FbInv (flight.withTurn .bus) ∧ (nextOf (step (flight.withTurn .bus))).isSome = true ∧
    FbInv (resizing.withTurn hostTurn) ∧ (nextOf (step (resizing.withTurn hostTurn))).isSome = true ∧
    flight.todo = [] := by
  refine ⟨⟨by decide, trivial, .inr (by decide)⟩, by decide, ⟨by decide, ?_, .inl (by decide)⟩,
    by decide, rfl⟩
  simp [State.withTurn, resizing, initProgram, List.range, List.range.loop, todoResizes, Micro.resizes]

theorem test_witness_EveryStepKeepsTheGeometryLegal :
    GeometryInv (ending.withTurn .irq) ∧ (nextOf (step (ending.withTurn .irq))).isSome = true ∧
    GeometryInv (resizing.withTurn hostTurn) ∧
    (nextOf (step (resizing.withTurn hostTurn))).isSome = true ∧ ending.todo = [] ∧
    ending.inited = true := by
  refine ⟨⟨by decide, by decide, trivial, .inl (by decide), fun _ => by decide⟩, by decide,
    ⟨by decide, by decide, ?_, .inl (by decide), fun _ => by decide⟩, by decide, rfl, rfl⟩
  simp [State.withTurn, resizing, initProgram, List.range, List.range.loop, todoGeometry,
    geometryAfter]

theorem test_witness_CursorsStayInsideTheirSpaces :
    Descriptor (flight.withTurn .bus) ∧ CursorInv (flight.withTurn .bus) ∧
    (nextOf (step (flight.withTurn .bus))).isSome = true ∧
    after (step (flight.withTurn .bus)) State.fbSize = some (flight.withTurn .bus).fbSize ∧
    GeometryInv (flight.withTurn .bus) := by
  refine ⟨by decide, by decide, by decide, by decide, by decide, by decide, trivial, .inl (by decide),
    fun _ => by decide⟩

theorem test_witness_HandlerAlwaysCompletes :
    EngineInv (ending.withTurn .irq) ∧ CursorInv (ending.withTurn .irq) ∧
    ParamsOk (ending.withTurn .irq).openParams ∧ (ending.withTurn .irq).turns = .irq :: [] ∧
    GeometryInv (ending.withTurn .irq) := by
  refine ⟨by decide, by decide, by decide, by decide, by decide, by decide, trivial, .inl (by decide),
    fun _ => by decide⟩

theorem test_witness_QuiescentBlockStaysPut :
    Quiescent (small.withTurn .irq) ∧ (small.withTurn .irq).turns = .irq :: [] := by decide

theorem test_witness_LockDeadlockIsForEver :
    let s : State := { small with todo := [.acquire], lock := .held }
    s.todo = .acquire :: [] ∧ s.lock = .held ∧ s.fsm = 0#3 ∧ s.startReq = false ∧
      s.stopReq = false ∧ s.txPending = false ∧ s.evtPending = false := by decide

/-- P3's first transaction. -/
theorem test_witness_TransactionRunsToItsStop :
    let s : State := { flight with turns := pulses 6 ++ [.bus] }
    s.fsm = 2#3 ∧ s.startReq = true ∧ s.txPending = false ∧ s.evtPending = false ∧
      (s.stopReq = false ∧ s.wire = .free) ∧ s.irqEnable = true ∧ s.txd.cb = 1#4 ∧
      [0x40#8].length = s.txd.pfxRem.toNat ∧
      [0x01#8, 0x02#8, 0x04#8].length = s.txd.payRem.toNat ∧
      s.txd.pfxOff.toNat + 1 ≤ 65536 ∧ s.txd.payOff.toNat + 3 ≤ 65536 ∧
      (∀ k, k < 1 → memRead s s.txd.pfxSpace (s.txd.pfxOff.toNat + k) = [0x40#8][k]?) ∧
      (∀ k, k < 3 → memRead s s.txd.paySpace (s.txd.payOff.toNat + k) =
        [0x01#8, 0x02#8, 0x04#8][k]?) ∧
      s.turns = pulses (1 + 3 + 2) ++ .bus :: [] := by decide

/-- A prefix-only transaction with CB_RELEASE, the last STOP still pending. -/
theorem test_witness_TransactionRunsToItsStop_release :
    let s : State :=
      { flight with stopReq := true, wire := .started, turns := pulses 3 ++ [.bus],
                    txd := { flight.txd with payRem := 0#16, cb := 4#4 } }
    s.fsm = 2#3 ∧ s.startReq = true ∧ s.txPending = false ∧ s.evtPending = false ∧
      (s.stopReq = true ∧ s.wire = .started) ∧ s.irqEnable = true ∧ s.txd.cb = 4#4 ∧
      [0x40#8].length = s.txd.pfxRem.toNat ∧ ([] : List Byte).length = s.txd.payRem.toNat ∧
      s.txd.pfxOff.toNat + 1 ≤ 65536 ∧ s.txd.payOff.toNat ≤ 65536 ∧
      (∀ k, k < 1 → memRead s s.txd.pfxSpace (s.txd.pfxOff.toNat + k) = [0x40#8][k]?) ∧
      s.turns = pulses (1 + 0 + 2) ++ .bus :: [] := by decide

theorem test_witness_RefreshSendsEveryPageInOrder :
    let s : State :=
      { small with cmdPort := [0x05#128],
                   turns := hostTurn :: pulses (refreshIrqSteps small) ++ [.bus] }
    Quiescent s ∧ s.inited = true ∧ Legal s ∧ ParamsOk s.openParams ∧ s.irqEnable = true ∧ s.cmdPort = 0x05#128 :: [] ∧
      s.turns = .host { quantum := none, order := [] } ::
        pulses (refreshIrqSteps s) ++ .bus :: [] := by decide

end Sys2Proof.Machine
end

/-! PROOFS. Scope (00_scope.md): a preempted command resumes, and what one turn of an agent does: a
HOST turn runs the next command of the port, an agent without an enabled step holds. -/

namespace Sys2Proof.Machine

/-! ### Preempting and resuming a command (R6, R188) -/

/-- With micro-steps `ms` left in state `s`, running on without preemption answers `o`; with none left
the command is over, and nothing is claimed. -/
def RunsOnTo (o : Out) (ms : List Micro) (s : State) : Prop := ms ≠ [] → runTodo none ms s = o

/-- A micro-step that has its effect does not change what running on answers. -/
theorem RunsOnTo.tail {o : Out} {m : Micro} {ms : List Micro} {s s' : State}
    (hr : RunsOnTo o (m :: ms) s) (hm : runMicro m s = .done s') : RunsOnTo o ms s' := fun hms =>
  calc runTodo none ms s' = runTodo none (m :: ms) s := (runTodo_none_cons hm hms).symm
    _ = o := hr (List.cons_ne_nil m ms)

/-- Recording in `todo` what is left of a command does not change what running on answers. -/
theorem RunsOnTo.stop {o : Out} {ms : List Micro} {s : State} (hr : RunsOnTo o ms s) :
    RunsOnTo o ms { s with todo := ms } := fun hms =>
  (runTodo_withTodo none ms s ms).trans (hr hms)

/-- A command that is over has nothing to run on. -/
theorem runsOnTo_of_todo_nil (o : Out) {s : State} (hs : s.todo = []) : RunsOnTo o s.todo s :=
  fun hne => absurd hs hne

/-- Wherever a run of micro-steps stops inside a command, at a preemption point or at a hold, running
on from there answers what the run without preemption answers. -/
theorem runTodo_resume {q : Option Nat} {ms : List Micro} {s t : State}
    (h : runTodo q ms s = .next t) : RunsOnTo (runTodo none ms s) t.todo t := by
  refine runTodo_induction (RunsOnTo (runTodo none ms s))
    (fun u => RunsOnTo (runTodo none ms s) u.todo u) ?done ?raise ?stop ?finish ms q s t ?start h
  case done => exact fun m ms' u u' hr hm => hr.tail hm
  case raise =>
    intro m ms' u u' _ hm
    obtain ⟨-, -, rfl⟩ := runMicro_raised hm
    exact runsOnTo_of_todo_nil _ (State.finish_todo _ _ _)
  case stop => exact fun ms' u hr => hr.stop
  case finish => exact fun u _ => runsOnTo_of_todo_nil _ (State.finish_todo _ _ _)
  case start => exact fun _ => rfl

/-- Settles O9: the run up to the stop and the run from there on are one unpreempted run, by the
induction over the micro-steps. -/
theorem preemptedCommandResumes : Obligations.PreemptedCommandResumes := by
  intro n ms s t h ht
  exact runTodo_resume h ht

/-! ### One turn of each agent (R5, R50) -/

/-- Consuming the turn at the head of the list. -/
theorem passTurn_of_turns {s : State} {t : Turn} {ts : List Turn} (ht : s.turns = t :: ts) :
    s.passTurn = { s with turns := ts, tick := s.tick + 1 } := by
  rw [State.passTurn, ht, List.tail_cons]

/-- Consuming a HOST turn at the head of the list. -/
theorem hostTurn_of_turns {s : State} {h : HostTurn} {t : Turn} {ts : List Turn}
    (ht : s.turns = t :: ts) :
    s.hostTurn h = { s with turns := ts, tick := s.tick + 1, choice := h } := by
  rw [State.hostTurn, passTurn_of_turns ht]

/-- The turn at the head of the list says which agent moves. -/
theorem turnOf_of_turns {s : State} {t : Turn} {ts : List Turn} (ht : s.turns = t :: ts) :
    turnOf s = t := by
  rw [turnOf, ht]

/-- A HOST turn. -/
theorem step_of_host {s : State} {h : HostTurn} {ts : List Turn} (ht : s.turns = .host h :: ts) :
    step s = (hostFetch (s.hostTurn h)).outcome := by
  rw [step_eq, fetch, turnOf_of_turns ht, State.hostTurn]

/-- An IRQ turn. -/
theorem step_of_irq {s : State} {ts : List Turn} (ht : s.turns = .irq :: ts) :
    step s = (irqFetch s.passTurn).outcome := by
  rw [step_eq, fetch, turnOf_of_turns ht]

/-- A BUS turn. -/
theorem step_of_bus {s : State} {ts : List Turn} (ht : s.turns = .bus :: ts) :
    step s = .next (busStep s.passTurn) := by
  rw [step_eq, fetch, turnOf_of_turns ht, Fetched.outcome]

/-- Between commands HOST takes the next word of the port and runs the command it decodes to. -/
theorem hostFetch_word {u : State} {w : CmdWord} {ws : List CmdWord} {i : Instr}
    (htodo : u.todo = []) (hport : u.cmdPort = w :: ws) (hw : decodeCommand w = .instr i) :
    hostFetch u = .run i { u with cmdPort := ws } := by
  simp [hostFetch, htodo, hport, decodeBytes_word, hw]

/-- Between commands, with no word in the port, HOST holds. -/
theorem hostFetch_hold {u : State} (htodo : u.todo = []) (hport : u.cmdPort = []) :
    hostFetch u = .answer (.next u) := by
  simp [hostFetch, htodo, hport]

/-- With no event to take, IRQ holds (R87). -/
theorem irqFetch_hold {u : State} (hr : irqReady u = false) : irqFetch u = .answer (.next u) := by
  simp [irqFetch, hr]

/-- When an IRQ step is not enabled (R87). -/
theorem irqReady_eq_false_iff (s : State) :
    irqReady s = false ↔ s.evtPending = false ∨ s.irqEnable = false := by
  rw [irqReady, Bool.and_eq_false_iff]

/-- The wire is Free or Started (R22), so not Free is Started. -/
theorem wire_ne_free_iff (w : Wire) : w ≠ .free ↔ w = .started := by cases w <;> decide

/-- The wire is Free or Started (R22), so not Started is Free. -/
theorem wire_ne_started_iff (w : Wire) : w ≠ .started ↔ w = .free := by cases w <;> decide

/-- When BUS.STOP is not enabled (R101). -/
theorem busStopReady_eq_false_iff (s : State) :
    busStopReady s = false ↔ s.stopReq = false ∨ s.txPending = true := by
  rw [busStopReady, Bool.and_eq_false_iff, Bool.not_eq_false']

/-- When BUS.START is not enabled (R102). -/
theorem busStartReady_eq_false_iff (s : State) :
    busStartReady s = false ↔
      s.startReq = false ∨ s.stopReq = true ∨ s.wire = .started ∨ s.evtPending = true := by
  simp only [busStartReady, Bool.and_eq_false_iff, Bool.not_eq_false', decide_eq_false_iff_not,
    wire_ne_free_iff, or_assoc]

/-- When BUS.BYTE is not enabled (R103). -/
theorem busByteReady_eq_false_iff (s : State) :
    busByteReady s = false ↔ s.txPending = false ∨ s.wire = .free ∨ s.evtPending = true := by
  simp only [busByteReady, Bool.and_eq_false_iff, Bool.not_eq_false', decide_eq_false_iff_not,
    wire_ne_started_iff, or_assoc]

/-- With none of its three steps enabled, BUS holds (R100). -/
theorem busStep_hold {s : State} (hstop : busStopReady s = false) (hstart : busStartReady s = false)
    (hbyte : busByteReady s = false) : busStep s = s := by
  simp [busStep, hstop, hstart, hbyte]

/-- Settles O6: the turn is HOST's, the port gives the word, and the word read through its 16 bytes
decodes as the word itself. -/
theorem stepRunsDecodedCommand : Obligations.StepRunsDecodedCommand := by
  intro s h ts w ws i hturn htodo hport hw
  have hfetch : hostFetch (s.hostTurn h) = .run i { s.hostTurn h with cmdPort := ws } :=
    hostFetch_word htodo hport hw
  rw [step_of_host hturn, hfetch, Fetched.outcome, hostTurn_of_turns hturn]

/-- Settles O8, agent by agent: without an enabled step each of the three holds. -/
theorem agentWithoutEnabledStepHolds : Obligations.AgentWithoutEnabledStepHolds := by
  refine fun s ts => ⟨fun hturn hidle => ?irq, fun hturn hstop hstart hbyte => ?bus,
    fun h hturn htodo hport => ?host⟩
  case irq =>
    have hfetch : irqFetch s.passTurn = .answer (.next s.passTurn) :=
      irqFetch_hold ((irqReady_eq_false_iff s.passTurn).2 hidle)
    rw [step_of_irq hturn, hfetch, Fetched.outcome, passTurn_of_turns hturn]
  case bus =>
    have hbus : busStep s.passTurn = s.passTurn :=
      busStep_hold ((busStopReady_eq_false_iff s.passTurn).2 hstop)
        ((busStartReady_eq_false_iff s.passTurn).2 hstart)
        ((busByteReady_eq_false_iff s.passTurn).2 hbyte)
    rw [step_of_bus hturn, hbus, passTurn_of_turns hturn]
  case host =>
    have hfetch : hostFetch (s.hostTurn h) = .answer (.next (s.hostTurn h)) :=
      hostFetch_hold htodo hport
    rw [step_of_host hturn, hfetch, Fetched.outcome, hostTurn_of_turns hturn]

end Sys2Proof.Machine

/-! PROOFS. State (10_state.md): what each host command and each of its micro-steps may change, the
engine invariant and R39, the geometry of the display handle, and the state after reset. -/

namespace Sys2Proof.Machine

/-! ### What a host command writes (R191)

The state in parts: each micro-step, and each command, names the parts it may write, and keeps every
other one. -/

/-- A part of the state that the rules let a host command write or keep as one; the lock, `result`
and HOST's position, which a command may always write, are in none. -/
inductive StatePart where
  /-- The fields no command writes: the bus agent's, the logs, the parameters, the inputs. -/
  | environment
  /-- `irq_enable` (R23). -/
  | irqEnable
  /-- `width`, `height` and `num_pages` (R24). -/
  | geometry
  /-- `bus_addr` and `bus_freq` (R25). -/
  | bus
  /-- `cur_page` (R26). -/
  | page
  /-- `inited` (R28). -/
  | inited
  /-- The framebuffer (R30). -/
  | fb
  /-- `cmd_buf` (R29). -/
  | cmdBuf
  /-- `fsm`, the descriptor and `start_req` (R11 to R18). -/
  | engine

/-- The fields no host command writes. -/
def State.environment (s : State) :=
  (s.stopReq, s.dataOut, s.txPending, s.evtPending, s.wire, s.wireLog, s.doneLog, s.openParams,
    s.cmdPort, s.choice, s.turns, s.tick)

/-- `t` has this part of `s` unchanged. -/
def StatePart.Same (s t : State) : StatePart → Prop
  | .environment => t.environment = s.environment
  | .irqEnable => t.irqEnable = s.irqEnable
  | .geometry => t.geometry = s.geometry
  | .bus => (t.busAddr, t.busFreq) = (s.busAddr, s.busFreq)
  | .page => t.curPage = s.curPage
  | .inited => t.inited = s.inited
  | .fb => t.fb = s.fb
  | .cmdBuf => t.cmdBuf = s.cmdBuf
  | .engine => (t.txd, t.fsm, t.startReq) = (s.txd, s.fsm, s.startReq)

theorem StatePart.Same.refl (p : StatePart) (s : State) : p.Same s s := by cases p <;> rfl

theorem StatePart.Same.trans {p : StatePart} {s t u : State} (h : p.Same s t) (h' : p.Same t u) :
    p.Same s u := by
  cases p <;> exact Eq.trans h' h

/-- Where a command ends, holds or is preempted, only the lock, `result` and HOST's position are
written, which no part holds. -/
theorem StatePart.same_of_stop (p : StatePart) (s : State) (l : LockState) (r : BitVec 32)
    (td : List Micro) : p.Same s { s with lock := l, result := r, todo := td } := by
  cases p <;> rfl

/-- The parts a micro-step may write. -/
def Micro.writes : Micro → List StatePart
  | .acquire => []
  | .writeWidth _ | .writeHeight _ => [.geometry]
  | .writePages _ => [.geometry, .page]
  | .writeBusAddr _ | .writeBusFreq _ => [.bus]
  | .zeroByte _ | .pixel _ _ _ => [.fb]
  | .setInited => [.inited, .fb]
  | .clearCurPage => [.page]
  | .cmdByte _ _ | .cmdPage _ _ => [.cmdBuf]
  | .schedInit | .schedCmd _ _ => [.engine]

theorem Micro.environment_notMem_writes (m : Micro) : .environment ∉ m.writes := by
  cases m <;> simp [Micro.writes]

theorem Micro.irqEnable_notMem_writes (m : Micro) : .irqEnable ∉ m.writes := by
  cases m <;> simp [Micro.writes]

theorem Micro.geometry_mem_writes {m : Micro} : .geometry ∈ m.writes ↔
    (∃ w, m = .writeWidth w) ∨ (∃ h, m = .writeHeight h) ∨ ∃ n, m = .writePages n := by
  cases m <;> simp [Micro.writes]

theorem Micro.inited_mem_writes {m : Micro} : .inited ∈ m.writes ↔ m = .setInited := by
  cases m <;> simp [Micro.writes]

theorem Micro.fb_mem_writes {m : Micro} : .fb ∈ m.writes ↔
    (∃ off, m = .zeroByte off) ∨ (∃ x y on, m = .pixel x y on) ∨ m = .setInited := by
  cases m <;> simp [Micro.writes]

theorem Micro.cmdBuf_mem_writes {m : Micro} : .cmdBuf ∈ m.writes ↔
    (∃ i b, m = .cmdByte i b) ∨ ∃ i b, m = .cmdPage i b := by
  cases m <;> simp [Micro.writes]

/-- A micro-step keeps every part it does not name. -/
theorem StatePart.Same.of_runMicro {p : StatePart} {m : Micro} {s s' : State}
    (h : runMicro m s = .done s') (hp : p ∉ m.writes) : p.Same s s' := by
  rcases runMicro_done h with ⟨rfl, -, rfl⟩ | ⟨w, rfl, rfl⟩ | ⟨hh, rfl, rfl⟩ | ⟨n, rfl, rfl⟩ |
    ⟨a, rfl, rfl⟩ | ⟨f, rfl, rfl⟩ | ⟨off, rfl, -, rfl⟩ | ⟨rfl, rfl⟩ | ⟨rfl, hacc⟩ | ⟨rfl, rfl⟩ |
    ⟨i, b, rfl, rfl⟩ | ⟨i, b, rfl, rfl⟩ | ⟨n, cb, rfl, hacc⟩ | ⟨x, y, on, rfl, -, -, -, rfl⟩
  any_goals obtain ⟨-, -, -, -, rfl⟩ := sched_accepted hacc
  all_goals cases p
  all_goals simp [Micro.writes] at hp
  all_goals rfl

/-- A run of micro-steps keeps every part that none of them names. -/
theorem StatePart.Same.of_runTodo {p : StatePart} {q : Option Nat} {ms : List Micro} {s t : State}
    (hp : ∀ m ∈ ms, p ∉ m.writes) (h : runTodo q ms s = .next t) : p.Same s t := by
  refine runTodo_induction (fun ms' u => (∀ m ∈ ms', p ∉ m.writes) ∧ p.Same s u)
    (fun u => p.Same s u) ?done ?raise ?stop ?finish ms q s t ⟨hp, .refl p s⟩ h
  case done =>
    rintro m ms' u u' ⟨hms, hsame⟩ hm
    obtain ⟨hm', hms'⟩ := List.forall_mem_cons.1 hms
    exact ⟨hms', hsame.trans (.of_runMicro hm hm')⟩
  case raise =>
    rintro m ms' u u' ⟨-, hsame⟩ hm
    obtain ⟨-, -, rfl⟩ := runMicro_raised hm
    exact hsame.trans (p.same_of_stop u _ _ _)
  case stop => exact fun ms' u ⟨_, hsame⟩ => hsame.trans (p.same_of_stop u _ _ _)
  case finish => exact fun u ⟨_, hsame⟩ => hsame.trans (p.same_of_stop u _ _ _)

/-- The parts a host command may write (R191). -/
def writesOf : Instr → List StatePart
  | .init .. => [.geometry, .bus, .page, .inited, .fb, .engine]
  | .putPixel .. | .putRect .. | .putLine .. => [.fb]
  | .refresh => [.page, .cmdBuf, .engine]
  | .setBright _ => [.cmdBuf, .engine]
  | .sched .. => [.engine]
  | .irqEn _ => [.irqEnable]
  | .lockAcq | .lockRel | .rdFb _ | .rdStatus => []
  | .evtIdle | .evtStop | .evtSlaveAddress | .evtWritePrefix | .evtWriteByte => []
  | .cbHost | .cbWritePage | .cbSetPage | .cbRelease => []

/-- The micro-steps that write bytes of `cmd_buf` name `cmd_buf` alone. -/
theorem writes_of_mem_cmdBytes {bs : List Byte} {k : Nat} {m : Micro} (hm : m ∈ cmdBytes k bs) :
    m.writes = [.cmdBuf] := by
  obtain ⟨j, b, rfl⟩ := mem_cmdBytes hm
  rfl

/-- The micro-steps of a drawing command name the framebuffer alone. -/
theorem writes_of_mem_drawProgram {l : List (Nat × Nat)} {on : Bool} {m : Micro}
    (hm : m ∈ drawProgram l on) : m.writes = [.fb] := by
  obtain ⟨x, y, -, rfl⟩ := mem_drawProgram hm
  rfl

/-- The micro-steps a command begins with name no part beyond the command's own. -/
theorem writes_subset_of_mem_programOf {i : Instr} {s : State} {m : Micro}
    (hm : m ∈ programOf i s) : m.writes ⊆ writesOf i := by
  cases i
  case init =>
    simp only [programOf, initProgram, List.mem_append, List.mem_cons, List.mem_map,
      List.not_mem_nil, or_false] at hm
    rcases hm with ((rfl | rfl | rfl | rfl | rfl | rfl | rfl) | ⟨off, -, rfl⟩) | rfl | rfl <;>
      simp [Micro.writes, writesOf]
  case putPixel =>
    rw [List.mem_singleton.1 hm]
    exact List.Subset.refl _
  case putRect => exact writes_of_mem_drawProgram hm ▸ List.Subset.refl _
  case putLine => exact writes_of_mem_drawProgram hm ▸ List.Subset.refl _
  case refresh =>
    simp only [programOf, refreshProgram, setPageProgram, List.mem_append, List.mem_cons,
      List.not_mem_nil, or_false] at hm
    rcases hm with (rfl | rfl) | h | rfl | rfl
    case inr.inl => simp [writes_of_mem_cmdBytes h, writesOf]
    all_goals simp [Micro.writes, writesOf]
  case setBright =>
    simp only [programOf, brightProgram, List.mem_append, List.mem_cons, List.not_mem_nil,
      or_false] at hm
    rcases hm with (rfl | h) | rfl
    case inl.inr => simp [writes_of_mem_cmdBytes h, writesOf]
    all_goals simp [Micro.writes, writesOf]
  case lockAcq =>
    rw [List.mem_singleton.1 hm]
    exact List.Subset.refl _
  all_goals cases hm

/-- A host command keeps every part it does not name. -/
theorem StatePart.Same.of_command {p : StatePart} {i : Instr} {s t : State}
    (hi : i.cls = .command) (h : exec i s = .next t) (hp : p ∉ writesOf i) : p.Same s t := by
  rcases exec_command_next hi h with ⟨c, v, rfl⟩ | ⟨-, rfl⟩ | ⟨en, rfl, rfl⟩ |
    ⟨_, _, _, _, _, _, _, _, _, _, s', rfl, hacc, rfl⟩ | ⟨hrun, -⟩
  · exact p.same_of_stop s _ _ _
  · exact p.same_of_stop s _ _ _
  · cases p <;> simp [writesOf] at hp <;> rfl
  · obtain ⟨-, -, -, -, rfl⟩ := sched_accepted hacc
    cases p <;> simp [writesOf] at hp <;> rfl
  · exact .of_runTodo (fun m hm hmem => hp (writes_subset_of_mem_programOf hm hmem)) hrun

theorem environment_notMem_writesOf (i : Instr) : .environment ∉ writesOf i := by
  cases i <;> simp [writesOf]

theorem irqEnable_mem_writesOf {i : Instr} : .irqEnable ∈ writesOf i ↔ ∃ en, i = .irqEn en := by
  cases i <;> simp [writesOf]

theorem geometry_mem_writesOf {i : Instr} :
    .geometry ∈ writesOf i ↔ ∃ a w h f, i = .init a w h f := by
  cases i <;> simp [writesOf]

theorem bus_mem_writesOf {i : Instr} : .bus ∈ writesOf i ↔ ∃ a w h f, i = .init a w h f := by
  cases i <;> simp [writesOf]

theorem inited_mem_writesOf {i : Instr} :
    .inited ∈ writesOf i ↔ ∃ a w h f, i = .init a w h f := by
  cases i <;> simp [writesOf]

theorem fb_mem_writesOf {i : Instr} : .fb ∈ writesOf i ↔
    (∃ a w h f, i = .init a w h f) ∨ (∃ p x y, i = .putPixel p x y) ∨
    (∃ p a b c d, i = .putRect p a b c d) ∨ ∃ p a b c d, i = .putLine p a b c d := by
  cases i <;> simp [writesOf]

theorem cmdBuf_mem_writesOf {i : Instr} :
    .cmdBuf ∈ writesOf i ↔ i = .refresh ∨ ∃ l, i = .setBright l := by
  cases i <;> simp [writesOf]

theorem page_mem_writesOf {i : Instr} :
    .page ∈ writesOf i ↔ (∃ a w h f, i = .init a w h f) ∨ i = .refresh := by
  cases i <;> simp [writesOf]

theorem engine_mem_writesOf {i : Instr} : .engine ∈ writesOf i ↔
    (∃ a b c d e f g h j k, i = .sched a b c d e f g h j k) ∨ (∃ a w h f, i = .init a w h f) ∨
    i = .refresh ∨ ∃ l, i = .setBright l := by
  cases i <;> simp [writesOf]

/-- A state with the environment of another differs from it in the other fields only. -/
theorem eq_of_same_environment {s t : State} (h : StatePart.environment.Same s t) :
    t = { s with fsm := t.fsm, txd := t.txd, startReq := t.startReq, irqEnable := t.irqEnable,
                 width := t.width, height := t.height, numPages := t.numPages,
                 busAddr := t.busAddr, busFreq := t.busFreq, curPage := t.curPage, lock := t.lock,
                 inited := t.inited, cmdBuf := t.cmdBuf, fb := t.fb, result := t.result,
                 todo := t.todo } := by
  cases s
  cases t
  simp only [StatePart.Same, State.environment, Prod.mk.injEq] at h
  simp [h]

/-- The geometry in its three fields. -/
theorem same_geometry_iff {s t : State} : StatePart.geometry.Same s t ↔
    t.width = s.width ∧ t.height = s.height ∧ t.numPages = s.numPages := by
  simp [StatePart.Same, State.geometry]

/-- A HOST turn inside a command runs the micro-steps left of it. -/
theorem runTodo_of_resumed_turn {s t : State} {hc : HostTurn} {ts : List Turn}
    (hturn : s.turns = .host hc :: ts) (htodo : s.todo ≠ []) (h : step s = .next t) :
    runTodo hc.quantum s.todo (s.hostTurn hc) = .next t := by
  rw [step_of_host hturn] at h
  rcases hostFetch_next h with ⟨m, ms, hd, hrun⟩ | ⟨hd, -⟩ | ⟨_, _, _, hd, -⟩
  · exact hd ▸ hrun
  · exact absurd hd htodo
  · exact absurd hd htodo

/-- Settles O47: a command keeps the parts it does not name, and a HOST turn that goes on with one
keeps the parts that no micro-step left names. -/
theorem commandFrame : Obligations.CommandFrame := by
  refine ⟨fun i s t hi h => ?command, fun s t hc ts hturn htodo h => ?turn⟩
  case command =>
    have keep : ∀ p : StatePart, p ∉ writesOf i → p.Same s t := fun p hp => .of_command hi h hp
    refine ⟨eq_of_same_environment (keep _ (environment_notMem_writesOf i)), fun hinit => ?handle,
      fun hen => keep .irqEnable ?_, fun hinit hpx hrect hline => keep .fb ?_,
      fun href hbr => keep .cmdBuf ?_, fun hinit href => keep .page ?_,
      fun hsched hinit href hbr => ?engine⟩
    case handle =>
      have hgeom := keep .geometry (by simp [geometry_mem_writesOf, hinit])
      have hbus := keep .bus (by simp [bus_mem_writesOf, hinit])
      have hin := keep .inited (by simp [inited_mem_writesOf, hinit])
      obtain ⟨hw, hh, hn⟩ := same_geometry_iff.1 hgeom
      obtain ⟨ha, hf⟩ := Prod.mk.inj hbus
      exact ⟨hw, hh, hn, ha, hf, hin⟩
    case engine =>
      have heng := keep .engine (by simp [engine_mem_writesOf, hsched, hinit, href, hbr])
      obtain ⟨htxd, hrest⟩ := Prod.mk.inj heng
      exact ⟨htxd, Prod.mk.inj hrest⟩
    · simp [irqEnable_mem_writesOf, hen]
    · simp [fb_mem_writesOf, hinit, hpx, hrect, hline]
    · simp [cmdBuf_mem_writesOf, href, hbr]
    · simp [page_mem_writesOf, hinit, href]
  case turn =>
    have keep : ∀ p : StatePart, (∀ m ∈ s.todo, p ∉ m.writes) → p.Same (s.hostTurn hc) t :=
      fun p hp => .of_runTodo hp (runTodo_of_resumed_turn hturn htodo h)
    have hirq : t.irqEnable = s.irqEnable := keep .irqEnable fun m _ => m.irqEnable_notMem_writes
    have hframe := eq_of_same_environment (keep .environment fun m _ => m.environment_notMem_writes)
    refine ⟨?_, fun hz hp hi => keep .fb ?_, fun hb hpg => keep .cmdBuf ?_,
      fun hw hh hn => same_geometry_iff.1 (keep .geometry ?_)⟩
    · rw [hirq, hostTurn_of_turns hturn] at hframe
      exact hframe
    · intro m hm hmem
      rcases Micro.fb_mem_writes.1 hmem with ⟨off, rfl⟩ | ⟨x, y, on, rfl⟩ | rfl
      · exact hz off hm
      · exact hp x y on hm
      · exact hi hm
    · intro m hm hmem
      rcases Micro.cmdBuf_mem_writes.1 hmem with ⟨i, b, rfl⟩ | ⟨i, b, rfl⟩
      · exact hb i b hm
      · exact hpg i b hm
    · intro m hm hmem
      rcases Micro.geometry_mem_writes.1 hmem with ⟨w, rfl⟩ | ⟨w, rfl⟩ | ⟨n, rfl⟩
      · exact hw w hm
      · exact hh w hm
      · exact hn n hm

/-! ### The engine invariant (R39)

An update of a field that `EngineInv` does not read keeps it as it stands: there the proof is the
hypothesis itself. -/

/-- The handshake bits while the engine is Idle. -/
theorem Handshake.of_idle {s : State} (h : Handshake s) (hidle : s.fsm = fsmIdle) :
    s.startReq = false ∧ s.txPending = false ∧ s.evtPending = false ∧
      (s.stopReq = true ↔ s.wire = .started) := by
  rcases h with ⟨-, hbits⟩ | ⟨hf, -⟩ | ⟨hf | hf | hf, -⟩
  · exact hbits
  all_goals exact absurd (hf.symm.trans hidle) (by decide)

/-- The handshake bits while a bus event is pending (R106): a transaction is on the wire. -/
theorem Handshake.of_event {s : State} (h : Handshake s) (hevt : s.evtPending = true) :
    s.fsm ≠ fsmIdle ∧ (s.fsm ≠ fsmSlaveAddress → s.startReq = false) ∧ s.txPending = false ∧
      s.stopReq = false ∧ s.wire = .started := by
  rcases h with ⟨-, -, -, hno, -⟩ | ⟨hf, -, htx, hcase⟩ | ⟨hf, hstart, hstop, hwire, hno⟩
  · simp [hevt] at hno
  · rcases hcase with ⟨-, -, hno⟩ | ⟨-, -, hno⟩ | ⟨hstop, hwire, -⟩
    · simp [hevt] at hno
    · simp [hevt] at hno
    · exact ⟨by rw [hf]; decide, fun hne => absurd hf hne, htx, hstop, hwire⟩
  · have hne : s.fsm ≠ fsmIdle := by rcases hf with hf | hf | hf <;> rw [hf] <;> decide
    exact ⟨hne, fun _ => hstart, by simpa [hevt] using hno, hstop, hwire⟩

/-- An Idle engine has no transaction to describe. -/
theorem descriptor_of_idle {s : State} (hidle : s.fsm = fsmIdle) : Descriptor s := by
  simp [Descriptor, hidle, fsmIdle, fsmWritePrefix, fsmWriteByte, fsmStop]

/-- The 4-bit field holds a legal completion code unchanged (R81 (a), R82). -/
theorem legalCb_setWidth {cb : Byte} (h : legalCb cb.toNat = true) :
    1 ≤ (cb.setWidth 4).toNat ∧ (cb.setWidth 4).toNat ≤ 4 := by
  simp only [legalCb, Bool.and_eq_true, decide_eq_true_eq] at h
  rw [BitVec.toNat_setWidth]
  omega

/-- An accepted scheduler call keeps the invariant (R82). -/
theorem EngineInv.sched_accepted {r : SchedReq} {s s' : State} (hs : EngineInv s)
    (h : sched r s = .accepted s') : EngineInv s' := by
  obtain ⟨hidle, hcb, -, -, rfl⟩ := Machine.sched_accepted h
  obtain ⟨hshake, -, hpage⟩ := hs
  obtain ⟨-, htx, hevt, hwire⟩ := hshake.of_idle hidle
  have hshake' : Handshake (s.start r) := by
    refine .inr (.inl ⟨rfl, rfl, htx, ?_⟩)
    cases hstop : s.stopReq
    · have hfree : s.wire = .free :=
        (wire_ne_started_iff _).1 fun hw => by simp [hwire.2 hw] at hstop
      exact .inr (.inl ⟨hstop, hfree, hevt⟩)
    · exact .inl ⟨hstop, hwire.1 hstop, hevt⟩
  have hdesc : Descriptor (s.start r) :=
    ⟨nofun, nofun, nofun, fun _ => legalCb_setWidth hcb⟩
  exact ⟨hshake', hdesc, hpage⟩

/-- Advancing a page cursor that is not at its end keeps R39 (g). -/
theorem EngineInv.nextPage {s : State} (hs : EngineInv s) (hne : s.curPage ≠ s.numPages) :
    EngineInv s.nextPage := by
  obtain ⟨hshake, hdesc, hpage⟩ := hs
  refine ⟨hshake, hdesc, ?_⟩
  show (s.curPage + 1#4).toNat ≤ s.numPages.toNat
  have hlt : s.curPage.toNat < s.numPages.toNat :=
    lt_of_le_of_ne hpage fun h => hne (BitVec.eq_of_toNat_eq h)
  bv_omega

/-- A completion action keeps the invariant (R96, R125 to R128). -/
theorem EngineInv.invoke {s t : State} (hs : EngineInv s) (h : invoke s = .next t) :
    EngineInv t := by
  rcases invoke_next h with ⟨-, h⟩ | ⟨-, h⟩ | ⟨-, h⟩ | ⟨-, h⟩
  · simp only [execCbHost, Host.Outcome.next.injEq] at h
    subst h
    exact hs
  · rcases writePageStep_next h with ⟨-, rfl⟩ | ⟨hne, hacc, rfl⟩
    · exact hs
    · exact (hs.sched_accepted hacc).nextPage hne
  · rcases execCbSetPage_next h with ⟨-, rfl⟩ | ⟨-, hacc⟩
    · exact hs
    · rw [buildSetPage_frame] at hacc
      exact EngineInv.sched_accepted (s := { s with cmdBuf := s.buildSetPage.cmdBuf }) hs hacc
  · simp only [execCbRelease, Host.Outcome.next.injEq] at h
    subst h
    exact hs

/-- Where the arm after the address byte goes, with the counts that send it there (R90). -/
theorem afterAddress_cases (d : Txd) :
    (afterAddress d = fsmWritePrefix ∧ d.pfxRem ≠ 0#16) ∨
    (afterAddress d = fsmWriteByte ∧ d.pfxRem = 0#16 ∧ d.payRem ≠ 0#16) ∨
    (afterAddress d = fsmStop ∧ d.pfxRem = 0#16 ∧ d.payRem = 0#16) := by
  unfold afterAddress
  by_cases hp : d.pfxRem = 0#16 <;> by_cases hd : d.payRem = 0#16 <;> simp [hp, hd]

/-- After a byte of the first run the counts choose the arm as after the address byte (R90, R91). -/
theorem afterPrefix_eq (d : Txd) : afterPrefix d = afterAddress d := by
  unfold afterPrefix afterAddress
  by_cases hp : d.pfxRem = 0#16 <;> simp [hp]

/-- After a byte of the second run the counts choose it as after the address byte (R90, R92). -/
theorem afterPayload_eq {d : Txd} (hp : d.pfxRem = 0#16) : afterPayload d = afterAddress d := by
  simp [afterPayload, afterAddress, hp]

/-- The descriptor agrees with the arm its own counts select (R39 (d), (f)). -/
theorem descriptor_of_afterAddress {t : State} (hfsm : t.fsm = afterAddress t.txd)
    (hcb : 1 ≤ t.txd.cb.toNat ∧ t.txd.cb.toNat ≤ 4) : Descriptor t := by
  rcases afterAddress_cases t.txd with ⟨hf, hp⟩ | ⟨hf, hp, hd⟩ | ⟨hf, hp, hd⟩ <;> rw [hf] at hfsm
  · exact ⟨fun _ => hp, by simp [hfsm, fsmWritePrefix, fsmWriteByte],
      by simp [hfsm, fsmWritePrefix, fsmStop], fun _ => hcb⟩
  · exact ⟨by simp [hfsm, fsmWritePrefix, fsmWriteByte], fun _ => ⟨hp, hd⟩,
      by simp [hfsm, fsmWriteByte, fsmStop], fun _ => hcb⟩
  · exact ⟨by simp [hfsm, fsmWritePrefix, fsmStop], by simp [hfsm, fsmWriteByte, fsmStop],
      fun _ => ⟨hp, hd⟩, fun _ => hcb⟩

/-- The state a loading arm leaves meets the invariant: the byte is pending on a started wire, and
the counts say which arm is next (R20, R90 to R92). -/
theorem engineInv_of_loaded {t : State} (hfsm : t.fsm = afterAddress t.txd)
    (hstart : t.startReq = false) (hstop : t.stopReq = false) (hwire : t.wire = .started)
    (htx : t.txPending = true) (hevt : t.evtPending = false)
    (hcb : 1 ≤ t.txd.cb.toNat ∧ t.txd.cb.toNat ≤ 4) (hpage : PageCursor t) : EngineInv t := by
  have hflight : t.fsm = fsmWritePrefix ∨ t.fsm = fsmWriteByte ∨ t.fsm = fsmStop := by
    rw [hfsm]
    rcases afterAddress_cases t.txd with ⟨hf, -⟩ | ⟨hf, -⟩ | ⟨hf, -⟩ <;> simp [hf]
  have hbits : t.evtPending = !t.txPending := by simp [htx, hevt]
  exact ⟨.inr (.inr ⟨hflight, hstart, hstop, hwire, hbits⟩), descriptor_of_afterAddress hfsm hcb,
    hpage⟩

/-- An IRQ step keeps the invariant: the arm of `fsm`, with the event taken (R87, R88 to R92). -/
theorem EngineInv.arm {i : Instr} {s t : State} (hs : EngineInv s) (hevt : s.evtPending = true)
    (hi : decodeArm s.fsm = .instr i) (h : exec i s.takeEvent = .next t) : EngineInv t := by
  obtain ⟨hshake, ⟨-, hbyte, -, hcb⟩, hpage⟩ := hs
  obtain ⟨hne, hstart, htx, hstop, hwire⟩ := hshake.of_event hevt
  have hcb := hcb hne
  rcases decodeArm_cases hi with ⟨hf, rfl⟩ | ⟨hf, rfl⟩ | ⟨hf, rfl⟩ | ⟨hf, rfl⟩ | ⟨hf, rfl⟩
  · exact absurd hf hne
  · have hstart := hstart (by rw [hf]; decide)
    have hend : EngineInv { s.takeEvent with stopReq := true, fsm := fsmIdle } :=
      ⟨.inl ⟨rfl, hstart, htx, rfl, by simp [hwire]⟩, descriptor_of_idle rfl, hpage⟩
    exact hend.invoke h
  · simp only [exec, execEvtSlaveAddress, Host.Outcome.next.injEq] at h
    subst h
    exact engineInv_of_loaded rfl rfl hstop hwire rfl rfl hcb hpage
  · have hstart := hstart (by rw [hf]; decide)
    obtain ⟨-, b, -, rfl⟩ := execEvtWritePrefix_next h
    exact engineInv_of_loaded (afterPrefix_eq _) hstart hstop hwire rfl rfl hcb hpage
  · have hstart := hstart (by rw [hf]; decide)
    have hpfx : s.txd.pfxRem = 0#16 := (hbyte hf).1
    obtain ⟨-, b, -, rfl⟩ := execEvtWriteByte_next h
    exact engineInv_of_loaded (afterPayload_eq hpfx) hstart hstop hwire rfl rfl hcb hpage

/-- BUS.STOP keeps the handshake (R101): the STOP of the last transaction goes out. -/
theorem Handshake.busStop {s : State} (h : Handshake s) (hr : busStopReady s = true) :
    Handshake (busStop s) := by
  simp only [busStopReady, Bool.and_eq_true, Bool.not_eq_true'] at hr
  rcases h with ⟨hf, hstart, htx, hevt, -⟩ | ⟨hf, hstart, htx, ⟨-, -, hevt⟩ | ⟨hno, -⟩ | ⟨hno, -⟩⟩ |
    ⟨-, -, hno, -⟩
  · exact .inl ⟨hf, hstart, htx, hevt, by simp⟩
  · exact .inr (.inl ⟨hf, hstart, htx, .inr (.inl ⟨rfl, rfl, hevt⟩)⟩)
  all_goals simp [hr.1] at hno

/-- BUS.START keeps the handshake (R102): it raises the first event of the transaction. -/
theorem Handshake.busStart {s : State} (h : Handshake s) (hr : busStartReady s = true) :
    Handshake (busStart s) := by
  simp only [busStartReady, Bool.and_eq_true, Bool.not_eq_true', decide_eq_true_eq] at hr
  obtain ⟨⟨⟨hstart, hstop⟩, -⟩, -⟩ := hr
  rcases h with ⟨-, hno, -⟩ | ⟨hf, -, htx, -⟩ | ⟨-, hno, -⟩
  · simp [hstart] at hno
  · exact .inr (.inl ⟨hf, hstart, htx, .inr (.inr ⟨hstop, rfl, rfl⟩)⟩)
  · simp [hstart] at hno

/-- BUS.BYTE keeps the handshake (R103): the byte pending becomes an event pending. -/
theorem Handshake.busByte {s : State} (h : Handshake s) (hr : busByteReady s = true) :
    Handshake (busByte s) := by
  simp only [busByteReady, Bool.and_eq_true, Bool.not_eq_true', decide_eq_true_eq] at hr
  obtain ⟨⟨htx, hwire⟩, -⟩ := hr
  rcases h with ⟨-, -, hno, -⟩ | ⟨-, -, hno, -⟩ | ⟨hf, hstart, hstop, -, -⟩
  · simp [htx] at hno
  · simp [htx] at hno
  · exact .inr (.inr ⟨hf, hstart, hstop, hwire, rfl⟩)

/-- A BUS turn keeps the invariant (R100). -/
theorem EngineInv.busStep {s : State} (hs : EngineInv s) : EngineInv (busStep s) := by
  obtain ⟨hshake, hrest⟩ := hs
  rcases busStep_cases s with ⟨hr, he⟩ | ⟨hr, he⟩ | ⟨hr, he⟩ | ⟨-, -, -, he⟩ <;> rw [he]
  · exact ⟨hshake.busStop hr, hrest⟩
  · exact ⟨hshake.busStart hr, hrest⟩
  · exact ⟨hshake.busByte hr, hrest⟩
  · exact ⟨hshake, hrest⟩

/-- New pages keep R39 (g): a cursor beyond them is cleared in the same micro-step (R121, log 5). -/
theorem pageCursor_setPages {s : State} (n : BitVec 4) : PageCursor (s.setPages n) := by
  show (if n.toNat < s.curPage.toNat then 0#4 else s.curPage).toNat ≤ n.toNat
  split
  · exact Nat.zero_le _
  · omega

/-- A micro-step of a host command keeps the invariant (R6): most write no field of it, two move the
page cursor, and two start a transaction. -/
theorem EngineInv.runMicro {m : Micro} {s s' : State} (hs : EngineInv s)
    (h : runMicro m s = .done s') : EngineInv s' := by
  have ⟨hshake, hdesc, _⟩ := hs
  rcases runMicro_done h with ⟨-, -, rfl⟩ | ⟨w, -, rfl⟩ | ⟨hh, -, rfl⟩ | ⟨n, -, rfl⟩ | ⟨a, -, rfl⟩ |
    ⟨f, -, rfl⟩ | ⟨off, -, -, rfl⟩ | ⟨-, rfl⟩ | ⟨-, hacc⟩ | ⟨-, rfl⟩ | ⟨i, b, -, rfl⟩ |
    ⟨i, b, -, rfl⟩ | ⟨n, cb, -, hacc⟩ | ⟨x, y, on, -, -, -, -, rfl⟩
  any_goals exact hs
  · exact ⟨hshake, hdesc, pageCursor_setPages n⟩
  · exact hs.sched_accepted hacc
  · exact ⟨hshake, hdesc, Nat.zero_le _⟩
  · exact hs.sched_accepted hacc

/-- A run of micro-steps keeps the invariant, wherever it stops. -/
theorem EngineInv.runTodo {q : Option Nat} {ms : List Micro} {s t : State} (hs : EngineInv s)
    (h : runTodo q ms s = .next t) : EngineInv t := by
  refine runTodo_induction (fun _ u => EngineInv u) EngineInv ?done ?raise ?stop ?finish
    ms q s t hs h
  case done => exact fun m ms' u u' hu hm => hu.runMicro hm
  case raise =>
    intro m ms' u u' hu hm
    obtain ⟨-, -, rfl⟩ := runMicro_raised hm
    exact hu
  case stop => exact fun ms' u hu => hu
  case finish => exact fun u hu => hu

/-- A host command keeps the invariant. -/
theorem EngineInv.command {i : Instr} {s t : State} (hs : EngineInv s) (hi : i.cls = .command)
    (h : exec i s = .next t) : EngineInv t := by
  rcases exec_command_next hi h with ⟨c, v, rfl⟩ | ⟨-, rfl⟩ | ⟨en, -, rfl⟩ |
    ⟨_, _, _, _, _, _, _, _, _, _, s', -, hacc, rfl⟩ | ⟨hrun, -⟩
  · exact hs
  · exact hs
  · exact hs
  · exact (hs.sched_accepted hacc : EngineInv s')
  · exact hs.runTodo hrun

/-- Settles O51, agent by agent: HOST goes on, holds or runs a command; IRQ holds or runs the arm of
`fsm`; BUS takes its turn. -/
theorem everyStepKeepsTheEngineInvariant : Obligations.EveryStepKeepsTheEngineInvariant := by
  intro s t hs h
  have hturn : ∀ hc, EngineInv (s.hostTurn hc) := fun _ => hs
  rcases step_cases h with ⟨hc, m, ms, -, -, hrun⟩ | ⟨hc, -, -, -, rfl⟩ |
    ⟨hc, w, ws, i, -, -, -, hi, hexec⟩ | ⟨-, -, rfl⟩ | ⟨i, -, hevt, -, hi, hexec⟩ | ⟨-, rfl⟩
  · exact (hturn hc).runTodo hrun
  · exact hturn hc
  · have hport : EngineInv { s.hostTurn hc with cmdPort := ws } := hs
    exact hport.command (decodeBytes_cls hi) hexec
  · exact hs
  · exact EngineInv.arm (s := s.passTurn) hs hevt hi hexec
  · exact EngineInv.busStep (s := s.passTurn) hs

/-! ### R39 in every reachable state -/

/-- The engine invariant gives R39 as the spec writes it. -/
theorem EngineInv.r39 {s : State} (hs : EngineInv s) : R39 s := by
  obtain ⟨hshake, ⟨hpfx, hpay, hstop, hcb⟩, hpage⟩ := hs
  have hpos : ∀ v : BitVec 16, v ≠ 0#16 → 1 ≤ v.toNat := fun v hv =>
    Nat.one_le_iff_ne_zero.2 fun h => hv (BitVec.eq_of_toNat_eq h)
  refine ⟨?a, ?b, ?c, ⟨fun h => hpos _ (hpfx h), fun h => ⟨(hpay h).1, hpos _ (hpay h).2⟩, hstop⟩,
    ?e, hcb, hpage⟩
  case a => rcases hshake with ⟨hf, -⟩ | ⟨hf, -⟩ | ⟨hf | hf | hf, -⟩ <;> rw [hf] <;> decide
  case b =>
    intro htx
    rcases hshake with ⟨-, -, hno, -⟩ | ⟨-, -, hno, -⟩ | ⟨hf, -, -, hwire, -⟩
    · simp [htx] at hno
    · simp [htx] at hno
    · exact ⟨hwire, hf⟩
  case c =>
    intro hstart
    rcases hshake with ⟨-, hno, -⟩ | ⟨hf, -⟩ | ⟨-, hno, -⟩
    · simp [hstart] at hno
    · exact hf
    · simp [hstart] at hno
  case e =>
    rintro ⟨hevt, htx⟩
    obtain ⟨-, -, hno, -⟩ := hshake.of_event hevt
    simp [htx] at hno

/-- Nothing is in flight after reset, and no page is set (R38). -/
theorem engineInv_reset : EngineInv State.reset := by decide

/-- Settles O52: EngineInv holds at reset, whatever the inputs and the parameters, every step keeps
it, and it gives R39. -/
theorem reachableStatesMeetR39 : Obligations.ReachableStatesMeetR39 := by
  refine ⟨fun s hs => hs.r39, fun p ts ws n t hrun => ?_⟩
  have hstart : EngineInv { State.reset with openParams := p, turns := ts, cmdPort := ws } :=
    engineInv_reset
  exact (run_induction EngineInv everyStepKeepsTheEngineInvariant n hstart hrun).r39

/-! ### The geometry (R24, R28) -/

/-- `GeometryInv` with the micro-steps `ms` left to HOST. -/
def GeometryPlan (ms : List Micro) (s : State) : Prop := GeometryInv { s with todo := ms }

theorem geometryPlan_of_todo {s : State} {ms : List Micro} (hs : GeometryInv s)
    (htodo : s.todo = ms) : GeometryPlan ms s := htodo ▸ hs

/-- A micro-step that is no handle write of the geometry leaves what is still to be written. -/
theorem geometryAfter_cons_of_notMem {m : Micro} (hm : .geometry ∉ m.writes) (g : Geometry)
    (ms : List Micro) : geometryAfter g (m :: ms) = geometryAfter g ms := by
  cases m <;> simp [Micro.writes] at hm <;> rfl

/-- Micro-steps that write no geometry leave it. -/
theorem geometryAfter_of_notMem {ms : List Micro} (hms : ∀ m ∈ ms, .geometry ∉ m.writes)
    (g : Geometry) : geometryAfter g ms = g := by
  induction ms with
  | nil => rfl
  | cons m ms ih =>
    obtain ⟨hm, hms⟩ := List.forall_mem_cons.1 hms
    rw [geometryAfter_cons_of_notMem hm, ih hms]

/-- Micro-steps that write neither the geometry nor `inited` respect the bounds of R24. -/
theorem todoGeometry_of_notMem {ms : List Micro} (hgeom : ∀ m ∈ ms, .geometry ∉ m.writes)
    (hinit : ∀ m ∈ ms, .inited ∉ m.writes) : todoGeometry ms := by
  induction ms with
  | nil => trivial
  | cons m ms ih =>
    obtain ⟨hm, hgeom⟩ := List.forall_mem_cons.1 hgeom
    obtain ⟨-, hinit⟩ := List.forall_mem_cons.1 hinit
    have hset : Micro.setInited ∉ ms := fun h =>
      hinit _ h (Micro.inited_mem_writes.2 rfl)
    refine ⟨fun w he => absurd (Micro.geometry_mem_writes.2 (.inl ⟨w, he⟩)) hm,
      fun n he => absurd (Micro.geometry_mem_writes.2 (.inr (.inr ⟨n, he⟩))) hm,
      fun _ => ⟨hset, geometryAfter_of_notMem hgeom⟩, ih hgeom hinit⟩

/-- What a micro-step writes of the geometry was counted in what was left to write; and its `width`
and `num_pages` are the old ones or the ones it carries. -/
theorem geometry_of_runMicro {m : Micro} {s s' : State} (h : runMicro m s = .done s') :
    (∀ ms, geometryAfter s'.geometry ms = geometryAfter s.geometry (m :: ms)) ∧
    (s'.width = s.width ∨ m = .writeWidth s'.width) ∧
    (s'.numPages = s.numPages ∨ m = .writePages s'.numPages) := by
  by_cases hg : .geometry ∈ m.writes
  · rcases Micro.geometry_mem_writes.1 hg with ⟨w, rfl⟩ | ⟨hh, rfl⟩ | ⟨n, rfl⟩ <;> cases h
    · exact ⟨fun _ => rfl, .inr rfl, .inl rfl⟩
    · exact ⟨fun _ => rfl, .inl rfl, .inl rfl⟩
    · exact ⟨fun _ => rfl, .inl rfl, .inr rfl⟩
  · have hsame : StatePart.geometry.Same s s' := .of_runMicro h hg
    obtain ⟨hw, -, hn⟩ := same_geometry_iff.1 hsame
    refine ⟨fun ms => ?_, .inl hw, .inl hn⟩
    rw [geometryAfter_cons_of_notMem hg, show s'.geometry = s.geometry from hsame]

/-- `inited` is 1 after a micro-step only if it was before, or the micro-step wrote it. -/
theorem inited_of_runMicro {m : Micro} {s s' : State} (h : runMicro m s = .done s')
    (hin : s'.inited = true) : s.inited = true ∨ m = .setInited := by
  by_cases hm : m = .setInited
  · exact .inr hm
  · have hsame : StatePart.inited.Same s s' :=
      .of_runMicro h fun hw => hm (Micro.inited_mem_writes.1 hw)
    exact .inl (hsame.symm.trans hin)

/-- A micro-step keeps the invariant, with the rest left. -/
theorem GeometryPlan.runMicro {m : Micro} {ms : List Micro} {s s' : State}
    (hs : GeometryPlan (m :: ms) s) (h : runMicro m s = .done s') : GeometryPlan ms s' := by
  obtain ⟨hwidth, hpages, ⟨hw, hn, -, htodo⟩, hlegal, hinit⟩ := hs
  obtain ⟨hafter, hwidth', hpages'⟩ := geometry_of_runMicro h
  have hafter : geometryAfter s'.geometry ms = geometryAfter s.geometry (m :: ms) := hafter ms
  refine ⟨?width, ?pages, htodo, ?legal, ?inited⟩
  case width =>
    rcases hwidth' with he | he
    · exact (congrArg BitVec.toNat he).trans_le hwidth
    · exact hw _ he
  case pages =>
    rcases hpages' with he | he
    · exact (congrArg BitVec.toNat he).trans_le hpages
    · exact hn _ he
  case legal => exact hafter ▸ hlegal
  case inited =>
    have hbefore : s'.inited = true ∨ Micro.setInited ∈ ms →
        s.inited = true ∨ Micro.setInited ∈ m :: ms := by
      rintro (hin | hmem)
      · rcases inited_of_runMicro h hin with hin | rfl
        · exact .inl hin
        · exact .inr List.mem_cons_self
      · exact .inr (List.mem_cons_of_mem _ hmem)
    exact fun hin => hafter ▸ hinit (hbefore hin)

/-- INIT's scheduler attempt may end the command: its handle writes are done by then (R121). -/
theorem GeometryPlan.raised {ms : List Micro} {s : State} (hs : GeometryPlan (.schedInit :: ms) s) :
    GeometryPlan [] s := by
  obtain ⟨hwidth, hpages, ⟨-, -, hlast, -⟩, hlegal, hinit⟩ := hs
  have hafter : geometryAfter s.geometry (.schedInit :: ms) = s.geometry := (hlast rfl).2 s.geometry
  refine ⟨hwidth, hpages, trivial, hafter ▸ hlegal, ?_⟩
  rintro (hin | hmem)
  · exact hafter ▸ hinit (.inl hin)
  · cases hmem

/-- A run of micro-steps keeps the invariant, wherever it stops. -/
theorem GeometryPlan.runTodo {q : Option Nat} {ms : List Micro} {s t : State}
    (hs : GeometryPlan ms s) (h : runTodo q ms s = .next t) : GeometryInv t := by
  refine runTodo_induction GeometryPlan GeometryInv ?done ?raise ?stop ?finish ms q s t hs h
  case done => exact fun m ms' u u' hu hm => hu.runMicro hm
  case raise =>
    intro m ms' u u' hu hm
    obtain ⟨rfl, -, rfl⟩ := runMicro_raised hm
    exact hu.raised
  case stop => exact fun ms' u hu => hu
  case finish => exact fun u hu => hu

/-- A command but INIT begins with no handle write. -/
theorem GeometryPlan.program {i : Instr} {s : State} (hs : GeometryPlan [] s)
    (hi : ∀ a w h f, i ≠ .init a w h f) : GeometryPlan (programOf i s) s := by
  obtain ⟨hwidth, hpages, -, hlegal, hinit⟩ := hs
  have hgeom : ∀ m ∈ programOf i s, .geometry ∉ m.writes := fun m hm hw => by
    simpa [geometry_mem_writesOf, hi] using writes_subset_of_mem_programOf hm hw
  have hinited : ∀ m ∈ programOf i s, .inited ∉ m.writes := fun m hm hw => by
    simpa [inited_mem_writesOf, hi] using writes_subset_of_mem_programOf hm hw
  have hset : Micro.setInited ∉ programOf i s := fun h =>
    hinited _ h (Micro.inited_mem_writes.2 rfl)
  have hafter : geometryAfter s.geometry (programOf i s) = s.geometry :=
    geometryAfter_of_notMem hgeom _
  refine ⟨hwidth, hpages, todoGeometry_of_notMem hgeom hinited, ?_, ?_⟩
  · exact hafter.symm ▸ hlegal
  · exact fun hin => hafter.symm ▸ hinit (hin.imp id fun h => absurd h hset)

/-- The zero fill of INIT carries no handle write. -/
theorem todoGeometry_zeroBytes_append (l : List Nat) (ms : List Micro) :
    todoGeometry (l.map Micro.zeroByte ++ ms) ↔ todoGeometry ms := by
  induction l with
  | nil => rfl
  | cons off l ih => simp [todoGeometry, ih]

theorem geometryAfter_zeroBytes_append (l : List Nat) (ms : List Micro) (g : Geometry) :
    geometryAfter g (l.map Micro.zeroByte ++ ms) = geometryAfter g ms := by
  induction l with
  | nil => rfl
  | cons off l ih => simpa [geometryAfter] using ih

/-- The bounds of R121 on INIT's operands. -/
theorem legalGeometry_iff {width height : Nat} : legalGeometry width height = true ↔
    1 ≤ width ∧ width ≤ 8191 ∧ 8 ≤ height ∧ height ≤ 64 ∧ height % 8 = 0 := by
  simp [legalGeometry, and_assoc]

/-- INIT with a legal geometry leaves that geometry (R121). -/
theorem GeometryPlan.initProgram {s : State} (hs : GeometryPlan [] s) (a : BitVec 7)
    {w h : BitVec 16} (f : BitVec 32) (hgeom : legalGeometry w.toNat h.toNat = true) :
    GeometryPlan (initProgram a w h f) s := by
  obtain ⟨hwidth, hpages, -, -, -⟩ := hs
  obtain ⟨-, hw, -, hh, -⟩ := legalGeometry_iff.1 hgeom
  have hn : (BitVec.ofNat 4 (h.toNat / 8)).toNat = h.toNat / 8 := by
    rw [BitVec.toNat_ofNat]
    omega
  have hafter : geometryAfter s.geometry (Machine.initProgram a w h f) =
      { width := w, height := h, numPages := BitVec.ofNat 4 (h.toNat / 8) } := by
    simp [Machine.initProgram, geometryAfter, geometryAfter_zeroBytes_append]
  have hlegal : (geometryAfter s.geometry (Machine.initProgram a w h f)).Legal := by
    rw [hafter]
    exact ⟨hgeom, hn⟩
  have htodo : todoGeometry (Machine.initProgram a w h f) := by
    have hn8 : (BitVec.ofNat 4 (h.toNat / 8)).toNat ≤ 8 := by omega
    simp [Machine.initProgram, todoGeometry, todoGeometry_zeroBytes_append, geometryAfter, hw, hn8,
      -BitVec.toNat_ofNat]
  exact ⟨hwidth, hpages, htodo, .inl hlegal, fun _ => hlegal⟩

/-- A host command keeps the invariant. -/
theorem GeometryPlan.command {i : Instr} {s t : State} (hs : GeometryPlan [] s)
    (hi : i.cls = .command) (h : exec i s = .next t) : GeometryInv t := by
  rcases exec_command_next hi h with ⟨c, v, rfl⟩ | ⟨-, rfl⟩ | ⟨en, -, rfl⟩ |
    ⟨_, _, _, _, _, _, _, _, _, _, s', -, hacc, rfl⟩ | ⟨hrun, hgeom⟩
  · exact hs
  · exact hs
  · exact hs
  · obtain ⟨-, -, -, -, rfl⟩ := sched_accepted hacc
    exact hs
  · by_cases hinit : ∃ a w h f, i = .init a w h f
    · obtain ⟨a, w, hh, f, rfl⟩ := hinit
      exact (hs.initProgram a f (hgeom a w hh f rfl)).runTodo hrun
    · exact (hs.program (by simpa using hinit)).runTodo hrun

/-- A step that writes no field of the display keeps the invariant. -/
theorem GeometryInv.of_sameDisplay {s t : State} (hs : GeometryInv s) (h : SameDisplay t s) :
    GeometryInv t := by
  obtain ⟨-, hw, hh, hn, hin, -, htodo⟩ := h
  have hgeom : t.geometry = s.geometry := same_geometry_iff.2 ⟨hw, hh, hn⟩
  unfold GeometryInv
  rw [hw, hn, hin, htodo, hgeom]
  exact hs

/-- Settles O54: HOST's micro-steps are counted in the plan, IRQ and BUS write no geometry; and
between commands nothing is left to write. -/
theorem everyStepKeepsTheGeometryLegal : Obligations.EveryStepKeepsTheGeometryLegal := by
  refine ⟨fun s t hs h => ?step, fun s hs htodo hin => ?legal⟩
  case step =>
    rcases step_cases h with ⟨hc, m, ms, -, htodo, hrun⟩ | ⟨hc, -, -, -, rfl⟩ |
      ⟨hc, w, ws, i, -, htodo, -, hi, hexec⟩ | ⟨-, -, rfl⟩ | ⟨i, -, -, -, hi, hexec⟩ | ⟨-, rfl⟩
    · have hplan : GeometryPlan (m :: ms) (s.hostTurn hc) := geometryPlan_of_todo (s := s) hs htodo
      exact hplan.runTodo hrun
    · exact hs
    · have hplan : GeometryPlan [] { s.hostTurn hc with cmdPort := ws } :=
        geometryPlan_of_todo (s := s) hs htodo
      exact hplan.command (decodeBytes_cls hi) hexec
    · exact hs
    · have hturn : GeometryInv s.passTurn.takeEvent := hs
      exact hturn.of_sameDisplay (exec_arm_display (decodeArm_cls hi) hexec)
    · have hturn : GeometryInv s.passTurn := hs
      exact hturn.of_sameDisplay (busStep_display s.passTurn)
  case legal =>
    obtain ⟨-, -, -, -, hlegal⟩ := geometryPlan_of_todo hs htodo
    exact hlegal (.inl hin)

/-! ### Before the first INIT (R202), and after reset (R38) -/

/-- Settles O44: each of the six tests `inited` first. -/
theorem commandsBeforeInitAreRefused : Obligations.CommandsBeforeInitAreRefused := by
  intro s hin
  refine ⟨?refresh, fun level => ?bright, fun p x y => ?pixel,
    fun p x0 y0 x1 y1 => ⟨?rect, ?line⟩, fun off => ?read⟩
  case refresh => simp [exec, execRefresh, hin]
  case bright => simp [exec, execSetBright, hin]
  case pixel => simp [exec, execPutPixel, hin]
  case rect => simp [exec, execPutRect, hin]
  case line => simp [exec, execPutLine, hin]
  case read => simp [exec, execRdFb, hin]

/-- Before any INIT the framebuffer has no byte (R40, R43). -/
theorem memRead_fb_reset (off : Nat) : memRead State.reset 2#2 off = none :=
  if_neg (Nat.not_lt_zero off)

theorem fbInv_reset : FbInv State.reset :=
  ⟨reset_fb_wf, trivial, .inr (by simp [State.reset])⟩

theorem geometryInv_reset : GeometryInv State.reset :=
  ⟨by decide, by decide, trivial, .inr rfl, by simp [State.reset]⟩

/-- Settles O50: the values are the literals of `State.reset`. -/
theorem resetStateIsAsSpecified : Obligations.ResetStateIsAsSpecified := by
  have hcursor : CursorInv State.reset := fun hbusy => absurd rfl hbusy
  refine ⟨⟨rfl, rfl, rfl, rfl, rfl, rfl, rfl, rfl, rfl, rfl, rfl, rfl, rfl, rfl, rfl, rfl, rfl, rfl,
    fun sp off hsp => hsp ▸ memRead_fb_reset off⟩, engineInv_reset, fbInv_reset, geometryInv_reset,
    hcursor⟩

end Sys2Proof.Machine

/-! PROOFS. Memory (20_memory.md): the three byte spaces, the framebuffer invariant, the cursors of a
transaction in flight, and what a handler step leaves unchanged. -/

namespace Sys2Proof.Machine

/-! ### The framebuffer stays canonical and inside FB_SIZE (R43, R121, R171) -/

/-- `FbInv` with the micro-steps `ms` left to HOST. -/
def FbPlan (ms : List Micro) (s : State) : Prop := FbInv { s with todo := ms }

theorem fbPlan_of_todo {s : State} {ms : List Micro} (hs : FbInv s) (htodo : s.todo = ms) :
    FbPlan ms s := htodo ▸ hs

/-- With no `inited <- 1` left, no byte is listed at or beyond FB_SIZE. -/
theorem FbPlan.inside {ms : List Micro} {s : State} (hs : FbPlan ms s)
    (hms : Micro.setInited ∉ ms) : ∀ c ∈ s.fb, c.1 < s.fbSize := by
  obtain ⟨-, -, hin⟩ := hs
  exact hin.resolve_left hms

/-- A resize is a write of the geometry. -/
theorem Micro.geometry_mem_writes_of_resizes {m : Micro} (hm : m.resizes = true) :
    .geometry ∈ m.writes := by
  cases m <;> simp [Micro.resizes] at hm <;> simp [Micro.writes]

/-- A micro-step that is no resize keeps FB_SIZE. -/
theorem fbSize_of_runMicro {m : Micro} {s s' : State} (h : runMicro m s = .done s')
    (hm : m.resizes = false) : s'.fbSize = s.fbSize := by
  obtain ⟨-, hw, hn⟩ := geometry_of_runMicro h
  have hw : s'.width = s.width := hw.resolve_right fun he => by simp [he, Micro.resizes] at hm
  have hn : s'.numPages = s.numPages := hn.resolve_right fun he => by simp [he, Micro.resizes] at hm
  rw [State.fbSize, hw, hn, State.fbSize]

/-- What a micro-step does to the framebuffer: nothing, one write below FB_SIZE, or the truncation at
`inited <- 1`. -/
theorem fb_of_runMicro {m : Micro} {s s' : State} (h : runMicro m s = .done s') :
    s'.fb = s.fb ∨ (∃ a b, a < s.fbSize ∧ s'.fb = s.fb.write a b) ∨
    (m = .setInited ∧ s'.fb = s.fb.truncate s'.fbSize) := by
  by_cases hfb : .fb ∈ m.writes
  · rcases Micro.fb_mem_writes.1 hfb with ⟨off, rfl⟩ | ⟨x, y, on, rfl⟩ | rfl
    · obtain ⟨hoff, rfl⟩ : off < s.fbSize ∧ s' = s.fbWrite off 0x00#8 := by
        simpa using runMicro_done h
      exact .inr (.inl ⟨_, _, hoff, rfl⟩)
    · obtain ⟨-, -, hidx, rfl⟩ : x < s.width.toNat ∧ y < s.height.toNat ∧
          pixelIndex s.width.toNat x y < s.fbSize ∧ s' = s.paint x y on := by
        simpa [-Bool.exists_bool] using runMicro_done h
      exact .inr (.inl ⟨_, _, hidx, rfl⟩)
    · cases h
      exact .inr (.inr ⟨rfl, rfl⟩)
  · exact .inl (StatePart.Same.of_runMicro (p := .fb) h hfb)

/-- A micro-step keeps the canonical form. -/
theorem fb_wf_of_runMicro {m : Micro} {s s' : State} (h : runMicro m s = .done s') (hwf : s.fb.wf) :
    s'.fb.wf := by
  rcases fb_of_runMicro h with he | ⟨a, b, -, he⟩ | ⟨-, he⟩ <;> rw [he]
  · exact hwf
  · exact Memory.wf_write hwf a b
  · exact Memory.wf_truncate hwf _

/-- A micro-step that is no resize lists no byte at or beyond FB_SIZE. -/
theorem fb_inside_of_runMicro {m : Micro} {s s' : State} (h : runMicro m s = .done s')
    (hm : m.resizes = false) (hin : ∀ c ∈ s.fb, c.1 < s.fbSize) : ∀ c ∈ s'.fb, c.1 < s'.fbSize := by
  intro c hc
  rcases fb_of_runMicro h with he | ⟨a, b, ha, he⟩ | ⟨-, he⟩ <;> rw [he] at hc
  · exact fbSize_of_runMicro h hm ▸ hin c hc
  · rw [fbSize_of_runMicro h hm]
    rcases Memory.mem_write hc with hc | ⟨rfl, -⟩
    · exact hin c hc
    · exact ha
  · exact (Memory.mem_truncate.1 hc).2

/-- A micro-step keeps the invariant, with the rest left: `inited <- 1` closes the window of an
unfinished INIT, and a resize needs one still to come. -/
theorem FbPlan.runMicro {m : Micro} {ms : List Micro} {s s' : State} (hs : FbPlan (m :: ms) s)
    (h : runMicro m s = .done s') : FbPlan ms s' := by
  have ⟨hwf, ⟨hresize, _, htodo⟩, _⟩ := hs
  have hwf' : s'.fb.wf := fb_wf_of_runMicro h hwf
  by_cases hms : Micro.setInited ∈ ms
  · exact ⟨hwf', htodo, .inl hms⟩
  · have hin : ∀ c ∈ s'.fb, c.1 < s'.fbSize := by
      by_cases hm : m = .setInited
      · subst hm
        cases h
        exact fun c hc => (Memory.mem_truncate.1 hc).2
      · have hsize : m.resizes = false := by simpa using mt hresize hms
        exact fb_inside_of_runMicro h hsize (hs.inside (by simp [Ne.symm hm, hms]))
    exact ⟨hwf', htodo, .inr hin⟩

/-- INIT's scheduler attempt may end the command: the window is closed by then (R121). -/
theorem FbPlan.raised {ms : List Micro} {s : State} (hs : FbPlan (.schedInit :: ms) s) :
    FbPlan [] s := by
  have ⟨hwf, ⟨_, hlast, _⟩, _⟩ := hs
  have hms : Micro.setInited ∉ ms := hlast rfl
  exact ⟨hwf, trivial, .inr (hs.inside (by simp [hms]))⟩

/-- A run of micro-steps keeps the invariant, wherever it stops. -/
theorem FbPlan.runTodo {q : Option Nat} {ms : List Micro} {s t : State} (hs : FbPlan ms s)
    (h : runTodo q ms s = .next t) : FbInv t := by
  refine runTodo_induction FbPlan FbInv ?done ?raise ?stop ?finish ms q s t hs h
  case done => exact fun m ms' u u' hu hm => hu.runMicro hm
  case raise =>
    intro m ms' u u' hu hm
    obtain ⟨rfl, -, rfl⟩ := runMicro_raised hm
    exact hu.raised
  case stop => exact fun ms' u hu => hu
  case finish => exact fun u hu => hu

/-- Micro-steps that write neither the geometry nor `inited` neither begin nor end a window. -/
theorem todoResizes_of_notMem {ms : List Micro} (hgeom : ∀ m ∈ ms, .geometry ∉ m.writes)
    (hinit : ∀ m ∈ ms, .inited ∉ m.writes) : todoResizes ms := by
  induction ms with
  | nil => trivial
  | cons m ms ih =>
    obtain ⟨hm, hgeom⟩ := List.forall_mem_cons.1 hgeom
    obtain ⟨-, hinit⟩ := List.forall_mem_cons.1 hinit
    exact ⟨fun hr => absurd (Micro.geometry_mem_writes_of_resizes hr) hm,
      fun _ hset => hinit _ hset (Micro.inited_mem_writes.2 rfl), ih hgeom hinit⟩

/-- The zero fill of INIT resizes nothing. -/
theorem todoResizes_zeroBytes_append (l : List Nat) (ms : List Micro) :
    todoResizes (l.map Micro.zeroByte ++ ms) ↔ todoResizes ms := by
  induction l with
  | nil => rfl
  | cons off l ih => simp [todoResizes, Micro.resizes, ih]

/-- INIT's resizes come before its `inited <- 1`, and its scheduler attempt after it (R121). -/
theorem todoResizes_initProgram (a : BitVec 7) (w h : BitVec 16) (f : BitVec 32) :
    todoResizes (initProgram a w h f) := by
  simp [initProgram, todoResizes, todoResizes_zeroBytes_append, Micro.resizes]

/-- Whatever a host command begins with, a resize in it has its `inited <- 1`. -/
theorem todoResizes_programOf (i : Instr) (s : State) : todoResizes (programOf i s) := by
  by_cases hinit : ∃ a w h f, i = .init a w h f
  · obtain ⟨a, w, h, f, rfl⟩ := hinit
    exact todoResizes_initProgram a w h f
  · exact todoResizes_of_notMem
      (fun m hm hw => hinit (geometry_mem_writesOf.1 (writes_subset_of_mem_programOf hm hw)))
      (fun m hm hw => hinit (inited_mem_writesOf.1 (writes_subset_of_mem_programOf hm hw)))

/-- A host command keeps the invariant. -/
theorem FbPlan.command {i : Instr} {s t : State} (hs : FbPlan [] s) (hi : i.cls = .command)
    (h : exec i s = .next t) : FbInv t := by
  rcases exec_command_next hi h with ⟨c, v, rfl⟩ | ⟨-, rfl⟩ | ⟨en, -, rfl⟩ |
    ⟨_, _, _, _, _, _, _, _, _, _, s', -, hacc, rfl⟩ | ⟨hrun, -⟩
  · exact hs
  · exact hs
  · exact hs
  · obtain ⟨-, -, -, -, rfl⟩ := sched_accepted hacc
    exact hs
  · have ⟨hwf, _⟩ := hs
    have hplan : FbPlan (programOf i s) s :=
      ⟨hwf, todoResizes_programOf i s, .inr (hs.inside List.not_mem_nil)⟩
    exact hplan.runTodo hrun

/-- A step that writes no field of the display keeps the invariant. -/
theorem FbInv.of_sameDisplay {s t : State} (hs : FbInv s) (h : SameDisplay t s) : FbInv t := by
  obtain ⟨hfb, hw, -, hn, -, -, htodo⟩ := h
  unfold FbInv State.fbSize
  rw [hfb, hw, hn, htodo]
  exact hs

/-- Settles O53: HOST's micro-steps write below FB_SIZE or stand in the window of an INIT, IRQ and BUS
write no byte; and between commands there is no window. -/
theorem everyStepKeepsTheFramebufferCanonical :
    Obligations.EveryStepKeepsTheFramebufferCanonical := by
  refine ⟨fun s t hs h => ?step, fun s hs htodo => ?between⟩
  case step =>
    rcases step_cases h with ⟨hc, m, ms, -, htodo, hrun⟩ | ⟨hc, -, -, -, rfl⟩ |
      ⟨hc, w, ws, i, -, htodo, -, hi, hexec⟩ | ⟨-, -, rfl⟩ | ⟨i, -, -, -, hi, hexec⟩ | ⟨-, rfl⟩
    · have hplan : FbPlan (m :: ms) (s.hostTurn hc) := fbPlan_of_todo (s := s) hs htodo
      exact hplan.runTodo hrun
    · exact hs
    · have hplan : FbPlan [] { s.hostTurn hc with cmdPort := ws } :=
        fbPlan_of_todo (s := s) hs htodo
      exact hplan.command (decodeBytes_cls hi) hexec
    · exact hs
    · have hturn : FbInv s.passTurn.takeEvent := hs
      exact hturn.of_sameDisplay (exec_arm_display (decodeArm_cls hi) hexec)
    · have hturn : FbInv s.passTurn := hs
      exact hturn.of_sameDisplay (busStep_display s.passTurn)
  case between =>
    have ⟨hwf, _⟩ := hs
    exact ⟨hwf, (fbPlan_of_todo hs htodo).inside List.not_mem_nil⟩

/-! ### The cursors stay inside their spaces (R48, R81, R212) -/

/-- Both cursors of the transaction `u` has in flight lie inside the spaces as they are in `v`. -/
def CursorsFit (v u : State) : Prop :=
  u.fsm ≠ fsmIdle →
    CursorInside v u.txd.pfxSpace u.txd.pfxOff u.txd.pfxRem ∧
    CursorInside v u.txd.paySpace u.txd.payOff u.txd.payRem

/-- A state's cursors are inside their spaces when they fit its own spaces. -/
theorem cursorInv_iff_cursorsFit (s : State) : CursorInv s ↔ CursorsFit s s := Iff.rfl

/-- Only FB differs in size between two states (R40). -/
theorem spaceSize_le {s v : State} {k : Nat} (hfb : k = 2 → s.fbSize ≤ v.fbSize) :
    spaceSize s k ≤ spaceSize v k := by
  unfold spaceSize
  split
  · exact le_rfl
  · exact le_rfl
  · exact hfb rfl
  · exact le_rfl

/-- A cursor inside its space stays inside when FB does not shrink. -/
theorem CursorInside.mono {s v : State} {space : BitVec 2} {off rem : Len16}
    (hc : CursorInside s space off rem) (hfb : s.fbSize ≤ v.fbSize) :
    CursorInside v space off rem :=
  hc.imp_right fun h => h.trans (spaceSize_le fun _ => hfb)

/-- A cursor that has loaded one byte is still inside (R91, R92). -/
theorem CursorInside.advance {v : State} {space : BitVec 2} {off rem : Len16}
    (hc : CursorInside v space off rem) (hrem : rem ≠ 0#16) :
    CursorInside v space (off + 1#16) (rem - 1#16) := by
  have hin : off.toNat + rem.toNat ≤ spaceSize v space.toNat := hc.resolve_left hrem
  have hstep : (off + 1#16).toNat + (rem - 1#16).toNat ≤ off.toNat + rem.toNat := by bv_omega
  exact .inr (hstep.trans hin)

/-- The run of an admitted call lies inside its space, as the descriptor stores it (R81, R82). -/
theorem cursorInside_of_runAdmitted {s v : State} {space : Byte} {off len : Nat} (free : BitVec 2)
    (h : runAdmitted s space off len = true) (hfb : space.toNat = 2 → s.fbSize ≤ v.fbSize) :
    CursorInside v (spaceField free space) (BitVec.ofNat 16 off) (BitVec.ofNat 16 len) := by
  simp only [runAdmitted, Bool.or_eq_true, Bool.and_eq_true, decide_eq_true_eq] at h
  rcases h with rfl | ⟨hspace, hin⟩
  · exact .inl rfl
  · have hfield : (spaceField free space).toNat = space.toNat := by
      rw [spaceField, if_pos (by omega), BitVec.toNat_setWidth]
      omega
    refine .inr ?_
    rw [hfield]
    calc (BitVec.ofNat 16 off).toNat + (BitVec.ofNat 16 len).toNat
        ≤ off + len := by
          simp only [BitVec.toNat_ofNat]
          exact Nat.add_le_add (Nat.mod_le _ _) (Nat.mod_le _ _)
      _ ≤ spaceSize s space.toNat := hin
      _ ≤ spaceSize v space.toNat := spaceSize_le hfb

/-- A transaction fits when it starts (R81, R82): its runs in ROM and CMD do in any state, those in FB
unless FB is smaller there. -/
theorem CursorsFit.of_sched {r : SchedReq} {s s' v : State} (h : sched r s = .accepted s')
    (hfb : r.pfxSpace.toNat = 2 ∨ r.paySpace.toNat = 2 → s.fbSize ≤ v.fbSize) :
    CursorsFit v s' := by
  obtain ⟨-, -, hpfx, hpay, rfl⟩ := sched_accepted h
  exact fun _ => ⟨cursorInside_of_runAdmitted _ hpfx fun hk => hfb (.inl hk),
    cursorInside_of_runAdmitted _ hpay fun hk => hfb (.inr hk)⟩

/-- Fitting is about the engine's fields alone. -/
theorem CursorsFit.of_sameEngine {v u u' : State} (hu : CursorsFit v u)
    (h : StatePart.engine.Same u u') : CursorsFit v u' := by
  obtain ⟨htxd, hrest⟩ := Prod.mk.inj h
  obtain ⟨hfsm, -⟩ := Prod.mk.inj hrest
  unfold CursorsFit
  rw [htxd, hfsm]
  exact hu

/-- The micro-steps that write the engine are the scheduler attempts. -/
theorem Micro.engine_mem_writes {m : Micro} : .engine ∈ m.writes ↔
    m = .schedInit ∨ ∃ n cb, m = .schedCmd n cb := by
  cases m <;> simp [Micro.writes]

/-- A micro-step keeps the cursors inside: the transactions it can start have no run in FB (R121,
R123, R124). -/
theorem CursorsFit.runMicro {v u u' : State} {m : Micro} (hu : CursorsFit v u)
    (h : runMicro m u = .done u') : CursorsFit v u' := by
  by_cases hm : .engine ∈ m.writes
  · rcases Micro.engine_mem_writes.1 hm with rfl | ⟨n, cb, rfl⟩
    · have hacc : sched (initReq u) u = .accepted u' := by simpa using runMicro_done h
      exact .of_sched hacc (by simp [initReq, ignoredSpace])
    · have hacc : sched (cmdReq u n cb) u = .accepted u' := by simpa using runMicro_done h
      exact .of_sched hacc (by simp [cmdReq, ignoredSpace])
  · exact hu.of_sameEngine (.of_runMicro h hm)

/-- A run of micro-steps keeps the cursors inside, wherever it stops. -/
theorem CursorsFit.runTodo {v s t : State} {q : Option Nat} {ms : List Micro}
    (hs : CursorsFit v s) (h : runTodo q ms s = .next t) : CursorsFit v t := by
  refine runTodo_induction (fun _ u => CursorsFit v u) (CursorsFit v) ?done ?raise ?stop ?finish
    ms q s t hs h
  case done => exact fun m ms' u u' hu hm => hu.runMicro hm
  case raise =>
    intro m ms' u u' hu hm
    obtain ⟨-, -, rfl⟩ := runMicro_raised hm
    exact hu
  case stop => exact fun ms' u hu => hu
  case finish => exact fun u hu => hu

/-- A host command keeps the cursors inside; SCHED's runs are admitted against FB as it is. -/
theorem CursorsFit.command {v s t : State} {i : Instr} (hs : CursorsFit v s)
    (hfb : s.fbSize ≤ v.fbSize) (hi : i.cls = .command) (h : exec i s = .next t) :
    CursorsFit v t := by
  rcases exec_command_next hi h with ⟨c, x, rfl⟩ | ⟨-, rfl⟩ | ⟨en, -, rfl⟩ |
    ⟨_, _, _, _, _, _, _, _, _, _, s', -, hacc, rfl⟩ | ⟨hrun, -⟩
  · exact hs
  · exact hs
  · exact hs
  · have hstart : CursorsFit v s' := .of_sched hacc fun _ => hfb
    exact hstart
  · exact hs.runTodo hrun

/-- An Idle engine has no cursor. -/
theorem cursorsFit_of_idle (v : State) {u : State} (hidle : u.fsm = fsmIdle) : CursorsFit v u :=
  fun hne => absurd hidle hne

/-- The transaction a completion action starts fits (R124, R125). -/
theorem CursorsFit.invoke {v s t : State} (hidle : s.fsm = fsmIdle) (hfb : s.fbSize ≤ v.fbSize)
    (h : invoke s = .next t) : CursorsFit v t := by
  have hrel : CursorsFit v (s.setLock .released) := cursorsFit_of_idle v hidle
  rcases invoke_next h with ⟨-, h⟩ | ⟨-, h⟩ | ⟨-, h⟩ | ⟨-, h⟩
  · cases h
    exact cursorsFit_of_idle v hidle
  · rcases writePageStep_next h with ⟨-, rfl⟩ | ⟨-, hacc, rfl⟩
    · exact hrel
    · have hstart : CursorsFit v (s.start (pageReq s)) := .of_sched hacc fun _ => hfb
      exact hstart
  · rcases execCbSetPage_next h with ⟨-, rfl⟩ | ⟨-, hacc⟩
    · exact hrel
    · exact .of_sched hacc (by simp [cmdReq, ignoredSpace])
  · cases h
    exact hrel

/-- An IRQ step keeps the cursors inside: a loading arm moves one of them by one byte, an ending arm
leaves the engine Idle or with a new transaction (R88 to R92). -/
theorem CursorsFit.arm {v s t : State} {i : Instr} (hs : CursorsFit v s)
    (hfb : s.fbSize ≤ v.fbSize) (hi : decodeArm s.fsm = .instr i) (h : exec i s = .next t) :
    CursorsFit v t := by
  have hend : endTransaction s = .next t → CursorsFit v t :=
    CursorsFit.invoke (s := { s with stopReq := true, fsm := fsmIdle }) rfl hfb
  rcases decodeArm_cases hi with ⟨-, rfl⟩ | ⟨-, rfl⟩ | ⟨hf, rfl⟩ | ⟨hf, rfl⟩ | ⟨hf, rfl⟩
  · exact hend h
  · exact hend h
  all_goals obtain ⟨hpfx, hpay⟩ := hs (by rw [hf]; decide)
  · cases h
    exact fun _ => ⟨hpfx, hpay⟩
  · obtain ⟨hrem, b, -, rfl⟩ := execEvtWritePrefix_next h
    exact fun _ => ⟨hpfx.advance hrem, hpay⟩
  · obtain ⟨hrem, b, -, rfl⟩ := execEvtWriteByte_next h
    exact fun _ => ⟨hpfx, hpay.advance hrem⟩

/-- A BUS turn moves no cursor (R100). -/
theorem CursorsFit.busStep {v s : State} (hs : CursorsFit v s) : CursorsFit v (busStep s) := by
  rcases busStep_cases s with ⟨-, he⟩ | ⟨-, he⟩ | ⟨-, he⟩ | ⟨-, -, -, he⟩ <;> rw [he] <;> exact hs

/-- Settles O55: the cursors of `s` fit the spaces of `t`, whose FB is no smaller, and every agent's
turn from `s` keeps that. The bounds on the geometry are not needed: an offset or a count cut to 16
bits only gets smaller. -/
theorem cursorsStayInsideTheirSpaces : Obligations.CursorsStayInsideTheirSpaces := by
  intro s t _ _ hs h hfb
  rw [cursorInv_iff_cursorsFit]
  have hfit : CursorsFit t s := fun hne => (hs hne).imp (·.mono hfb) (·.mono hfb)
  rcases step_cases h with ⟨hc, m, ms, -, -, hrun⟩ | ⟨hc, -, -, -, rfl⟩ |
    ⟨hc, w, ws, i, -, -, -, hi, hexec⟩ | ⟨-, -, rfl⟩ | ⟨i, -, -, -, hi, hexec⟩ | ⟨-, he⟩
  · exact CursorsFit.runTodo (s := s.hostTurn hc) hfit hrun
  · exact hfit
  · exact CursorsFit.command (s := { s.hostTurn hc with cmdPort := ws }) hfit hfb
      (decodeBytes_cls hi) hexec
  · exact hfit
  · exact CursorsFit.arm (s := s.passTurn.takeEvent) hfit hfb hi hexec
  · exact he ▸ CursorsFit.busStep (s := s.passTurn) (he ▸ hfit)

/-! ### The three spaces (R40 to R43, R212) -/

/-- A list read from `base` on, with 0x00 beyond its end. -/
theorem getD_sub_eq (l : List Byte) {base off : Nat} (h : base ≤ off) :
    l.getD (off - base) 0x00#8 =
      if base ≤ off ∧ off < base + l.length then l.getD (off - base) 0x00#8 else 0x00#8 := by
  split
  · rfl
  · exact List.getD_eq_default _ _ (by omega)

/-- ROM space region by region; D25 keeps each sequence inside its region (R41). -/
theorem romByte_eq {p : OpenParams} (hp : ParamsOk p) (off : Nat) :
    romByte p off =
      if off < p.initSeq.length then p.initSeq.getD off 0#8
      else if off = 0x10 then p.dataMarker
      else if 0x18 ≤ off ∧ off < 0x18 + p.setpageSeq.length then p.setpageSeq.getD (off - 0x18) 0#8
      else if 0x20 ≤ off ∧ off < 0x20 + p.brightSeq.length then p.brightSeq.getD (off - 0x20) 0#8
      else 0#8 := by
  obtain ⟨⟨-, hinit⟩, ⟨-, hset⟩, -, -⟩ := hp
  unfold romByte romInitSeq romDataMarker romSetpageSeq romBrightSeq
  split
  · -- the region of `INIT_SEQ`
    rw [getD_sub_eq _ (Nat.zero_le off)]
    grind
  · split
    · -- the region of `DATA_MARKER`
      rw [getD_sub_eq _ (by omega)]
      grind
    · split
      · -- the region of `SETPAGE_SEQ`
        rw [getD_sub_eq _ (by omega)]
        grind
      · -- the region of `BRIGHT_SEQ`
        rw [getD_sub_eq _ (by omega)]
        grind

/-- A byte at or beyond the size of its space does not exist (R40). -/
theorem memRead_eq_none {s : State} {space : BitVec 2} {off : Nat}
    (h : spaceSize s space.toNat ≤ off) : memRead s space off = none :=
  if_neg (Nat.not_lt.2 h)

/-- The WritePrefix arm stops at a byte that does not exist (R91, log 16). -/
theorem execEvtWritePrefix_missing {s : State} (hrem : s.txd.pfxRem ≠ 0#16)
    (hnone : memRead s s.txd.pfxSpace s.txd.pfxOff.toNat = none) :
    exec .evtWritePrefix s = missingByte s.txd.pfxSpace := by
  simp [exec, execEvtWritePrefix, hrem, hnone]

/-- The WriteByte arm stops at a byte that does not exist (R92, R212, log 16). -/
theorem execEvtWriteByte_missing {s : State} (hrem : s.txd.payRem ≠ 0#16)
    (hnone : memRead s s.txd.paySpace s.txd.payOff.toNat = none) :
    exec .evtWriteByte s = missingByte s.txd.paySpace := by
  simp [exec, execEvtWriteByte, hrem, hnone]

/-- Settles O33: the size of each space says which bytes exist, and a load arm looks its byte up before
anything else it does. -/
theorem readsOfTheThreeSpaces : Obligations.ReadsOfTheThreeSpaces := by
  refine fun s off hp => ⟨fun hoff => ?rom, fun hoff => ?cmd, fun hoff => ?fb,
    fun hoff => memRead_eq_none hoff, fun hoff => memRead_eq_none hoff,
    fun hoff => memRead_eq_none hoff, memRead_eq_none (Nat.zero_le off),
    execEvtWritePrefix_missing, execEvtWriteByte_missing⟩
  case rom =>
    have hread : memRead s 0#2 off = some (romByte s.openParams off) := if_pos hoff
    rw [hread, romByte_eq hp]
  case cmd =>
    have hread : memRead s 1#2 off = s.cmdBuf[off]? := if_pos hoff
    rw [hread, Vector.getElem?_eq_getElem hoff]
  case fb => exact if_pos hoff

/-! ### What a handler step leaves unchanged (R47, R190, R191) -/

/-- The fields no handler arm and no completion action writes. -/
def State.outsideHandler (s : State) :=
  (s.evtPending, s.wire, s.irqEnable, s.width, s.height, s.numPages, s.busAddr, s.busFreq, s.inited,
    s.fb, s.wireLog, s.result, s.openParams, s.cmdPort, s.todo, s.choice, s.turns, s.tick)

/-- From `s` to `t` nothing outside the handler's own fields changes, and the lock is not taken. -/
def HandlerKeeps (s t : State) : Prop :=
  t.outsideHandler = s.outsideHandler ∧ (t.lock = .held → s.lock = .held)

theorem HandlerKeeps.trans {s t u : State} (h : HandlerKeeps s t) (h' : HandlerKeeps t u) :
    HandlerKeeps s u := by
  obtain ⟨hout, hlock⟩ := h
  obtain ⟨hout', hlock'⟩ := h'
  exact ⟨hout'.trans hout, fun hheld => hlock (hlock' hheld)⟩

/-- Giving the lock back changes nothing else. -/
theorem HandlerKeeps.setLock_released (s : State) : HandlerKeeps s (s.setLock .released) :=
  ⟨rfl, nofun⟩

/-- A transaction started from the handler touches the engine alone (R82). -/
theorem HandlerKeeps.start (s : State) (r : SchedReq) : HandlerKeeps s (s.start r) := ⟨rfl, id⟩

/-- The set-page command is built in `cmd_buf` alone (R124). -/
theorem HandlerKeeps.buildSetPage (s : State) : HandlerKeeps s s.buildSetPage := by
  rw [buildSetPage_frame]
  exact ⟨rfl, id⟩

/-- The four completion actions (R96, R125 to R128). -/
theorem HandlerKeeps.action {i : Instr} {s t : State} (hi : i.cls = .action)
    (h : exec i s = .next t) : HandlerKeeps s t := by
  cases i <;> cases hi
  case cbHost =>
    cases h
    exact ⟨rfl, id⟩
  case cbWritePage =>
    rcases writePageStep_next h with ⟨-, rfl⟩ | ⟨-, -, rfl⟩
    · exact .setLock_released s
    · exact (HandlerKeeps.start s (pageReq s)).trans ⟨rfl, id⟩
  case cbSetPage =>
    rcases execCbSetPage_next h with ⟨-, rfl⟩ | ⟨-, hacc⟩
    · exact .setLock_released s
    · obtain ⟨-, -, -, -, rfl⟩ := sched_accepted hacc
      exact (HandlerKeeps.buildSetPage s).trans (.start _ _)
  case cbRelease =>
    cases h
    exact .setLock_released s

/-- `invoke` runs one of the four (R96). -/
theorem HandlerKeeps.invoke {s t : State} (h : invoke s = .next t) : HandlerKeeps s t := by
  rcases invoke_next h with ⟨-, h⟩ | ⟨-, h⟩ | ⟨-, h⟩ | ⟨-, h⟩
  · exact .action (i := .cbHost) rfl h
  · exact .action (i := .cbWritePage) rfl h
  · exact .action (i := .cbSetPage) rfl h
  · exact .action (i := .cbRelease) rfl h

/-- The Idle and Stop arms write `stop_req` and `fsm` before the action runs (R94). -/
theorem HandlerKeeps.endTransaction {s t : State} (h : endTransaction s = .next t) :
    HandlerKeeps s t :=
  HandlerKeeps.trans (t := { s with stopReq := true, fsm := fsmIdle }) ⟨rfl, id⟩ (.invoke h)

/-- The five handler arms (R88 to R92). -/
theorem HandlerKeeps.arm {i : Instr} {s t : State} (hi : i.cls = .arm) (h : exec i s = .next t) :
    HandlerKeeps s t := by
  cases i <;> cases hi
  case evtIdle => exact .endTransaction h
  case evtStop => exact .endTransaction h
  case evtSlaveAddress =>
    cases h
    exact ⟨rfl, id⟩
  case evtWritePrefix =>
    obtain ⟨-, b, -, rfl⟩ := execEvtWritePrefix_next h
    exact ⟨rfl, id⟩
  case evtWriteByte =>
    obtain ⟨-, b, -, rfl⟩ := execEvtWriteByte_next h
    exact ⟨rfl, id⟩

/-- States that agree outside the handler differ in the handler's own fields only. -/
theorem eq_of_same_outsideHandler {s t : State} (h : t.outsideHandler = s.outsideHandler) :
    t = { s with fsm := t.fsm, txd := t.txd, startReq := t.startReq, stopReq := t.stopReq,
                 dataOut := t.dataOut, txPending := t.txPending, curPage := t.curPage,
                 lock := t.lock, cmdBuf := t.cmdBuf, doneLog := t.doneLog } := by
  cases s
  cases t
  simp only [State.outsideHandler, Prod.mk.injEq] at h
  simp [h]

/-- Settles O46, selector space by selector space. -/
theorem handlerFrame : Obligations.HandlerFrame := by
  intro i s t hi h
  have hkeeps : HandlerKeeps s t := by
    cases hcls : i.cls with
    | command => exact absurd hcls hi
    | arm => exact .arm hcls h
    | action => exact .action hcls h
  obtain ⟨hout, hlock⟩ := hkeeps
  exact ⟨eq_of_same_outsideHandler hout, hlock⟩

end Sys2Proof.Machine

/-! PROOFS. Encoding (30_encoding.md): decoding and encoding are inverse in each of the three
selector spaces, the illegal words, the bytes of a word, and the CLEAR pseudo-instruction. -/

namespace Sys2Proof.Machine

/-! ### The fields of a command word (R62 to R69)

Each format is the list of its fields, high bits first, and a word is what its fields write side by
side. One such equation per format gives both directions of the round trip: reading it from the left
writes the word from its fields, and two words written side by side are equal field by field. -/

/-- Words written side by side, cut at the same place, are equal part by part. -/
theorem bv_append_inj {m n : Nat} {a c : BitVec m} {b d : BitVec n} :
    a ++ b = c ++ d ↔ a = c ∧ b = d := by
  refine ⟨fun h => ?_, fun ⟨ha, hb⟩ => ha ▸ hb ▸ rfl⟩
  have hhi := congrArg (BitVec.extractLsb' n m) h
  have hlo := congrArg (BitVec.extractLsb' 0 n) h
  rw [BitVec.extractLsb'_append_eq_left, BitVec.extractLsb'_append_eq_left] at hhi
  rw [BitVec.extractLsb'_append_eq_right, BitVec.extractLsb'_append_eq_right] at hlo
  exact ⟨hhi, hlo⟩

/-- Two adjacent fields are one field. -/
theorem fieldOf_append (w : CmdWord) {hi lo m n : Nat} (h : hi = lo + n) :
    fieldOf w hi m ++ fieldOf w lo n = fieldOf w lo (m + n) :=
  BitVec.extractLsb'_append_extractLsb'_eq_extractLsb' h

theorem fieldOf_all (w : CmdWord) : fieldOf w 0 128 = w := BitVec.extractLsb'_eq_self

/-- Format Z (R62). -/
theorem formatZ_fields (w : CmdWord) : fieldOf w 8 120 ++ fieldOf w 0 8 = w := by
  simpa only [fieldOf_append] using fieldOf_all w

/-- Format P (R63). -/
theorem formatP_fields (w : CmdWord) :
    fieldOf w 48 80 ++ fieldOf w 32 16 ++ fieldOf w 16 16 ++ fieldOf w 8 8 ++
      fieldOf w 0 8 = w := by
  simpa only [fieldOf_append] using fieldOf_all w

/-- Format R (R64). -/
theorem formatR_fields (w : CmdWord) :
    fieldOf w 80 48 ++ fieldOf w 64 16 ++ fieldOf w 48 16 ++ fieldOf w 32 16 ++ fieldOf w 16 16 ++
      fieldOf w 8 8 ++ fieldOf w 0 8 = w := by
  simpa only [fieldOf_append] using fieldOf_all w

/-- Format I (R65). -/
theorem formatI_fields (w : CmdWord) :
    fieldOf w 80 48 ++ fieldOf w 48 32 ++ fieldOf w 32 16 ++ fieldOf w 16 16 ++ fieldOf w 15 1 ++
      fieldOf w 8 7 ++ fieldOf w 0 8 = w := by
  simpa only [fieldOf_append] using fieldOf_all w

/-- Format B (R66). -/
theorem formatB_fields (w : CmdWord) : fieldOf w 16 112 ++ fieldOf w 8 8 ++ fieldOf w 0 8 = w := by
  simpa only [fieldOf_append] using fieldOf_all w

/-- Format S (R67). -/
theorem formatS_fields (w : CmdWord) :
    fieldOf w 120 8 ++ fieldOf w 104 16 ++ fieldOf w 96 8 ++ fieldOf w 80 16 ++ fieldOf w 72 8 ++
      fieldOf w 56 16 ++ fieldOf w 40 16 ++ fieldOf w 32 8 ++ fieldOf w 16 16 ++ fieldOf w 15 1 ++
      fieldOf w 8 7 ++ fieldOf w 0 8 = w := by
  simpa only [fieldOf_append] using fieldOf_all w

/-- Format E (R68). -/
theorem formatE_fields (w : CmdWord) : fieldOf w 9 119 ++ fieldOf w 8 1 ++ fieldOf w 0 8 = w := by
  simpa only [fieldOf_append] using fieldOf_all w

/-- Format F (R69). -/
theorem formatF_fields (w : CmdWord) :
    fieldOf w 32 96 ++ fieldOf w 16 16 ++ fieldOf w 8 8 ++ fieldOf w 0 8 = w := by
  simpa only [fieldOf_append] using fieldOf_all w

/-! ### Decoding and encoding a command word (R61 to R71) -/

theorem ifZero_eq_instr_iff {z : Bool} {i j : Instr} :
    ifZero z j = .instr i ↔ z = true ∧ j = i := by
  cases z <;> simp [ifZero]

theorem ifZero_reject_iff {z : Bool} {i : Instr} :
    (∃ why, ifZero z i = .reject why) ↔ ¬z = true := by
  cases z <;> simp [ifZero]

/-- A one-bit field, written from a flag and read as a flag. -/
theorem eq_ofBool_iff {x : BitVec 1} {b : Bool} : x = BitVec.ofBool b ↔ (x == 1#1) = b := by
  revert x b
  decide

theorem eq_ofNat_of_toNat {n k : Nat} {x : BitVec n} (h : x.toNat = k) : x = BitVec.ofNat n k := by
  rw [← h, BitVec.ofNat_toNat, BitVec.setWidth_eq]

/-- A command word that decodes is the one encoding of its command: its opcode and its must-be-zero
fields are the ones `encode` writes, and the other fields are the operands. -/
theorem encode_of_decodeCommand {w : CmdWord} {i : Instr} (h : decodeCommand w = .instr i) :
    encode i = .command w := by
  unfold decodeCommand at h
  split at h
  case h_13 => cases h
  all_goals
    rename_i hcode
    have hop := eq_ofNat_of_toNat hcode
    obtain ⟨hzero, rfl⟩ := ifZero_eq_instr_iff.1 h
    simp only [Bool.and_eq_true, beq_iff_eq] at hzero
    simp only [encode, encodeZ, encodeR, ← eq_ofBool_iff.2 rfl, Encoded.command.injEq]
  case h_1 => simpa only [hzero, hop] using formatI_fields w
  case h_2 => simpa only [hzero, hop] using formatP_fields w
  case h_3 | h_4 => simpa only [hzero, hop] using formatR_fields w
  case h_5 | h_7 | h_8 | h_12 => simpa only [hzero, hop] using formatZ_fields w
  case h_6 => simpa only [hzero, hop] using formatB_fields w
  case h_9 => simpa only [hzero, hop] using formatS_fields w
  case h_10 => simpa only [hzero, hop] using formatE_fields w
  case h_11 => simpa only [hzero, hop] using formatF_fields w

/-- The code of a command decodes to the command: every field of the word is what `encode` wrote
there. -/
theorem decodeCommand_of_encode {w : CmdWord} {i : Instr} (h : encode i = .command w) :
    decodeCommand w = .instr i := by
  cases i <;> simp only [encode, encodeR, reduceCtorEq, Encoded.command.injEq] at h
  case refresh | lockAcq | lockRel | rdStatus => exact h ▸ rfl
  case' init => have hfields := (formatI_fields w).trans h.symm
  case' putPixel => have hfields := (formatP_fields w).trans h.symm
  case' putRect => have hfields := (formatR_fields w).trans h.symm
  case' putLine => have hfields := (formatR_fields w).trans h.symm
  case' setBright => have hfields := (formatB_fields w).trans h.symm
  case' sched => have hfields := (formatS_fields w).trans h.symm
  case' irqEn => have hfields := (formatE_fields w).trans h.symm
  case' rdFb => have hfields := (formatF_fields w).trans h.symm
  all_goals
    simp only [bv_append_inj, eq_ofBool_iff] at hfields
    simp [decodeCommand, ifZero, hfields]

/-- An arm code that decodes is the one code of its arm (R72). -/
theorem encode_of_decodeArm {c : BitVec 3} {i : Instr} (h : decodeArm c = .instr i) :
    encode i = .arm c := by
  rcases decodeArm_cases h with ⟨rfl, rfl⟩ | ⟨rfl, rfl⟩ | ⟨rfl, rfl⟩ | ⟨rfl, rfl⟩ | ⟨rfl, rfl⟩
  all_goals rfl

/-- An action code that decodes is the one code of its action (R73). -/
theorem encode_of_decodeAction {c : BitVec 4} {i : Instr} (h : decodeAction c = .instr i) :
    encode i = .action c := by
  have all : ∀ c : BitVec 4, ∀ i ∈ (decodeAction c).toOption, encode i = .action c := by decide
  exact all c i (by rw [h]; rfl)

/-- Settles O1: the instructions without operands by running the decoder on their codes, the
commands with operands by the fields of their words. -/
theorem decodeOfEncode : Obligations.DecodeOfEncode := by
  intro i
  cases i
  case evtIdle | evtStop | evtSlaveAddress | evtWritePrefix | evtWriteByte => rfl
  case cbHost | cbWritePage | cbSetPage | cbRelease => rfl
  case refresh | lockAcq | lockRel | rdStatus => rfl
  all_goals exact decodeCommand_of_encode rfl

/-- Settles O2, selector space by selector space. -/
theorem encodeOfDecode : Obligations.EncodeOfDecode := by
  intro e i h
  cases e with
  | command w => exact encode_of_decodeCommand h
  | arm c => exact encode_of_decodeArm h
  | action c => exact encode_of_decodeAction h

/-! ### Illegal words (R71) -/

/-- The word with 1 in the bits `lo + len - 1 : lo` and 0 elsewhere. -/
def fieldMask (lo len : Nat) : CmdWord := (BitVec.allOnes len).setWidth 128 <<< lo

theorem getLsbD_fieldMask {lo len k : Nat} (hk : k < 128) :
    (fieldMask lo len).getLsbD k = decide (lo ≤ k ∧ k < lo + len) := by
  rw [Bool.eq_iff_iff]
  simp [fieldMask, hk]
  omega

theorem getLsbD_fieldOf {w : CmdWord} {lo len k : Nat} (hk : k < len) :
    (fieldOf w lo len).getLsbD k = w.getLsbD (lo + k) := by
  simp [fieldOf, hk]

/-- A field is 0 when the word has no bit under its mask. -/
theorem fieldOf_eq_zero_iff {w : CmdWord} {lo len : Nat} :
    fieldOf w lo len = 0#len ↔ w &&& fieldMask lo len = 0#128 := by
  constructor <;> intro h <;> refine BitVec.eq_of_getLsbD_eq fun k hk => ?_
  case mp =>
    rw [BitVec.getLsbD_and, getLsbD_fieldMask hk, BitVec.getLsbD_zero]
    by_cases hin : lo ≤ k ∧ k < lo + len
    · have hbit := getLsbD_fieldOf (w := w) (lo := lo) (show k - lo < len by omega)
      rw [h, BitVec.getLsbD_zero, Nat.add_sub_cancel' hin.1] at hbit
      rw [← hbit, Bool.false_and]
    · rw [decide_eq_false hin, Bool.and_false]
  case mpr =>
    rw [getLsbD_fieldOf hk, BitVec.getLsbD_zero]
    by_cases hlow : lo + k < 128
    · have hbit := congrArg (BitVec.getLsbD · (lo + k)) h
      simpa [getLsbD_fieldMask hlow, hk] using hbit
    · exact BitVec.getLsbD_of_ge w (lo + k) (by omega)

theorem and_or_eq_zero_iff {n : Nat} {w a b : BitVec n} :
    w &&& (a ||| b) = 0#n ↔ w &&& a = 0#n ∧ w &&& b = 0#n := by
  rw [BitVec.and_or_distrib_left, BitVec.or_eq_zero_iff]

/-- The illegal words, opcode by opcode: the must-be-zero bits of a format are the masks of the
fields its decoder tests. -/
theorem decodeCommand_reject_iff {w : CmdWord} : (∃ why, decodeCommand w = .reject why) ↔
    ((fieldOf w 0 8).toNat < 1 ∨ 12 < (fieldOf w 0 8).toNat ∨
      w &&& mustBeZeroBits (fieldOf w 0 8).toNat ≠ 0#128) := by
  unfold decodeCommand
  split
  case h_13 =>
    simp only [imp_false] at *
    exact iff_of_true ⟨_, rfl⟩ (by omega)
  all_goals
    rename_i hop
    rw [ifZero_reject_iff, hop]
    simp only [Nat.reduceLT, false_or, ne_eq, not_iff_not, Bool.and_eq_true, beq_iff_eq,
      fieldOf_eq_zero_iff, ← and_or_eq_zero_iff]
    rfl

/-- Between commands HOST is refused an illegal word of the port. -/
theorem hostFetch_illegal {u : State} {w : CmdWord} {ws : List CmdWord} {why : DecodeError}
    (htodo : u.todo = []) (hport : u.cmdPort = w :: ws) (hw : decodeCommand w = .reject why) :
    hostFetch u = .answer (.refused (.illegalWord why)) := by
  simp [hostFetch, htodo, hport, decodeBytes_word, hw]

/-- Settles O3: the decoder's test is the mask of R62 to R69, and HOST takes the word through its
bytes. -/
theorem illegalWordIffReserved : Obligations.IllegalWordIffReserved := by
  refine ⟨fun w => decodeCommand_reject_iff, fun s h ts w ws why hturn htodo hport hw => ?_⟩
  have hfetch : hostFetch (s.hostTurn h) = .answer (.refused (.illegalWord why)) :=
    hostFetch_illegal htodo hport hw
  rw [step_of_host hturn, hfetch, Fetched.outcome]

/-! ### A word as bytes (R60) -/

/-- Byte `k` of the bytes of a word holds its bits `8k + 7 : 8k`. -/
theorem bytesOfWord_eq_map (n w : Nat) :
    bytesOfWord n w = (List.range n).map fun k => BitVec.ofNat 8 (w / 2 ^ (8 * k)) := by
  induction n generalizing w with
  | zero => rfl
  | succ n ih =>
    have hbyte (k : Nat) : w / 256 / 2 ^ (8 * k) = w / 2 ^ (8 * (k + 1)) := by
      rw [Nat.div_div_eq_div_mul, Nat.mul_succ, Nat.pow_add', show 256 = 2 ^ 8 from rfl]
    simp [bytesOfWord, ih, List.range_succ_eq_map, hbyte, Function.comp_def]

/-- Settles O4: the 16 bytes are the ones the port carries the word in. -/
theorem commandBytesAreLittleEndian : Obligations.CommandBytesAreLittleEndian := by
  refine ⟨fun w => ?_, fun bs hlen => if_neg hlen⟩
  have hbytes : bytesOfWord 16 w.toNat = (List.range 16).map fun k => w.extractLsb' (8 * k) 8 := by
    simp only [bytesOfWord_eq_map, BitVec.extractLsb', Nat.shiftRight_eq_div_pow]
  rw [← hbytes, decodeBytes_word]

/-- Settles O5: the fixed words by running the decoder, the reserved codes one by one. -/
theorem wordsOfTheTestVectorsDecode : Obligations.WordsOfTheTestVectorsDecode := by
  have harms : ∀ c : BitVec 3, 4 < c.toNat → decodeArm c = .reject .reservedArm := by decide
  have hactions : ∀ c : BitVec 4, 4 < c.toNat → decodeAction c = .reject .reservedAction := by
    decide
  exact ⟨rfl, rfl, rfl, rfl, rfl, rfl, rfl, rfl, rfl, rfl, rfl, rfl, rfl, rfl, harms, rfl, rfl,
    hactions⟩

/-! ### Painting pixels (R140, R146, R170) -/

/-- One `set_pixel` of R140, as a write of the framebuffer memory. -/
def Memory.paint (width : Nat) (on : Bool) (m : Memory) (p : Nat × Nat) : Memory :=
  m.write (pixelIndex width p.1 p.2) (withBit (m.read (pixelIndex width p.1 p.2)) (p.2 % 8) on)

/-- One `set_pixel` after the other. -/
def Memory.paintAll (width : Nat) (on : Bool) (m : Memory) (l : List (Nat × Nat)) : Memory :=
  l.foldl (Memory.paint width on) m

theorem State.paint_eq (s : State) (x y : Nat) (on : Bool) :
    s.paint x y on = { s with fb := s.fb.paint s.width.toNat on (x, y) } := rfl

theorem Memory.paintAll_cons (width : Nat) (on : Bool) (m : Memory) (p : Nat × Nat)
    (l : List (Nat × Nat)) :
    m.paintAll width on (p :: l) = (m.paint width on p).paintAll width on l := rfl

theorem Memory.wf_paint {m : Memory} (hm : m.wf) (width : Nat) (on : Bool) (p : Nat × Nat) :
    (m.paint width on p).wf := Memory.wf_write hm _ _

theorem getLsbD_withBit {b : Byte} {bit k : Nat} {on : Bool} (hk : k < 8) :
    (withBit b bit on).getLsbD k = if k = bit then on else b.getLsbD k := by
  cases on <;> simp [withBit, hk] <;> grind

/-- Two pixels share a byte when they stand in the same column of the same page. -/
theorem pixelIndex_inj {width x y x' y' : Nat} (hx : x < width) (hx' : x' < width) :
    pixelIndex width x y = pixelIndex width x' y' ↔ x = x' ∧ y / 8 = y' / 8 := by
  refine ⟨fun h => ?_, fun ⟨hcol, hpage⟩ => by rw [pixelIndex, hcol, hpage, pixelIndex]⟩
  have hmod : x % width = x' % width := by simpa [pixelIndex] using congrArg (· % width) h
  rw [Nat.mod_eq_of_lt hx, Nat.mod_eq_of_lt hx'] at hmod
  subst hmod
  exact ⟨rfl, Nat.eq_of_mul_eq_mul_right (Nat.zero_lt_of_lt hx) (Nat.add_right_cancel h)⟩

/-- Painting a pixel gives it its colour and leaves every other pixel alone. -/
theorem pixelAt_paint {m : Memory} (hm : m.wf) {width x y : Nat} {p : Nat × Nat} (on : Bool)
    (hp : p.1 < width) (hx : x < width) :
    pixelAt (m.paint width on p) width x y = if (x, y) = p then on else pixelAt m width x y := by
  obtain ⟨px, py⟩ := p
  have hbit : y % 8 < 8 := Nat.mod_lt y (by decide)
  have hsame : (x, y) = (px, py) ↔
      pixelIndex width x y = pixelIndex width px py ∧ y % 8 = py % 8 := by
    rw [pixelIndex_inj hx hp, Prod.mk.injEq]
    omega
  rw [pixelAt, Memory.paint, Memory.read_write hm]
  by_cases hi : pixelIndex width x y = pixelIndex width px py
  · simp only [hsame, hi, getLsbD_withBit hbit, pixelAt, if_true, true_and]
  · simp only [hsame, hi, pixelAt, if_false, false_and]

/-- Painting a list of pixels gives them their colour and leaves every other pixel alone. -/
theorem pixelAt_paintAll {m : Memory} (hm : m.wf) {width x y : Nat} {l : List (Nat × Nat)}
    (on : Bool) (hl : ∀ p ∈ l, p.1 < width) (hx : x < width) :
    pixelAt (m.paintAll width on l) width x y = if (x, y) ∈ l then on else pixelAt m width x y := by
  induction l generalizing m with
  | nil => rfl
  | cons p l ih =>
    obtain ⟨hp, hl⟩ := List.forall_mem_cons.1 hl
    rw [Memory.paintAll_cons, ih (Memory.wf_paint hm width on p) hl, pixelAt_paint hm on hp hx]
    by_cases hhead : (x, y) = p <;> simp [hhead]

/-- The environment's order only rearranges the pixels (R170). -/
theorem reorder_perm {α : Type} (picks : List Nat) (l : List α) : (reorder picks l).Perm l := by
  induction picks generalizing l with
  | nil => exact .refl l
  | cons k ks ih =>
    rw [reorder]
    split
    next a ha =>
      obtain ⟨hk, rfl⟩ := List.getElem?_eq_some_iff.1 ha
      exact ((ih _).cons _).trans (List.getElem_cons_eraseIdx_perm hk)
    next hnone =>
      have hle : l.length ≤ k % l.length := List.getElem?_eq_none_iff.1 hnone
      cases l with
      | nil => exact .nil
      | cons a l => exact absurd (Nat.mod_lt k (Nat.succ_pos l.length)) (Nat.not_lt.2 hle)

/-- A pixel of the display. -/
def State.OnDisplay (s : State) (p : Nat × Nat) : Prop :=
  p.1 < s.width.toNat ∧ p.2 < s.height.toNat

/-- The byte of a pixel of the display exists (R43). -/
theorem pixelIndex_lt_fbSize {s : State} (hs : Legal s) {x y : Nat} (hx : x < s.width.toNat)
    (hy : y < s.height.toNat) : pixelIndex s.width.toNat x y < s.fbSize := by
  obtain ⟨hgeom, hpages⟩ := hs
  obtain ⟨-, -, -, -, hmul⟩ := legalGeometry_iff.1 hgeom
  have hpage : y / 8 + 1 ≤ s.numPages.toNat := by omega
  calc pixelIndex s.width.toNat x y < (y / 8 + 1) * s.width.toNat := by
        rw [pixelIndex, Nat.succ_mul]
        omega
    _ ≤ s.numPages.toNat * s.width.toNat := Nat.mul_le_mul_right _ hpage
    _ = s.fbSize := Nat.mul_comm _ _

theorem runMicro_pixel {s : State} (hs : Legal s) {p : Nat × Nat} (on : Bool)
    (hp : s.OnDisplay p) :
    runMicro (.pixel p.1 p.2 on) s = .done { s with fb := s.fb.paint s.width.toNat on p } := by
  obtain ⟨hx, hy⟩ := hp
  simp [runMicro, hx, hy, pixelIndex_lt_fbSize hs hx hy, State.paint_eq]

/-- Drawing pixels of the display, not preempted, paints them one after the other and ends Ok. -/
theorem runTodo_drawProgram {s : State} (hs : Legal s) {l : List (Nat × Nat)} (on : Bool)
    (hne : l ≠ []) (hl : ∀ p ∈ l, s.OnDisplay p) :
    runTodo none (drawProgram l on) s =
      .next ({ s with fb := s.fb.paintAll s.width.toNat on l }.finish .ok 0#24) := by
  induction l generalizing s with
  | nil => exact absurd rfl hne
  | cons p l ih =>
    obtain ⟨hp, hl⟩ := List.forall_mem_cons.1 hl
    have hpaint := runMicro_pixel hs on hp
    cases l with
    | nil => exact runTodo_single hpaint
    | cons p' l =>
      calc runTodo none (drawProgram (p :: p' :: l) on) s
        _ = runTodo none (drawProgram (p' :: l) on)
              { s with fb := s.fb.paint s.width.toNat on p } :=
          runTodo_none_cons hpaint (List.cons_ne_nil _ _)
        _ = _ := ih (s := { s with fb := s.fb.paint s.width.toNat on p }) hs
          (List.cons_ne_nil _ _) hl

/-- A drawing command of pixels of the display, not preempted, gives exactly these pixels their
colour and changes nothing else, whatever the order (R170). -/
theorem draw_paints {s : State} (hs : Legal s) (hfb : s.fb.wf) (hq : NotPreempted s)
    {l : List (Nat × Nat)} (on : Bool) (hne : l ≠ []) (hl : ∀ p ∈ l, s.OnDisplay p) :
    ∃ t, draw l on s = .next t ∧ t = { s with fb := t.fb, result := 0#32, todo := [] } ∧
      ∀ x y, x < s.width.toNat → getPixel t x y = if (x, y) ∈ l then on else getPixel s x y := by
  have hperm := reorder_perm s.choice.order l
  have hne' : reorder s.choice.order l ≠ [] := fun h => hne (h ▸ hperm).nil_eq.symm
  have hl' : ∀ p ∈ reorder s.choice.order l, s.OnDisplay p := fun p hp => hl p (hperm.mem_iff.1 hp)
  have hdraw := runTodo_drawProgram hs on hne' hl'
  rw [← hq] at hdraw
  refine ⟨_, hdraw, rfl, fun x y hx => ?_⟩
  simpa only [hperm.mem_iff, getPixel, State.finish_fb, State.finish_width] using
    pixelAt_paintAll hfb on (fun p hp => (hl' p hp).1) hx

/-! ### The CLEAR pseudo-instruction (R78, R157) -/

theorem mem_span {a b k : Nat} : k ∈ span a b ↔ a ≤ k ∧ k ≤ b := by
  rw [span, List.mem_range'_1]
  omega

theorem mem_fillPixels {xa ya xb yb x y : Nat} :
    (x, y) ∈ fillPixels xa ya xb yb ↔ (xa ≤ x ∧ x ≤ xb) ∧ (ya ≤ y ∧ y ≤ yb) := by
  simp [fillPixels, mem_span, and_comm]

/-- A coordinate of the display needs no clamping (R150). -/
theorem clamp_of_lt {v n : Nat} (h : v < n) : clamp v (n - 1) = (v, false) := by
  have hlow : ¬(v : Int) < 0 := by omega
  have hhigh : ¬((n - 1 : Nat) : Int) < v := by omega
  rw [clamp, if_neg hlow, if_neg hhigh, Int.toNat_natCast]

theorem sext16_zero : sext16 0#16 = 0 := rfl

/-- The last coordinate of an axis is no negative coordinate. -/
theorem sext16_sub_one {n : BitVec 16} (h0 : 1 ≤ n.toNat) (hn : n.toNat ≤ 8191) :
    sext16 (n - 1#16) = (n.toNat - 1 : Nat) := by
  have hsub : (n - 1#16).toNat = n.toNat - 1 := by
    rw [BitVec.toNat_sub_of_le (by simpa [BitVec.le_def] using h0), BitVec.toNat_ofNat]
  rw [sext16, BitVec.toInt_eq_toNat_of_lt (by omega), hsub]

/-- The corners of the whole display are clamped to themselves. -/
theorem clamped_display {s : State} (hs : Legal s) :
    s.clamped 0#16 0#16 (s.width - 1#16) (s.height - 1#16) =
      { x0 := 0, y0 := 0, x1 := s.width.toNat - 1, y1 := s.height.toNat - 1,
        cx0 := false, cy0 := false, cx1 := false, cy1 := false } := by
  obtain ⟨hw0, hw, hh8, hh, -⟩ := legalGeometry_iff.1 hs.1
  have hh0 : 1 ≤ s.height.toNat := by omega
  have hzero {n : Nat} (hn : 1 ≤ n) : clamp 0 (n - 1) = (0, false) := clamp_of_lt hn
  have hlast {n : Nat} (hn : 1 ≤ n) : clamp (n - 1 : Nat) (n - 1) = (n - 1, false) :=
    clamp_of_lt (by omega)
  simp only [State.clamped, clampPoints, sext16_zero, sext16_sub_one hw0 hw,
    sext16_sub_one hh0 (show s.height.toNat ≤ 8191 by omega), hzero hw0, hzero hh0, hlast hw0,
    hlast hh0]

/-- PUT_RECT that raises no error draws its pixels (R151). -/
theorem exec_putRect_draws {s : State} {params : Byte} {x0 y0 x1 y1 : Coord}
    (hinit : s.inited = true) (hparams : paramsLegal params = true)
    (hoob : oobRect (s.clamped x0 y0 x1 y1) = false) :
    exec (.putRect params x0 y0 x1 y1) s =
      draw (rectPixels (paramsFill params) (s.clamped x0 y0 x1 y1)) (paramsColor params) s := by
  simp [exec, execPutRect, hinit, hparams, hoob]

/-- CLEAR draws the box of the whole display, clearing. -/
theorem exec_clear {s : State} (hinit : s.inited = true) (hs : Legal s) :
    exec (.putRect 0x02#8 0#16 0#16 (s.width - 1#16) (s.height - 1#16)) s =
      draw (fillPixels 0 0 (s.width.toNat - 1) (s.height.toNat - 1)) false s := by
  have hbox := clamped_display hs
  rw [exec_putRect_draws hinit rfl (by rw [hbox]; rfl), hbox]
  simp [rectPixels, paramsFill, paramsColor]

/-- The box of the whole display holds exactly the pixels of the display. -/
theorem mem_displayBox_iff {s : State} (hs : Legal s) {p : Nat × Nat} :
    p ∈ fillPixels 0 0 (s.width.toNat - 1) (s.height.toNat - 1) ↔ s.OnDisplay p := by
  obtain ⟨hw0, -, hh0, -, -⟩ := legalGeometry_iff.1 hs.1
  obtain ⟨x, y⟩ := p
  rw [mem_fillPixels, State.OnDisplay]
  omega

/-- Settles O26: the one command CLEAR stands for draws the box of the whole display, which holds
every pixel. -/
theorem clearClearsEveryPixel : Obligations.ClearClearsEveryPixel := by
  intro s hinit hs hfb hq
  obtain ⟨hw0, -, hh0, -, -⟩ := legalGeometry_iff.1 hs.1
  have hcorner : s.OnDisplay (0, 0) := ⟨by omega, by omega⟩
  obtain ⟨t, hdraw, hframe, hpixel⟩ := draw_paints hs hfb hq false
    (List.ne_nil_of_mem ((mem_displayBox_iff hs).2 hcorner)) fun p => (mem_displayBox_iff hs).1
  refine ⟨_, t, rfl, (exec_clear hinit hs).trans hdraw, hframe, fun x y hx hy => ?_⟩
  rw [hpixel x y hx, if_pos ((mem_displayBox_iff hs).2 ⟨hx, hy⟩)]

end Sys2Proof.Machine

/-! PROOFS. Transaction engine (40_transaction_engine.md): what SCHED answers, the handler arms and
the completion actions, the bus agent's steps, and the run of a transaction from its START to its
STOP. -/

namespace Sys2Proof.Machine

/-! ### SCHED (R80 to R84) -/

/-- R81 (a) as bounds. -/
theorem legalCb_iff {cb : Nat} : legalCb cb = true ↔ 1 ≤ cb ∧ cb ≤ 4 := by simp [legalCb]

/-- R81 (b), space by space. -/
theorem runAdmitted_iff_runOk {s : State} {space : Byte} {off len : Len16} :
    runAdmitted s space off.toNat len.toNat = true ↔ RunOk s space off len := by
  have hempty : len.toNat = 0 ↔ len = 0#16 := by bv_omega
  have hspace : ∀ k, k < 256 → (space = BitVec.ofNat 8 k ↔ space.toNat = k) := by
    intro k hk
    bv_omega
  simp only [runAdmitted, Bool.or_eq_true, Bool.and_eq_true, decide_eq_true_eq, hempty, RunOk,
    hspace 0 (by omega), hspace 1 (by omega), hspace 2 (by omega)]
  refine or_congr Iff.rfl ⟨fun ⟨hlt, hin⟩ => ?_, ?_⟩
  · obtain h | h | h : space.toNat = 0 ∨ space.toNat = 1 ∨ space.toNat = 2 := by omega
    all_goals rw [h] at hin
    · exact .inl ⟨h, hin⟩
    · exact .inr (.inl ⟨h, hin⟩)
    · exact .inr (.inr ⟨h, hin⟩)
  · rintro (⟨h, hin⟩ | ⟨h, hin⟩ | ⟨h, hin⟩) <;> rw [h] <;> exact ⟨by omega, hin⟩

/-- A space code below 4 is stored as it is (R82). -/
theorem spaceField_toNat {free : BitVec 2} {space : Byte} (h : space.toNat < 4) :
    (spaceField free space).toNat = space.toNat := by
  rw [spaceField, if_pos h, BitVec.toNat_setWidth]
  omega

/-- A call with a null or reserved completion code is refused (R81 (a)). -/
theorem sched_refuses_callback {r : SchedReq} {s : State} (hcb : legalCb r.cb.toNat = false) :
    sched r s = .refused .schedCallback := by
  simp [sched, hcb]

/-- A call with a run outside its space is refused (R81 (b)). -/
theorem sched_refuses_span {r : SchedReq} {s : State} (hcb : legalCb r.cb.toNat = true)
    (hrun : runAdmitted s r.pfxSpace r.pfxOff r.pfxLen = false ∨
      runAdmitted s r.paySpace r.payOff r.payLen = false) :
    sched r s = .refused .schedSpan := by
  have hboth := Bool.and_eq_false_iff.2 hrun
  simp [sched, hcb, hboth]

/-- An admitted call that is not fast-fail is refused outside Idle (R84). -/
theorem sched_refuses_not_fastFail {r : SchedReq} {s : State} (hcb : legalCb r.cb.toNat = true)
    (hp : runAdmitted s r.pfxSpace r.pfxOff r.pfxLen = true)
    (hd : runAdmitted s r.paySpace r.payOff r.payLen = true) (hf : s.fsm ≠ fsmIdle)
    (hff : r.fastFail = false) : sched r s = .refused .schedNotFastFail := by
  simp [sched, hcb, hp, hd, hf, hff]

/-- Settles O27: admission as the rule states it, and then `sched_of_idle`. -/
theorem schedStartsATransaction : Obligations.SchedStartsATransaction := by
  intro s addr ff pfxOff pfxSpace pfxLen payOff paySpace payLen cb cbArg hlo hhi hpfx hpay hidle
  have hacc := sched_of_idle
    (r := ⟨addr, pfxSpace, pfxOff.toNat, pfxLen.toNat, paySpace, payOff.toNat, payLen.toNat, cb,
      cbArg, ff⟩)
    (legalCb_iff.2 ⟨hlo, hhi⟩) (runAdmitted_iff_runOk.2 hpfx) (runAdmitted_iff_runOk.2 hpay) hidle
  refine ⟨_, by rw [exec, execSched, hacc], rfl, ?descriptor, spaceField_toNat, spaceField_toNat⟩
  simp [State.start, State.finish, txdOf]

/-- Settles O28: the call is admitted, and the engine is not Idle. -/
theorem schedWhileBusyChangesNothing : Obligations.SchedWhileBusyChangesNothing := by
  intro s addr ff pfxOff pfxSpace pfxLen payOff paySpace payLen cb cbArg hlo hhi hpfx hpay hbusy hff
  have hrej := sched_of_not_idle
    (r := ⟨addr, pfxSpace, pfxOff.toNat, pfxLen.toNat, paySpace, payOff.toNat, payLen.toNat, cb,
      cbArg, ff⟩)
    (legalCb_iff.2 ⟨hlo, hhi⟩) (runAdmitted_iff_runOk.2 hpfx) (runAdmitted_iff_runOk.2 hpay)
    hbusy hff
  rw [exec, execSched, hrej]
  rfl

/-- Settles O29: the three tests of `sched`, in its order. -/
theorem schedIsRefusedOutsideItsContract : Obligations.SchedIsRefusedOutsideItsContract := by
  intro s addr ff pfxOff pfxSpace pfxLen payOff paySpace payLen cb cbArg
  have hexec : ∀ why,
      sched ⟨addr, pfxSpace, pfxOff.toNat, pfxLen.toNat, paySpace, payOff.toNat, payLen.toNat, cb,
        cbArg, ff⟩ s = .refused why →
      exec (.sched addr ff pfxOff pfxSpace pfxLen payOff paySpace payLen cb cbArg) s =
        .refused why := by
    intro why h
    rw [exec, execSched, h]
  refine ⟨fun hcb => hexec _ (sched_refuses_callback ?_), fun hlo hhi hrun => hexec _ ?_,
    fun hlo hhi hpfx hpay hbusy hff => hexec _ ?_⟩
  · rw [← Bool.not_eq_true, legalCb_iff]
    show ¬(1 ≤ cb.toNat ∧ cb.toNat ≤ 4)
    omega
  · refine sched_refuses_span (legalCb_iff.2 ⟨hlo, hhi⟩) ?_
    simpa only [← Bool.not_eq_true, runAdmitted_iff_runOk] using hrun
  · exact sched_refuses_not_fastFail (legalCb_iff.2 ⟨hlo, hhi⟩) (runAdmitted_iff_runOk.2 hpfx)
      (runAdmitted_iff_runOk.2 hpay) hbusy hff

/-! ### Taking the interrupt (R72, R87, R93) -/

/-- A reserved `fsm` code selects no arm (R72). -/
theorem decodeArm_reserved {c : BitVec 3} (h : 4 < c.toNat) :
    decodeArm c = .reject .reservedArm := by
  revert c
  decide

/-- An enabled IRQ turn takes the event and runs the arm of `fsm` (R87). -/
theorem step_of_event {s : State} {ts : List Turn} {i : Instr} (hturn : s.turns = .irq :: ts)
    (hevt : s.evtPending = true) (hen : s.irqEnable = true) (hi : decodeArm s.fsm = .instr i) :
    step s = exec i { s with turns := ts, tick := s.tick + 1, evtPending := false } := by
  rw [step_of_irq hturn, passTurn_of_turns hturn]
  simp [irqFetch, irqReady, hevt, hen, hi, Fetched.outcome, State.takeEvent]

/-- Settles O7: the enabled turn, and the reserved codes of `fsm`. -/
theorem stepRunsSelectedArm : Obligations.StepRunsSelectedArm := by
  refine fun s ts hturn hevt hen => ⟨fun i => step_of_event hturn hevt hen, fun hres => ?_⟩
  rw [step_of_irq hturn, passTurn_of_turns hturn]
  simp [irqFetch, irqReady, hevt, hen, decodeArm_reserved hres, Fetched.outcome]

/-! ### The load arms (R90 to R92) -/

/-- Settles O30: the arm has one case, and its state is the one stated. -/
theorem slaveAddressArm : Obligations.SlaveAddressArm := fun _ => rfl

/-- The WritePrefix arm with a byte at its cursor (R91). -/
theorem exec_evtWritePrefix {s : State} {b : Byte} (hrem : s.txd.pfxRem ≠ 0#16)
    (hb : memRead s s.txd.pfxSpace s.txd.pfxOff.toNat = some b) :
    exec .evtWritePrefix s = .next { s with
      dataOut := b, txPending := true, txd := s.txd.stepPrefix,
      fsm := afterAddress s.txd.stepPrefix } := by
  rw [← afterPrefix_eq]
  simp [exec, execEvtWritePrefix, hrem, hb, State.load, State.setFsm]

/-- The WriteByte arm with a byte at its cursor (R92). -/
theorem exec_evtWriteByte {s : State} {b : Byte} (hrem : s.txd.payRem ≠ 0#16)
    (hb : memRead s s.txd.paySpace s.txd.payOff.toNat = some b) :
    exec .evtWriteByte s = .next { s with
      dataOut := b, txPending := true, txd := s.txd.stepPayload,
      fsm := afterPayload s.txd.stepPayload } := by
  simp [exec, execEvtWriteByte, hrem, hb, State.load, State.setFsm]

/-- A count is 0 after its decrement exactly when it was 1 (R91, R92). -/
theorem count_sub_one_eq_zero_iff {n : Len16} : n - 1#16 = 0#16 ↔ n = 1#16 := by bv_omega

/-- Where the WritePrefix arm goes, from the counts on entry (R91). -/
theorem afterAddress_stepPrefix (d : Txd) : afterAddress d.stepPrefix =
    if d.pfxRem ≠ 1#16 then 3#3 else if d.payRem ≠ 0#16 then 4#3 else 1#3 := by
  rw [← afterPrefix_eq]
  simp only [afterPrefix, Txd.stepPrefix, count_sub_one_eq_zero_iff, ite_not]
  rfl

/-- Where the WriteByte arm goes, from the count on entry (R92). -/
theorem afterPayload_stepPayload (d : Txd) :
    afterPayload d.stepPayload = if d.payRem ≠ 1#16 then 4#3 else 1#3 := by
  simp only [afterPayload, Txd.stepPayload, count_sub_one_eq_zero_iff, ite_not]
  rfl

/-- Settles O31: the count is tested first, then the byte is looked up. -/
theorem writePrefixArm : Obligations.WritePrefixArm := by
  refine fun s => ⟨fun hrem => ?_, fun b hrem hb => ?_⟩
  · simp [exec, execEvtWritePrefix, hrem]
  · rw [exec_evtWritePrefix hrem hb, afterAddress_stepPrefix]
    rfl

/-- Settles O32: the count is tested first, then the byte is looked up. -/
theorem writeByteArm : Obligations.WriteByteArm := by
  refine fun s => ⟨fun hrem => ?_, fun b hrem hb => ?_⟩
  · simp [exec, execEvtWriteByte, hrem]
  · rw [exec_evtWriteByte hrem hb, afterPayload_stepPayload]
    rfl

/-! ### The end of a transaction (R88, R89, R94, R96) -/

/-- Settles O35: each action has one case. -/
theorem hostAndReleaseActions : Obligations.HostAndReleaseActions := fun _ => ⟨rfl, rfl⟩

/-- Codes above 4 name no completion action (R73). -/
theorem decodeAction_reserved {c : BitVec 4} (h : 4 < c.toNat) :
    decodeAction c = .reject .reservedAction := by
  revert c
  decide

/-- An action code decodes to a completion action (R60). -/
theorem decodeAction_cls {c : BitVec 4} {i : Instr} (h : decodeAction c = .instr i) :
    i.cls = .action := by
  unfold decodeAction at h
  split at h <;> cases h <;> rfl

/-- `invoke` runs the action that `txd.cb` selects (R96). -/
theorem invoke_of_decodeAction {s : State} {i : Instr} (h : decodeAction s.txd.cb = .instr i) :
    invoke s = exec i s := by
  have hcls := decodeAction_cls h
  cases i <;> cases hcls <;> simp [invoke, h, exec]

/-- The Stop and Idle arms are one (R88, R89). -/
theorem exec_endingArm {i : Instr} {s : State} (hi : i = .evtStop ∨ i = .evtIdle) :
    exec i s = invoke { s with stopReq := true, fsm := fsmIdle } := by
  rcases hi with rfl | rfl <;> rfl

/-- Settles O34: both arms invoke the action, which the code selects. -/
theorem stopAndIdleArmsEndTheTransaction : Obligations.StopAndIdleArmsEndTheTransaction := by
  intro s i hi
  have hrun : ∀ j, decodeAction s.txd.cb = .instr j →
      exec i s = exec j { s with stopReq := true, fsm := fsmIdle } := fun j hj =>
    (exec_endingArm hi).trans
      (invoke_of_decodeAction (s := { s with stopReq := true, fsm := fsmIdle }) hj)
  refine ⟨fun hcb => hrun .cbHost ?_, fun hcb => hrun .cbWritePage ?_,
    fun hcb => hrun .cbSetPage ?_, fun hcb => hrun .cbRelease ?_, fun hcb => ?null,
    fun hcb => ?reserved⟩
  case null => simp [exec_endingArm hi, invoke, hcb, decodeAction]
  case reserved => simp [exec_endingArm hi, invoke, decodeAction_reserved hcb]
  all_goals simp [hcb, decodeAction]

/-! ### The bus agent's steps (R101 to R103) -/

/-- A BUS turn with a STOP to send and no byte pending (R101). -/
theorem step_of_busStop {s : State} {ts : List Turn} (hturn : s.turns = .bus :: ts)
    (hstop : s.stopReq = true) (htx : s.txPending = false) :
    step s = .next (busStop { s with turns := ts, tick := s.tick + 1 }) := by
  rw [step_of_bus hturn, passTurn_of_turns hturn]
  simp [busStep, busStopReady, hstop, htx]

/-- A BUS turn with a START to send and no STOP before it (R102). -/
theorem step_of_busStart {s : State} {ts : List Turn} (hturn : s.turns = .bus :: ts)
    (hstart : s.startReq = true) (hstop : s.stopReq = false) (hwire : s.wire = .free)
    (hevt : s.evtPending = false) :
    step s = .next (busStart { s with turns := ts, tick := s.tick + 1 }) := by
  rw [step_of_bus hturn, passTurn_of_turns hturn]
  simp [busStep, busStopReady, busStartReady, hstart, hstop, hwire, hevt]

/-- A BUS turn with a byte to send, which shuts out BUS.STOP; the started wire shuts out BUS.START
(R103). -/
theorem step_of_busByte {s : State} {ts : List Turn} (hturn : s.turns = .bus :: ts)
    (htx : s.txPending = true) (hwire : s.wire = .started) (hevt : s.evtPending = false) :
    step s = .next (busByte { s with turns := ts, tick := s.tick + 1 }) := by
  rw [step_of_bus hturn, passTurn_of_turns hturn]
  simp [busStep, busStopReady, busStartReady, busByteReady, htx, hwire, hevt]

/-- A BUS turn with neither a STOP nor a byte to send, the wire started (R100). -/
theorem step_of_busHold {s : State} {ts : List Turn} (hturn : s.turns = .bus :: ts)
    (hstop : s.stopReq = false) (htx : s.txPending = false) (hwire : s.wire = .started) :
    step s = .next { s with turns := ts, tick := s.tick + 1 } := by
  obtain ⟨-, hbus, -⟩ := agentWithoutEnabledStepHolds s ts
  exact hbus hturn (.inl hstop) (.inr (.inr (.inl hwire))) (.inl htx)

/-- Settles O45: each guard shuts out the steps that BUS looks at before its own. -/
theorem busStepsDriveTheWire : Obligations.BusStepsDriveTheWire :=
  fun _ _ hturn => ⟨step_of_busStop hturn, step_of_busStart hturn, step_of_busByte hturn⟩

/-! ### Nothing aborts a transaction (R99) -/

/-- A micro-step does not end a transaction: the engine's fields are written by the scheduler alone,
which accepts in Idle. -/
theorem fsm_ne_idle_of_runMicro {m : Micro} {s s' : State} (hbusy : s.fsm ≠ fsmIdle)
    (h : runMicro m s = .done s') : s'.fsm ≠ fsmIdle := by
  have hsched : ∀ r, sched r s ≠ .accepted s' := fun r hacc => hbusy (sched_accepted hacc).1
  by_cases hm : .engine ∈ m.writes
  · rcases Micro.engine_mem_writes.1 hm with rfl | ⟨n, cb, rfl⟩
    · exact absurd (by simpa using runMicro_done h) (hsched (initReq s))
    · exact absurd (by simpa using runMicro_done h) (hsched (cmdReq s n cb))
  · have hsame : StatePart.engine.Same s s' := .of_runMicro h hm
    obtain ⟨-, hrest⟩ := Prod.mk.inj hsame
    rw [(Prod.mk.inj hrest).1]
    exact hbusy

/-- Nor does a run of micro-steps, wherever it stops. -/
theorem fsm_ne_idle_of_runTodo {q : Option Nat} {ms : List Micro} {s t : State}
    (hbusy : s.fsm ≠ fsmIdle) (h : runTodo q ms s = .next t) : t.fsm ≠ fsmIdle := by
  refine runTodo_induction (fun _ u => u.fsm ≠ fsmIdle) (fun u => u.fsm ≠ fsmIdle)
    (fun _ _ _ _ hu hm => fsm_ne_idle_of_runMicro hu hm) ?raise (fun _ _ hu => hu)
    (fun _ hu => hu) ms q s t hbusy h
  intro m ms' u u' hu hm
  obtain ⟨-, -, rfl⟩ := runMicro_raised hm
  exact hu

/-- Nor does a host command. -/
theorem fsm_ne_idle_of_command {i : Instr} {s t : State} (hbusy : s.fsm ≠ fsmIdle)
    (hi : i.cls = .command) (h : exec i s = .next t) : t.fsm ≠ fsmIdle := by
  rcases exec_command_next hi h with ⟨c, v, rfl⟩ | ⟨-, rfl⟩ | ⟨en, -, rfl⟩ |
    ⟨_, _, _, _, _, _, _, _, _, _, s', -, hacc, -⟩ | ⟨hrun, -⟩
  · exact hbusy
  · exact hbusy
  · exact hbusy
  · exact absurd (sched_accepted hacc).1 hbusy
  · exact fsm_ne_idle_of_runTodo hbusy hrun

/-- Nor does a completion action. -/
theorem fsm_ne_idle_of_action {i : Instr} {s t : State} (hbusy : s.fsm ≠ fsmIdle)
    (hi : i.cls = .action) (h : exec i s = .next t) : t.fsm ≠ fsmIdle := by
  cases i <;> cases hi
  case cbHost => cases h; exact hbusy
  case cbWritePage =>
    rcases writePageStep_next h with ⟨-, rfl⟩ | ⟨-, hacc, -⟩
    · exact hbusy
    · exact absurd (sched_accepted hacc).1 hbusy
  case cbSetPage =>
    rcases execCbSetPage_next h with ⟨-, rfl⟩ | ⟨-, hacc⟩
    · exact hbusy
    · rw [buildSetPage_frame] at hacc
      exact absurd (sched_accepted hacc).1 hbusy
  case cbRelease => cases h; exact hbusy

theorem afterAddress_ne_idle (d : Txd) : afterAddress d ≠ fsmIdle := by
  rcases afterAddress_cases d with ⟨hf, -⟩ | ⟨hf, -⟩ | ⟨hf, -⟩ <;> rw [hf] <;> decide

theorem afterPayload_ne_idle (d : Txd) : afterPayload d ≠ fsmIdle := by
  unfold afterPayload
  split <;> decide

/-- Of the arms, only Stop and Idle leave the engine Idle: the others load a byte and go on to the
next arm (R90 to R92). -/
theorem endingArm_of_idle {i : Instr} {s t : State} (hi : i.cls = .arm) (h : exec i s = .next t)
    (hidle : t.fsm = fsmIdle) : i = .evtStop ∨ i = .evtIdle := by
  cases i <;> cases hi
  case evtIdle => exact .inr rfl
  case evtStop => exact .inl rfl
  case evtSlaveAddress =>
    cases h
    exact absurd hidle (afterAddress_ne_idle _)
  case evtWritePrefix =>
    obtain ⟨-, b, -, rfl⟩ := execEvtWritePrefix_next h
    exact absurd hidle (afterPrefix_eq _ ▸ afterAddress_ne_idle _)
  case evtWriteByte =>
    obtain ⟨-, b, -, rfl⟩ := execEvtWriteByte_next h
    exact absurd hidle (afterPayload_ne_idle _)

/-- Settles O48, selector space by selector space. -/
theorem nothingAbortsATransaction : Obligations.NothingAbortsATransaction := by
  intro i s t h hbusy hidle
  cases hcls : i.cls with
  | command => exact absurd hidle (fsm_ne_idle_of_command hbusy hcls h)
  | arm => exact endingArm_of_idle hcls h hidle
  | action => exact absurd hidle (fsm_ne_idle_of_action hbusy hcls h)

/-! ### The handler always completes (R86, R189) -/

/-- The cursor of a run with bytes left is at a byte that exists (R40, R48). -/
theorem CursorInside.exists_byte {s : State} {space : BitVec 2} {off rem : Len16}
    (hc : CursorInside s space off rem) (hrem : rem ≠ 0#16) :
    ∃ b, memRead s space off.toNat = some b := by
  have hpos : rem.toNat ≠ 0 := fun h => hrem (BitVec.eq_of_toNat_eq h)
  have hoff : off.toNat < spaceSize s space.toNat := by
    have hin := hc.resolve_left hrem
    omega
  rw [memRead, if_pos hoff]
  unfold spaceSize at hoff
  split
  · exact ⟨_, rfl⟩
  · rename_i hspace
    rw [hspace] at hoff
    exact ⟨_, Vector.getElem?_eq_getElem hoff⟩
  · exact ⟨_, rfl⟩
  · split at hoff
    case h_4 => exact absurd hoff (Nat.not_lt_zero _)
    all_goals contradiction

/-- A scheduler call inside the handler that is accepted completes (R129). -/
theorem schedInHandler_of_accepted {r : SchedReq} {s t : State} (h : sched r s = .accepted t) :
    schedInHandler r s = .next t := by
  rw [schedInHandler, h]

/-- The page that is next lies inside FB (R125). -/
theorem sched_pageReq {s : State} (hidle : s.fsm = fsmIdle)
    (hpage : s.curPage.toNat < s.numPages.toNat) :
    sched (pageReq s) s = .accepted (s.start (pageReq s)) := by
  have hin : s.curPage.toNat * s.width.toNat + s.width.toNat ≤ s.fbSize := by
    calc s.curPage.toNat * s.width.toNat + s.width.toNat
        = (s.curPage.toNat + 1) * s.width.toNat := (Nat.succ_mul _ _).symm
      _ ≤ s.numPages.toNat * s.width.toNat := Nat.mul_le_mul_right _ hpage
      _ = s.fbSize := Nat.mul_comm _ _
  refine sched_of_idle rfl rfl ?_ hidle
  simpa [runAdmitted, pageReq, spaceSize] using .inr hin

/-- The set-page command lies inside `cmd_buf` (R124, D25). -/
theorem sched_setPageReq {s : State} (hidle : s.fsm = fsmIdle) (hp : ParamsOk s.openParams) :
    ∃ t, sched (cmdReq s s.openParams.setpageSeq.length codeWritePage) s.buildSetPage =
      .accepted t := by
  obtain ⟨-, ⟨-, hlen⟩, -, -⟩ := hp
  rw [buildSetPage_frame]
  refine ⟨_, sched_of_idle rfl ?_ rfl hidle⟩
  simpa [runAdmitted, cmdReq, spaceSize, Config.cmdSize] using .inr hlen

/-- CB_WRITE_PAGE completes (R125). -/
theorem execCbWritePage_completes {s : State} (hidle : s.fsm = fsmIdle) (hpage : PageCursor s) :
    ∃ t, execCbWritePage s = .next t := by
  by_cases hlast : s.curPage = s.numPages
  · exact ⟨_, if_pos hlast⟩
  · have hnext : s.curPage.toNat < s.numPages.toNat :=
      lt_of_le_of_ne hpage fun h => hlast (BitVec.eq_of_toNat_eq h)
    have hsched := schedInHandler_of_accepted (sched_pageReq hidle hnext)
    exact ⟨(s.start (pageReq s)).nextPage, by simp [execCbWritePage, writePageStep, hlast, hsched]⟩

/-- CB_SET_PAGE completes (R127). -/
theorem execCbSetPage_completes {s : State} (hidle : s.fsm = fsmIdle) (hp : ParamsOk s.openParams) :
    ∃ t, execCbSetPage s = .next t := by
  by_cases hlast : s.curPage = s.numPages
  · exact ⟨_, if_pos hlast⟩
  · obtain ⟨t, hacc⟩ := sched_setPageReq hidle hp
    exact ⟨t, (if_neg hlast).trans (schedInHandler_of_accepted hacc)⟩

/-- With the engine Idle, the completion action of a legal code completes (R96). -/
theorem invoke_completes {s : State} (hidle : s.fsm = fsmIdle) (hpage : PageCursor s)
    (hp : ParamsOk s.openParams) (hcb : 1 ≤ s.txd.cb.toNat ∧ s.txd.cb.toNat ≤ 4) :
    ∃ t, invoke s = .next t := by
  have hcode : s.txd.cb = 1#4 ∨ s.txd.cb = 2#4 ∨ s.txd.cb = 3#4 ∨ s.txd.cb = 4#4 := by bv_omega
  have hrun : ∀ i, decodeAction s.txd.cb = .instr i → (∃ t, exec i s = .next t) →
      ∃ t, invoke s = .next t := fun i hi ht => invoke_of_decodeAction hi ▸ ht
  rcases hcode with h | h | h | h
  · exact hrun .cbHost (by rw [h]; rfl) ⟨_, rfl⟩
  · exact hrun .cbWritePage (by rw [h]; rfl) (execCbWritePage_completes hidle hpage)
  · exact hrun .cbSetPage (by rw [h]; rfl) (execCbSetPage_completes hidle hp)
  · exact hrun .cbRelease (by rw [h]; rfl) ⟨_, rfl⟩

/-- While an event is pending, `fsm` selects an arm, and not the Idle one (R106). -/
theorem Handshake.decodeArm_of_event {s : State} (h : Handshake s) (hevt : s.evtPending = true) :
    (s.fsm = fsmStop ∧ decodeArm s.fsm = .instr .evtStop) ∨
    (s.fsm = fsmSlaveAddress ∧ decodeArm s.fsm = .instr .evtSlaveAddress) ∨
    (s.fsm = fsmWritePrefix ∧ decodeArm s.fsm = .instr .evtWritePrefix) ∨
    (s.fsm = fsmWriteByte ∧ decodeArm s.fsm = .instr .evtWriteByte) := by
  obtain ⟨hne, -⟩ := h.of_event hevt
  rcases h with ⟨hf, -⟩ | ⟨hf, -⟩ | ⟨hf | hf | hf, -⟩
  · exact absurd hf hne
  · exact .inr (.inl ⟨hf, by rw [hf]; rfl⟩)
  · exact .inr (.inr (.inl ⟨hf, by rw [hf]; rfl⟩))
  · exact .inr (.inr (.inr ⟨hf, by rw [hf]; rfl⟩))
  · exact .inl ⟨hf, by rw [hf]; rfl⟩

/-- Settles O56: with an event pending, the arm of `fsm` finds what it needs: a load arm its byte,
the Stop arm a legal completion code. The bounds on the geometry are not needed. -/
theorem handlerAlwaysCompletes : Obligations.HandlerAlwaysCompletes := by
  rintro s ts ⟨hshake, ⟨hpfx, hpay, -, hcb⟩, hpage⟩ - hcur hp hturn
  by_cases hr : irqReady s = true
  case neg =>
    have hfetch : irqFetch s.passTurn = .answer (.next s.passTurn) :=
      irqFetch_hold (Bool.eq_false_of_not_eq_true hr)
    exact ⟨s.passTurn, by rw [step_of_irq hturn, hfetch, Fetched.outcome]⟩
  case pos =>
    obtain ⟨hevt, hen⟩ : s.evtPending = true ∧ s.irqEnable = true := by simpa [irqReady] using hr
    obtain ⟨hne, -⟩ := hshake.of_event hevt
    obtain ⟨hcurPfx, hcurPay⟩ := hcur hne
    rcases hshake.decodeArm_of_event hevt with ⟨hf, hi⟩ | ⟨hf, hi⟩ | ⟨hf, hi⟩ | ⟨hf, hi⟩
    all_goals rw [step_of_event hturn hevt hen hi]
    · exact invoke_completes (s := { s with
        turns := ts, tick := s.tick + 1, evtPending := false, stopReq := true, fsm := fsmIdle })
        rfl hpage hp (hcb hne)
    · exact ⟨_, rfl⟩
    · obtain ⟨b, hb⟩ := hcurPfx.exists_byte (hpfx hf)
      exact ⟨_, exec_evtWritePrefix (hpfx hf) hb⟩
    · obtain ⟨b, hb⟩ := hcurPay.exists_byte (hpay hf).2
      exact ⟨_, exec_evtWriteByte (hpay hf).2 hb⟩

/-! ### A transaction from its START to its STOP (R85, R97, R98, R105)

BUS and IRQ move whenever they can: a pulse is two BUS turns and an IRQ turn. The first pulse puts
the START on the wire and loads the address byte; every further one puts the loaded byte on the wire
and runs the next arm; the last arm ends the transaction and leaves its STOP to BUS. -/

/-- `s` with its transaction on the wire and the byte `b` loaded: the descriptor is `d`, whose
counts have chosen the next arm, and `log`, `ts` and `n` are the wire log, the turns and the counter
now. -/
def State.onWire (s : State) (d : Txd) (b : Byte) (log : List WireSym) (ts : List Turn) (n : Nat) :
    State :=
  { s with fsm := afterAddress d, txd := d, startReq := false, stopReq := false, dataOut := b,
           txPending := true, evtPending := false, wire := .started, wireLog := log, turns := ts,
           tick := n }

/-- The bytes a cursor has still to load are `bs`, as the memory of `s` holds them. -/
def RunHolds (s : State) (space : BitVec 2) (off rem : Len16) (bs : List Byte) : Prop :=
  bs.length = rem.toNat ∧ off.toNat + bs.length ≤ 65536 ∧
    ∀ k, k < bs.length → memRead s space (off.toNat + k) = bs[k]?

/-- The bytes the descriptor `d` has still to load are `bs`: its first run, then its second. -/
def Loads (s : State) (d : Txd) (bs : List Byte) : Prop :=
  ∃ ps ds, bs = ps ++ ds ∧ RunHolds s d.pfxSpace d.pfxOff d.pfxRem ps ∧
    RunHolds s d.paySpace d.payOff d.payRem ds

theorem RunHolds.rem_eq_zero {s : State} {space : BitVec 2} {off rem : Len16}
    (h : RunHolds s space off rem []) : rem = 0#16 :=
  BitVec.eq_of_toNat_eq h.1.symm

/-- A run with bytes left: the byte at its cursor, and the run behind it. -/
theorem RunHolds.cons {s : State} {space : BitVec 2} {off rem : Len16} {b : Byte} {bs : List Byte}
    (h : RunHolds s space off rem (b :: bs)) :
    rem ≠ 0#16 ∧ memRead s space off.toNat = some b ∧
      RunHolds s space (off + 1#16) (rem - 1#16) bs := by
  obtain ⟨hlen, hoff, hread⟩ := h
  rw [List.length_cons] at hlen hoff
  have hrem : rem ≠ 0#16 := by
    rintro rfl
    simp at hlen
  refine ⟨hrem, by simpa using hread 0 (by simp), ?_, ?_, fun k hk => ?_⟩
  · bv_omega
  · bv_omega
  · have hnext : (off + 1#16).toNat + k = off.toNat + (k + 1) := by bv_omega
    rw [hnext, hread (k + 1) (by simpa using hk), List.getElem?_cons_succ]

/-- Nothing is left to load when both counts are 0. -/
theorem Loads.nil {s : State} {d : Txd} (h : Loads s d []) : d.pfxRem = 0#16 ∧ d.payRem = 0#16 := by
  obtain ⟨ps, ds, hbs, hpfx, hpay⟩ := h
  obtain ⟨rfl, rfl⟩ := List.append_eq_nil_iff.1 hbs.symm
  exact ⟨hpfx.rem_eq_zero, hpay.rem_eq_zero⟩

/-- The counts of a transaction with nothing left to load choose the Stop arm (R90 to R92). -/
theorem Loads.afterAddress_eq_stop {s : State} {d : Txd} (h : Loads s d []) :
    afterAddress d = fsmStop := if_pos h.nil

theorem run_one {s t : State} (h : step s = .next t) : Sys2Proof.core.run 1 s = .next t :=
  (run_succ 0 h).trans (run_zero t)

theorem run_two {s u t : State} (h : step s = .next u) (h' : step u = .next t) :
    Sys2Proof.core.run 2 s = .next t :=
  (run_succ 1 h).trans (run_one h')

/-- The two BUS turns of a pulse put the loaded byte on the wire and raise its event (R103); the
second one finds nothing to do. -/
theorem run_bus_onWire (s : State) (d : Txd) (b : Byte) (log : List WireSym) (ts : List Turn)
    (n : Nat) :
    Sys2Proof.core.run 2 (s.onWire d b log (.bus :: .bus :: ts) n) =
      .next { s.onWire d b (log ++ [.byte b]) ts (n + 2) with
        txPending := false, evtPending := true } :=
  run_two (step_of_busByte rfl rfl rfl rfl) (step_of_busHold rfl rfl rfl rfl)

/-- A pulse with a byte loaded: the byte goes out, and the arm that the counts chose runs. -/
theorem run_pulse_onWire {s t : State} {d : Txd} {b : Byte} {log : List WireSym} {ts : List Turn}
    {n : Nat} {i : Instr} (hen : s.irqEnable = true) (hi : decodeArm (afterAddress d) = .instr i)
    (hexec : exec i { s.onWire d b (log ++ [.byte b]) ts (n + 3) with txPending := false } =
      .next t) :
    Sys2Proof.core.run 3 (s.onWire d b log (.bus :: .bus :: .irq :: ts) n) = .next t := by
  have hirq : step { s.onWire d b (log ++ [.byte b]) (.irq :: ts) (n + 2) with
      txPending := false, evtPending := true } = .next t :=
    Eq.trans (step_of_event rfl rfl hen hi) hexec
  rw [run_add 2 1 (run_bus_onWire s d b log (.irq :: ts) n)]
  exact run_one hirq

/-- The WriteByte arm chooses the next one as the others do, once the first run is over (R92). -/
theorem exec_evtWriteByte_afterAddress {s : State} {b : Byte} (hpfx : s.txd.pfxRem = 0#16)
    (hrem : s.txd.payRem ≠ 0#16) (hb : memRead s s.txd.paySpace s.txd.payOff.toNat = some b) :
    exec .evtWriteByte s = .next { s with
      dataOut := b, txPending := true, txd := s.txd.stepPayload,
      fsm := afterAddress s.txd.stepPayload } := by
  rw [exec_evtWriteByte hrem hb, afterPayload_eq (d := s.txd.stepPayload) hpfx]

/-- A pulse with bytes left to load: the loaded byte goes out and the next one is loaded, from the
first run while it lasts (R91, R92). -/
theorem run_pulse_loads {s : State} {d : Txd} {b c : Byte} {bs : List Byte} (log : List WireSym)
    (ts : List Turn) (n : Nat) (hen : s.irqEnable = true) (hl : Loads s d (c :: bs)) :
    ∃ d', Sys2Proof.core.run 3 (s.onWire d b log (.bus :: .bus :: .irq :: ts) n) =
        .next (s.onWire d' c (log ++ [.byte b]) ts (n + 3)) ∧
      Loads s d' bs ∧ d'.cb = d.cb ∧ d'.cbArg = d.cbArg := by
  obtain ⟨ps, ds, hbs, hpfx, hpay⟩ := hl
  cases ps with
  | cons p ps =>
    obtain ⟨rfl, rfl⟩ := List.cons.inj hbs
    obtain ⟨hrem, hb, hpfx⟩ := hpfx.cons
    have harm : afterAddress d = fsmWritePrefix := by simp [afterAddress, hrem]
    exact ⟨d.stepPrefix, run_pulse_onWire hen (by rw [harm]; rfl) (exec_evtWritePrefix hrem hb),
      ⟨ps, ds, rfl, hpfx, hpay⟩, rfl, rfl⟩
  | nil =>
    obtain rfl : c :: bs = ds := hbs
    obtain ⟨hrem, hb, hpay⟩ := hpay.cons
    have hzero := hpfx.rem_eq_zero
    have harm : afterAddress d = fsmWriteByte := by simp [afterAddress, hzero, hrem]
    exact ⟨d.stepPayload, run_pulse_onWire hen (by rw [harm]; rfl)
      (exec_evtWriteByte_afterAddress hzero hrem hb), ⟨[], bs, rfl, hpfx, hpay⟩, rfl, rfl⟩

theorem pulses_succ_append (n : Nat) (ts : List Turn) :
    pulses (n + 1) ++ ts = .bus :: .bus :: .irq :: (pulses n ++ ts) := rfl

theorem pulses_succ_append' (n : Nat) (ts : List Turn) :
    pulses (n + 1) ++ ts = pulses n ++ .bus :: .bus :: .irq :: ts := by
  simp [pulses, List.replicate_succ']

/-- One pulse for every byte left: all of them go out but the last, which is loaded (R97). -/
theorem run_pulses_loads {s : State} (hen : s.irqEnable = true) (bs : List Byte) {d : Txd}
    (b : Byte) (log : List WireSym) (ts : List Turn) (n : Nat) (hl : Loads s d bs) :
    ∃ d' b' log', Sys2Proof.core.run (3 * bs.length) (s.onWire d b log (pulses bs.length ++ ts) n) =
        .next (s.onWire d' b' log' ts (n + 3 * bs.length)) ∧
      log' ++ [.byte b'] = log ++ [.byte b] ++ bs.map .byte ∧
      Loads s d' [] ∧ d'.cb = d.cb ∧ d'.cbArg = d.cbArg := by
  induction bs generalizing d b log n with
  | nil => exact ⟨d, b, log, rfl, (List.append_nil _).symm, hl, rfl, rfl⟩
  | cons c bs ih =>
    obtain ⟨d₁, hrun₁, hl₁, hcb₁, harg₁⟩ :=
      run_pulse_loads (b := b) log (pulses bs.length ++ ts) n hen hl
    obtain ⟨d₂, b₂, log₂, hrun₂, hlog₂, hl₂, hcb₂, harg₂⟩ :=
      ih c (log ++ [.byte b]) (n + 3) hl₁
    refine ⟨d₂, b₂, log₂, ?_, by rw [hlog₂]; simp, hl₂, hcb₂.trans hcb₁, harg₂.trans harg₁⟩
    have hsteps : 3 * (c :: bs).length = 3 + 3 * bs.length := by
      rw [List.length_cons]
      omega
    rw [hsteps, List.length_cons, pulses_succ_append, run_add 3 _ hrun₁, hrun₂, Nat.add_assoc]

/-- What BUS sends of the transaction before, when a new one is accepted (R101). -/
def State.pendingStop (s : State) : List WireSym := if s.stopReq then [.stop] else []

/-- A transaction just accepted: the STOP of the one before is still pending, or the wire is free
(R85). -/
def WireReady (s : State) : Prop :=
  (s.stopReq = true ∧ s.wire = .started) ∨ (s.stopReq = false ∧ s.wire = .free)

/-- `s` with its START on the wire, the first event raised, and the turns `ts` left. -/
def State.started (s : State) (ts : List Turn) : State :=
  { s with stopReq := false, wire := .started, evtPending := true,
           wireLog := s.wireLog ++ s.pendingStop ++ [.start], turns := ts, tick := s.tick + 2 }

/-- The two BUS turns of the first pulse send the old STOP, if one is pending, and the START, which
raises the first event (R101, R102). -/
theorem run_bus_start {s : State} {ts : List Turn} (hstart : s.startReq = true)
    (htx : s.txPending = false) (hevt : s.evtPending = false) (hwire : WireReady s)
    (hturn : s.turns = .bus :: .bus :: ts) :
    Sys2Proof.core.run 2 s = .next (s.started ts) := by
  rcases hwire with ⟨hstop, -⟩ | ⟨hstop, hfree⟩
  · have hsecond := step_of_busStart
      (s := busStop { s with turns := .bus :: ts, tick := s.tick + 1 }) rfl hstart rfl rfl hevt
    rw [run_two (step_of_busStop hturn hstop htx) hsecond]
    simp [State.started, State.pendingStop, hstop, busStart, busStop]
  · have hsecond := step_of_busHold
      (s := busStart { s with turns := .bus :: ts, tick := s.tick + 1 }) rfl hstop htx rfl
    rw [run_two (step_of_busStart hturn hstart hstop hfree hevt) hsecond]
    simp [State.started, State.pendingStop, hstop, busStart]

/-- The first pulse: START, and the address byte loaded (R85, R90). -/
theorem run_pulse_start {s : State} {ts : List Turn} (hfsm : s.fsm = fsmSlaveAddress)
    (hstart : s.startReq = true) (htx : s.txPending = false) (hevt : s.evtPending = false)
    (hwire : WireReady s) (hen : s.irqEnable = true)
    (hturn : s.turns = .bus :: .bus :: .irq :: ts) :
    Sys2Proof.core.run 3 s = .next (s.onWire s.txd (addressByte s.txd.addr)
      (s.wireLog ++ s.pendingStop ++ [.start]) ts (s.tick + 3)) := by
  have hi : decodeArm s.fsm = .instr .evtSlaveAddress := by rw [hfsm]; rfl
  have hirq : step (s.started (.irq :: ts)) = .next (s.onWire s.txd (addressByte s.txd.addr)
      (s.wireLog ++ s.pendingStop ++ [.start]) ts (s.tick + 3)) :=
    step_of_event (s := s.started (.irq :: ts)) rfl rfl hen hi
  rw [run_add 2 1 (run_bus_start hstart htx hevt hwire hturn)]
  exact run_one hirq

/-- The Stop arm with CB_HOST or CB_RELEASE (R89, R96, R128). -/
theorem exec_evtStop_of_hostOrRelease {s : State} (hcb : s.txd.cb = 1#4 ∨ s.txd.cb = 4#4) :
    exec .evtStop s = .next { s with
      stopReq := true, fsm := fsmIdle,
      doneLog := if s.txd.cb = 1#4 then s.doneLog ++ [s.txd.cbArg] else s.doneLog,
      lock := if s.txd.cb = 4#4 then .released else s.lock } := by
  obtain ⟨hhost, -, -, hrel, -⟩ := stopAndIdleArmsEndTheTransaction s .evtStop (.inl rfl)
  rcases hcb with h | h
  · rw [hhost h, h]
    rfl
  · rw [hrel h, h]
    rfl

/-- The last pulse, with nothing left to load, and the BUS turn behind it: the last byte goes out,
the arm ends the transaction, and BUS sends its STOP (R94, R98, R105). -/
theorem run_pulse_stop {s : State} {d : Txd} (b : Byte) (log : List WireSym) (ts : List Turn)
    (n : Nat) (hen : s.irqEnable = true) (hl : Loads s d []) (hcb : d.cb = 1#4 ∨ d.cb = 4#4) :
    Sys2Proof.core.run 4 (s.onWire d b log (.bus :: .bus :: .irq :: .bus :: ts) n) =
      .next { s.onWire d b (log ++ [.byte b] ++ [.stop]) ts (n + 4) with
        txPending := false, fsm := fsmIdle, wire := .free,
        doneLog := if d.cb = 1#4 then s.doneLog ++ [d.cbArg] else s.doneLog,
        lock := if d.cb = 4#4 then .released else s.lock } := by
  have hi : decodeArm (afterAddress d) = .instr .evtStop := by rw [hl.afterAddress_eq_stop]; rfl
  rw [run_add 3 1 (run_pulse_onWire hen hi (exec_evtStop_of_hostOrRelease hcb))]
  exact run_one (step_of_busStop rfl rfl rfl)

/-- Settles O59: the first pulse, one pulse for every byte of the two runs, and the last pulse; two
turns into the last pulse the Stop arm has not run. -/
theorem transactionRunsToItsStop : Obligations.TransactionRunsToItsStop := by
  intro s ps ds rest hfsm hstart htx hevt hwire hen hcb hps hds hpoff hdoff hpread hdread hturn
  have hl : Loads s s.txd (ps ++ ds) := ⟨ps, ds, rfl, ⟨hps, hpoff, hpread⟩, ⟨hds, hdoff, hdread⟩⟩
  rw [← List.length_append, pulses_succ_append, pulses_succ_append'] at hturn
  have hfirst := run_pulse_start hfsm hstart htx hevt hwire hen hturn
  obtain ⟨d, b, log, hloads, hlog, hdone, hdcb, hdarg⟩ := run_pulses_loads hen (ps ++ ds)
    (addressByte s.txd.addr) (s.wireLog ++ s.pendingStop ++ [.start])
    (.bus :: .bus :: .irq :: .bus :: rest) (s.tick + 3) hl
  have hrun : ∀ k, Sys2Proof.core.run (3 * (ps.length + ds.length + 1) + k) s =
      Sys2Proof.core.run k (s.onWire d b log (.bus :: .bus :: .irq :: .bus :: rest)
        (s.tick + 3 + 3 * (ps ++ ds).length)) := by
    intro k
    have hsteps : 3 * (ps.length + ds.length + 1) + k = 3 + (3 * (ps ++ ds).length + k) := by
      rw [List.length_append]
      omega
    rw [hsteps, run_add 3 _ hfirst, run_add _ k hloads]
  refine ⟨⟨_, (hrun 4).trans (run_pulse_stop b log rest _ hen hdone (hdcb ▸ hcb)), rfl, rfl, rfl,
    rfl, by rw [hdcb, hdarg], by rw [hdcb], ?wire⟩,
    ⟨_, (hrun 2).trans (run_bus_onWire s d b log _ _), ?busy, rfl, rfl⟩⟩
  case wire =>
    show log ++ [.byte b] ++ [.stop] = _
    simp [hlog, State.pendingStop, addressByte]
  case busy => exact afterAddress_ne_idle d

end Sys2Proof.Machine

/-! PROOFS. The Display Lock (41_display_lock.md): who takes and who releases it, what a command does
at its acquire, and the commands of one action: LOCK_REL, IRQ_EN and RD_STATUS. -/

namespace Sys2Proof.Machine

/-! ### The acquire (R111) -/

/-- A Released lock is taken. -/
theorem runMicro_acquire_released {s : State} (hlock : s.lock = .released) :
    runMicro .acquire s = .done (s.setLock .held) := if_pos hlock

/-- A Held lock holds the command. -/
theorem runMicro_acquire_held {s : State} (hlock : s.lock = .held) :
    runMicro .acquire s = .hold := if_neg (by simp [hlock])

/-- A command at its acquire, with the lock Held, waits there. -/
theorem runTodo_acquire_held {q : Option Nat} {ms : List Micro} {s : State}
    (hlock : s.lock = .held) :
    runTodo q (.acquire :: ms) s = .next { s with todo := .acquire :: ms } :=
  runTodo_hold (runMicro_acquire_held hlock)

/-- Settles O10: LOCK_ACQ is its acquire and nothing else. -/
theorem lockAcqTakesOrHolds : Obligations.LockAcqTakesOrHolds := fun _ =>
  ⟨fun hlock => runTodo_single (runMicro_acquire_released hlock),
    fun hlock => runTodo_acquire_held hlock⟩

/-- Settles O42: past its own test each of the four runs its micro-steps, and the first is the
acquire. -/
theorem lockingCommandsHoldAtTheAcquire : Obligations.LockingCommandsHoldAtTheAcquire := by
  intro s i hlock hi
  have hbegin : ∃ ms, exec i s = startCommand (.acquire :: ms) s := by
    rcases hi with rfl | ⟨hin, rfl | ⟨level, rfl⟩⟩ | ⟨a, w, h, f, rfl, hgeom⟩
    · exact ⟨_, rfl⟩
    · exact ⟨_, if_pos hin⟩
    · exact ⟨_, if_pos hin⟩
    · exact ⟨_, if_pos hgeom⟩
  obtain ⟨ms, hexec⟩ := hbegin
  exact ⟨ms, hexec.trans (runTodo_acquire_held hlock)⟩

/-! ### The commands that take the lock (R111, R121 to R123) -/

/-- LOCK_ACQ, REFRESH, SET_BRIGHT and INIT. -/
def TakesLock (i : Instr) : Prop :=
  i = .lockAcq ∨ i = .refresh ∨ (∃ level, i = .setBright level) ∨ ∃ a w h f, i = .init a w h f

/-- Such a command begins with its acquire. -/
theorem TakesLock.programOf_eq {i : Instr} (hi : TakesLock i) (s : State) :
    ∃ ms, programOf i s = .acquire :: ms := by
  rcases hi with rfl | rfl | ⟨level, rfl⟩ | ⟨a, w, h, f, rfl⟩ <;> exact ⟨_, rfl⟩

/-- The micro-steps of every other command are pixel writes. -/
theorem pixel_of_mem_programOf {i : Instr} {s : State} {m : Micro} (hi : ¬ TakesLock i)
    (hm : m ∈ programOf i s) : ∃ x y on, m = .pixel x y on := by
  have draws : ∀ {l on}, m ∈ drawProgram l on → ∃ x y on, m = .pixel x y on := by
    intro l on hl
    obtain ⟨x, y, -, he⟩ := mem_drawProgram hl
    exact ⟨x, y, on, he⟩
  cases i
  case init => exact absurd (.inr (.inr (.inr ⟨_, _, _, _, rfl⟩))) hi
  case refresh => exact absurd (.inr (.inl rfl)) hi
  case setBright => exact absurd (.inr (.inr (.inl ⟨_, rfl⟩))) hi
  case lockAcq => exact absurd (.inl rfl) hi
  case putPixel => exact ⟨_, _, _, List.mem_singleton.1 hm⟩
  case putRect => exact draws hm
  case putLine => exact draws hm
  all_goals cases hm

/-! ### Who takes and who releases the lock (R114) -/

/-- Pixel writes leave the lock, wherever the run of them stops. -/
theorem lock_of_runTodo_pixels {q : Option Nat} {ms : List Micro} {s t : State}
    (hms : ∀ m ∈ ms, ∃ x y on, m = .pixel x y on) (h : runTodo q ms s = .next t) :
    t.lock = s.lock := by
  refine runTodo_induction
    (fun ms' u => (∀ m ∈ ms', ∃ x y on, m = .pixel x y on) ∧ u.lock = s.lock)
    (fun u => u.lock = s.lock) ?done ?raise (fun _ _ ⟨_, hu⟩ => hu) (fun _ ⟨_, hu⟩ => hu)
    ms q s t ⟨hms, rfl⟩ h
  case done =>
    rintro m ms' u u' ⟨hpx, hu⟩ hm
    obtain ⟨⟨x, y, on, rfl⟩, hpx'⟩ := List.forall_mem_cons.1 hpx
    obtain ⟨-, -, -, rfl⟩ : x < u.width.toNat ∧ y < u.height.toNat ∧
        pixelIndex u.width.toNat x y < u.fbSize ∧ u' = u.paint x y on := by
      simpa [-Bool.exists_bool] using runMicro_done hm
    exact ⟨hpx', hu⟩
  case raise =>
    rintro m ms' u u' ⟨hpx, -⟩ hm
    obtain ⟨⟨x, y, on, rfl⟩, -⟩ := List.forall_mem_cons.1 hpx
    obtain ⟨he, -⟩ := runMicro_raised hm
    cases he

/-- What a host command does to the lock: nothing, but for LOCK_REL, and for the four that take a
Released one. -/
theorem lock_of_command {i : Instr} {s t : State} (hi : i.cls = .command)
    (h : exec i s = .next t) :
    t.lock = s.lock ∨ (i = .lockRel ∧ t.lock = .released) ∨ (TakesLock i ∧ s.lock = .released) := by
  rcases exec_command_next hi h with ⟨c, v, rfl⟩ | ⟨rfl, rfl⟩ | ⟨en, -, rfl⟩ |
    ⟨_, _, _, _, _, _, _, _, _, _, s', -, hacc, rfl⟩ | ⟨hrun, -⟩
  · exact .inl rfl
  · exact .inr (.inl ⟨rfl, rfl⟩)
  · exact .inl rfl
  · obtain ⟨-, -, -, -, rfl⟩ := sched_accepted hacc
    exact .inl rfl
  · by_cases htakes : TakesLock i
    · cases hlock : s.lock with
      | released => exact .inr (.inr ⟨htakes, rfl⟩)
      | held =>
        obtain ⟨ms, hprog⟩ := htakes.programOf_eq s
        rw [hprog, runTodo_acquire_held hlock] at hrun
        cases hrun
        exact .inl hlock
    · exact .inl (lock_of_runTodo_pixels (fun m => pixel_of_mem_programOf htakes) hrun)

/-- CB_HOST leaves the lock (R96). -/
theorem lock_of_cbHost {s t : State} (h : execCbHost s = .next t) : t.lock = s.lock := by
  cases h
  rfl

/-- An arm that writes the lock ends a transaction whose completion action gives the lock back
(R88, R89, R96). -/
theorem endingArm_of_lock_ne {i : Instr} {s t : State} (hi : i.cls = .arm) (h : exec i s = .next t)
    (hne : t.lock ≠ s.lock) :
    (i = .evtStop ∨ i = .evtIdle) ∧ (s.txd.cb = 2#4 ∨ s.txd.cb = 3#4 ∨ s.txd.cb = 4#4) := by
  have hend : endTransaction s = .next t → s.txd.cb = 2#4 ∨ s.txd.cb = 3#4 ∨ s.txd.cb = 4#4 := by
    intro hinv
    rcases invoke_next hinv with ⟨-, hhost⟩ | ⟨hcb, -⟩ | ⟨hcb, -⟩ | ⟨hcb, -⟩
    · exact absurd (lock_of_cbHost hhost) hne
    · exact .inl hcb
    · exact .inr (.inl hcb)
    · exact .inr (.inr hcb)
  cases i <;> cases hi
  case evtIdle => exact ⟨.inr rfl, hend h⟩
  case evtStop => exact ⟨.inl rfl, hend h⟩
  case evtSlaveAddress =>
    cases h
    exact absurd rfl hne
  case evtWritePrefix =>
    obtain ⟨-, b, -, rfl⟩ := execEvtWritePrefix_next h
    exact absurd rfl hne
  case evtWriteByte =>
    obtain ⟨-, b, -, rfl⟩ := execEvtWriteByte_next h
    exact absurd rfl hne

/-- A completion action that writes the lock is one of the other three (R125 to R128). -/
theorem releasing_of_action_lock_ne {i : Instr} {s t : State} (hi : i.cls = .action)
    (h : exec i s = .next t) (hne : t.lock ≠ s.lock) :
    i = .cbRelease ∨ i = .cbSetPage ∨ i = .cbWritePage := by
  cases i <;> cases hi
  case cbHost => exact absurd (lock_of_cbHost h) hne
  case cbWritePage => exact .inr (.inr rfl)
  case cbSetPage => exact .inr (.inl rfl)
  case cbRelease => exact .inl rfl

/-- Settles O49: HOST's commands by what each does to the lock; a handler step never takes it, by its
frame, and gives it back in a completion action only. -/
theorem whoTakesAndWhoReleasesTheLock : Obligations.WhoTakesAndWhoReleasesTheLock := by
  refine fun i s t h => ⟨fun hs ht => ?taken, fun hs ht => ?released⟩
  case taken =>
    by_cases hcls : i.cls = .command
    · rcases lock_of_command hcls h with hsame | ⟨-, hrel⟩ | ⟨htakes, -⟩
      · exact absurd (hsame.symm.trans ht) (by simp [hs])
      · exact absurd (hrel.symm.trans ht) (by decide)
      · exact htakes
    · obtain ⟨-, hkeep⟩ := handlerFrame i s t hcls h
      exact absurd (hkeep ht) (by simp [hs])
  case released =>
    have hne : t.lock ≠ s.lock := by simp [hs, ht]
    cases hcls : i.cls with
    | command =>
      rcases lock_of_command hcls h with hsame | ⟨hrel, -⟩ | ⟨-, hfree⟩
      · exact absurd hsame hne
      · exact .inl hrel
      · exact absurd (hs.symm.trans hfree) (by decide)
    | arm => exact .inr (.inr (.inr (.inr (endingArm_of_lock_ne hcls h hne))))
    | action =>
      rcases releasing_of_action_lock_ne hcls h hne with he | he | he
      · exact .inr (.inl he)
      · exact .inr (.inr (.inl he))
      · exact .inr (.inr (.inr (.inl he)))

/-! ### LOCK_REL, IRQ_EN and RD_STATUS (R112, R115, R116) -/

/-- Settles O11: each of the two writes its bit and delivers Ok, with no test. -/
theorem lockRelAndIrqEnWriteTheirBit : Obligations.LockRelAndIrqEnWriteTheirBit :=
  fun _ => ⟨rfl, fun _ => rfl⟩

/-- A result word cut where R33 and R34 cut it: the fields of STATUS above the 8-bit code. -/
theorem statusResult_fields (w : BitVec 32) :
    w.extractLsb' 27 5 ++ w.extractLsb' 23 4 ++ w.extractLsb' 19 4 ++ w.extractLsb' 18 1 ++
      w.extractLsb' 17 1 ++ w.extractLsb' 16 1 ++ w.extractLsb' 15 1 ++ w.extractLsb' 14 1 ++
      w.extractLsb' 13 1 ++ w.extractLsb' 12 1 ++ w.extractLsb' 11 1 ++ w.extractLsb' 8 3 ++
      w.extractLsb' 0 8 = w := by
  simpa only [BitVec.extractLsb'_append_extractLsb'_eq_extractLsb'] using BitVec.extractLsb'_eq_self

/-- A field of one bit is that bit. -/
theorem extractLsb'_one_eq_ofBool_iff {n k : Nat} {w : BitVec n} {b : Bool} :
    w.extractLsb' k 1 = BitVec.ofBool b ↔ w.getLsbD k = b := by
  have hbit : w.extractLsb' k 1 = BitVec.ofBool (w.getLsbD k) := by
    ext j hj
    simp [Nat.lt_one_iff.1 hj]
  rw [hbit]
  cases w.getLsbD k <;> cases b <;> decide

/-- The lock's bit is 1 exactly when it is Held (R27). -/
theorem lockBit_eq_ofBool (l : LockState) : l.bit = BitVec.ofBool (decide (l = .held)) := by
  cases l <;> rfl

/-- The wire's bit is 1 exactly when it is Started (R22). -/
theorem wireBit_eq_ofBool (w : Wire) : w.bit = BitVec.ofBool (decide (w = .started)) := by
  cases w <;> rfl

/-- Settles O12: `result` is the fields of `statusWord` and the code side by side, so cutting it into
fields gives each of them back. -/
theorem rdStatusReturnsTheStatusView : Obligations.RdStatusReturnsTheStatusView := by
  intro s
  refine ⟨s.finish .ok (statusWord s), rfl, rfl, ?_⟩
  rw [State.finish_result]
  generalize hw : resultWord .ok (statusWord s) = w
  have hfields := (statusResult_fields w).trans hw.symm
  simp only [resultWord, statusWord, bv_append_inj, lockBit_eq_ofBool, wireBit_eq_ofBool,
    extractLsb'_one_eq_ofBool_iff] at hfields
  simp only [hfields, Code.byte, decide_eq_true_eq, and_self]

end Sys2Proof.Machine

/-! PROOFS. Refresh pipeline (42_refresh_pipeline.md): INIT, REFRESH and SET_BRIGHT up to their
scheduler call, the two completion actions of the chain, and the run of one refresh. -/

namespace Sys2Proof.Machine

/-! ### Building a command in `cmd_buf` (R123, R124) -/

/-- The bytes of `seq` with `b` in the place of the last one. -/
def withLast (seq : List Byte) (b : Byte) : List Byte := seq.dropLast ++ [b]

/-- The set-page command for a page (R124). -/
def setPageBytes (p : OpenParams) (page : Byte) : List Byte :=
  withLast p.setpageSeq (pageBase p ||| page)

theorem length_withLast {seq : List Byte} (h : 1 ≤ seq.length) (b : Byte) :
    (withLast seq b).length = seq.length := by
  rw [withLast, List.length_append, List.length_dropLast, List.length_singleton]
  omega

theorem getElem?_withLast_of_lt {seq : List Byte} {i : Nat} (h : i < seq.length - 1) (b : Byte) :
    (withLast seq b)[i]? = seq[i]? := by
  rw [withLast, List.getElem?_append_left (by simpa using h), List.getElem?_dropLast, if_pos h]

theorem getElem?_withLast_last (seq : List Byte) (b : Byte) :
    (withLast seq b)[seq.length - 1]? = some b := by
  rw [withLast, List.getElem?_append_right (by simp)]
  simp

theorem length_setPageBytes {p : OpenParams} (hp : ParamsOk p) (page : Byte) :
    (setPageBytes p page).length = p.setpageSeq.length := by
  obtain ⟨-, ⟨hlen1, -⟩, -, -⟩ := hp
  exact length_withLast hlen1 _

/-- The command for page 0 is `SETPAGE_SEQ` itself: its last byte is `PAGE_BASE` (R132). -/
theorem setPageBytes_zero {p : OpenParams} (hp : ParamsOk p) :
    setPageBytes p 0#8 = p.setpageSeq := by
  obtain ⟨-, ⟨hlen1, -⟩, -, -⟩ := hp
  have hne : p.setpageSeq ≠ [] := List.ne_nil_of_length_pos hlen1
  have hlast : pageBase p = p.setpageSeq.getLast hne := by
    rw [pageBase, List.getLastD_eq_getLast?, List.getLast?_eq_some_getLast hne, Option.getD_some]
  rw [setPageBytes, BitVec.or_zero, hlast, withLast, List.dropLast_append_getLast]

/-- What a command written to `cmd_buf` leaves there (R29). -/
theorem getElem?_cmdWrites_zero {bs : List Byte} (h : bs.length ≤ 8) (s : State) (i : Nat) :
    (s.cmdWrites 0 bs).cmdBuf[i]? = if i < bs.length then bs[i]? else s.cmdBuf[i]? := by
  rw [cmdWrites_getElem, Nat.sub_zero]
  exact if_congr (by omega) rfl rfl

/-- A command made of `seq` with its last byte replaced, in `cmd_buf`. -/
theorem cmdBuf_of_withLast {seq : List Byte} (h1 : 1 ≤ seq.length) (h8 : seq.length ≤ 8)
    (s : State) (b : Byte) :
    (∀ i, i < seq.length - 1 → (s.cmdWrites 0 (withLast seq b)).cmdBuf[i]? = seq[i]?) ∧
    (s.cmdWrites 0 (withLast seq b)).cmdBuf[seq.length - 1]? = some b ∧
    ∀ i, seq.length ≤ i → (s.cmdWrites 0 (withLast seq b)).cmdBuf[i]? = s.cmdBuf[i]? := by
  have hlen := length_withLast h1 b
  refine ⟨fun i hi => ?_, ?_, fun i hi => ?_⟩ <;> rw [getElem?_cmdWrites_zero (hlen ▸ h8), hlen]
  · rw [if_pos (by omega), getElem?_withLast_of_lt hi]
  · rw [if_pos (by omega), getElem?_withLast_last]
  · rw [if_neg (by omega)]

theorem cmdWrites_append (bs cs : List Byte) (s : State) (i : Nat) :
    s.cmdWrites i (bs ++ cs) = (s.cmdWrites i bs).cmdWrites (i + bs.length) cs := by
  induction bs generalizing s i with
  | nil => rfl
  | cons b bs ih =>
    rw [List.cons_append, State.cmdWrites, ih, List.length_cons, State.cmdWrites, Nat.add_assoc,
      Nat.add_comm 1]

/-- The page-select byte is read from `cur_page`, which writing `cmd_buf` leaves (R124). -/
theorem buildSetPage_eq (s : State) :
    s.buildSetPage = s.cmdWrites 0 (setPageBytes s.openParams (s.curPage.setWidth 8)) := rfl

/-! ### The scheduler call of a built command (R123, R124, R129) -/

theorem runAdmitted_cmdBuf {u : State} {n : Nat} (hn : n ≤ 8) : runAdmitted u 1#8 0 n = true := by
  simpa [runAdmitted, spaceSize, Config.cmdSize] using .inr hn

/-- The call is accepted in Idle: its one run lies inside `cmd_buf`. -/
theorem sched_cmdReq_of_idle {s u : State} {n : Nat} {cb : Byte} (hn : n ≤ 8)
    (hcb : legalCb cb.toNat = true) (hidle : u.fsm = fsmIdle) :
    sched (cmdReq s n cb) u = .accepted (u.start (cmdReq s n cb)) :=
  sched_of_idle hcb (runAdmitted_cmdBuf hn) rfl hidle

/-- Outside Idle it is answered Busy. -/
theorem sched_cmdReq_of_not_idle {s u : State} {n : Nat} {cb : Byte} (hn : n ≤ 8)
    (hcb : legalCb cb.toNat = true) (hbusy : u.fsm ≠ fsmIdle) :
    sched (cmdReq s n cb) u = .busy :=
  sched_of_not_idle hcb (runAdmitted_cmdBuf hn) rfl hbusy rfl

/-- A command with only its scheduler call left completes in Idle. -/
theorem runTodo_schedCmd_of_idle {q : Option Nat} {s : State} {n : Nat} {cb : Byte} (hn : n ≤ 8)
    (hcb : legalCb cb.toNat = true) (hidle : s.fsm = fsmIdle) :
    runTodo q [.schedCmd n cb] s = .next ((s.start (cmdReq s n cb)).finish .ok 0#24) :=
  runTodo_single (by rw [runMicro, sched_cmdReq_of_idle hn hcb hidle])

/-- Outside Idle it holds there (R129). -/
theorem runTodo_schedCmd_of_not_idle {q : Option Nat} {s : State} {n : Nat} {cb : Byte}
    (hn : n ≤ 8) (hcb : legalCb cb.toNat = true) (hbusy : s.fsm ≠ fsmIdle) :
    runTodo q [.schedCmd n cb] s = .next { s with todo := [.schedCmd n cb] } :=
  runTodo_hold (by rw [runMicro, sched_cmdReq_of_not_idle hn hcb hbusy])

/-- The set-page step in the foreground builds what it builds in the handler, and has its scheduler
call left (R124). -/
theorem runTodo_setPageProgram (s : State) :
    runTodo none (setPageProgram s.openParams) s =
      runTodo none [.schedCmd s.openParams.setpageSeq.length codeWritePage] s.buildSetPage := by
  have hbuild : (s.cmdWrites 0 s.openParams.setpageSeq.dropLast).cmdWrite
      (s.openParams.setpageSeq.length - 1)
      (pageByte (s.cmdWrites 0 s.openParams.setpageSeq.dropLast) (pageBase s.openParams)) =
        s.buildSetPage := by
    rw [State.buildSetPage, cmdWrites_append, Nat.zero_add, List.length_dropLast, pageByte,
      cmdWrites_frame s.openParams.setpageSeq.dropLast s 0]
    rfl
  rw [setPageProgram, runTodo_cmdBytes _ _ (by simp), runTodo_none_cons rfl (by simp), hbuild]

/-- REFRESH with a free lock takes it, clears `cur_page`, and builds the command for page 0
(R122). -/
theorem exec_refresh_builds {s : State} (hin : s.inited = true) (hlock : s.lock = .released)
    (hq : NotPreempted s) :
    exec .refresh s = runTodo none [.schedCmd s.openParams.setpageSeq.length codeWritePage]
      (s.setLock .held).clearPage.buildSetPage := by
  rw [exec, execRefresh, if_pos hin, startCommand, hq, refreshProgram, List.cons_append,
    runTodo_none_cons (runMicro_acquire_released hlock) (by simp), List.cons_append,
    runTodo_none_cons rfl (by simp [setPageProgram]), List.nil_append]
  exact runTodo_setPageProgram (s.setLock .held).clearPage

/-- SET_BRIGHT with a free lock takes it and builds the brightness command (R123). -/
theorem exec_setBright_builds {s : State} (level : Byte) (hin : s.inited = true)
    (hlock : s.lock = .released) (hq : NotPreempted s) :
    exec (.setBright level) s = runTodo none [.schedCmd s.openParams.brightSeq.length codeRelease]
      ((s.setLock .held).cmdWrites 0 (withLast s.openParams.brightSeq level)) := by
  rw [exec, execSetBright, if_pos hin, startCommand, hq, brightProgram, List.append_assoc,
    List.cons_append, runTodo_none_cons (runMicro_acquire_released hlock) (by simp),
    List.nil_append, runTodo_cmdBytes _ _ (by simp), withLast]

/-- What REFRESH's command leaves in `cmd_buf`: `SETPAGE_SEQ` (R122, R132). -/
theorem cmdBuf_of_refresh {s : State} (hp : ParamsOk s.openParams) :
    (∀ i, i < s.openParams.setpageSeq.length →
      (s.setLock .held).clearPage.buildSetPage.cmdBuf[i]? = s.openParams.setpageSeq[i]?) ∧
    ∀ i, s.openParams.setpageSeq.length ≤ i →
      (s.setLock .held).clearPage.buildSetPage.cmdBuf[i]? = s.cmdBuf[i]? := by
  have ⟨_, ⟨_, hlen⟩, _, _⟩ := hp
  have hbuild : (s.setLock .held).clearPage.buildSetPage =
      (s.setLock .held).clearPage.cmdWrites 0 s.openParams.setpageSeq := by
    rw [buildSetPage_eq]
    exact congrArg _ (setPageBytes_zero hp)
  refine ⟨fun i hi => ?_, fun i hi => ?_⟩ <;> rw [hbuild, getElem?_cmdWrites_zero hlen]
  · exact if_pos hi
  · exact if_neg (Nat.not_lt.2 hi)

/-- Settles O40: the command is built, and its call is accepted. -/
theorem refreshStartsTheChain : Obligations.RefreshStartsTheChain := by
  intro s hin hp hlock hidle hq
  have ⟨_, ⟨_, hlen⟩, _, _⟩ := hp
  refine ⟨_, (exec_refresh_builds hin hlock hq).trans (runTodo_schedCmd_of_idle hlen rfl ?_), ?_,
    cmdBuf_of_refresh hp⟩ <;> rw [buildSetPage_frame]
  · exact hidle
  · rfl

/-- Settles O41: the command is built, and its call is accepted. -/
theorem setBrightSendsTheLevel : Obligations.SetBrightSendsTheLevel := by
  intro s level hin hp hlock hidle hq
  obtain ⟨-, -, ⟨hlen1, hlen8⟩, -⟩ := hp
  refine ⟨_, (exec_setBright_builds level hin hlock hq).trans
    (runTodo_schedCmd_of_idle hlen8 rfl ?_), ?_, cmdBuf_of_withLast hlen1 hlen8 _ level⟩ <;>
    rw [cmdWrites_frame]
  · exact hidle
  · rfl

/-- A HOST turn inside a command runs what is left of it. -/
theorem step_of_host_todo {s : State} {h : HostTurn} {ts : List Turn} {m : Micro} {ms : List Micro}
    (hturn : s.turns = .host h :: ts) (htodo : s.todo = m :: ms) :
    step s = runTodo h.quantum (m :: ms) (s.hostTurn h) := by
  have hfetch : hostFetch (s.hostTurn h) =
      .answer (runTodo h.quantum (m :: ms) (s.hostTurn h)) := by
    rw [hostFetch, show (s.hostTurn h).todo = m :: ms from htodo]
    rfl
  rw [step_of_host hturn, hfetch, Fetched.outcome]

/-- Settles O43: the command is built, and its call holds; resumed, it holds or completes by the
state of the engine then. -/
theorem refreshAndBrightWaitForTheEngine : Obligations.RefreshAndBrightWaitForTheEngine := by
  refine ⟨fun s hin hp hlock hbusy hq => ?refresh, fun s level hin hp hlock hbusy hq => ?bright,
    fun s h ts n cb hturn htodo hp hcall => ?resumed⟩
  case refresh =>
    have ⟨_, ⟨_, hlen⟩, _, _⟩ := hp
    refine ⟨_, (exec_refresh_builds hin hlock hq).trans
      (runTodo_schedCmd_of_not_idle hlen rfl ?_), ?_, cmdBuf_of_refresh hp⟩ <;>
      rw [buildSetPage_frame]
    · exact hbusy
    · rfl
  case bright =>
    obtain ⟨-, -, ⟨hlen1, hlen8⟩, -⟩ := hp
    refine ⟨_, (exec_setBright_builds level hin hlock hq).trans
      (runTodo_schedCmd_of_not_idle hlen8 rfl ?_), ?_, cmdBuf_of_withLast hlen1 hlen8 _ level⟩ <;>
      rw [cmdWrites_frame]
    · exact hbusy
    · rfl
  case resumed =>
    obtain ⟨-, ⟨-, hset⟩, ⟨-, hbright⟩, -⟩ := hp
    obtain ⟨hn, hcb⟩ : n ≤ 8 ∧ legalCb cb.toNat = true := by
      rcases hcall with ⟨rfl, rfl⟩ | ⟨rfl, rfl⟩
      · exact ⟨hset, rfl⟩
      · exact ⟨hbright, rfl⟩
    have hstep := step_of_host_todo hturn htodo
    refine ⟨fun hbusy => ?_, fun hidle => ⟨_, hstep.trans
      (runTodo_schedCmd_of_idle (s := s.hostTurn h) hn hcb hidle), ?_⟩⟩
    · have hhold := runTodo_schedCmd_of_not_idle (q := h.quantum) (s := s.hostTurn h) hn hcb hbusy
      rw [hstep, hhold, hostTurn_of_turns hturn, ← htodo]
    · rw [hostTurn_of_turns hturn]
      rfl

/-! ### The completion actions of the chain (R125 to R127) -/

/-- Settles O36: the page lies inside FB, so its call is accepted. -/
theorem writePageActionSendsThePage : Obligations.WritePageActionSendsThePage := by
  refine fun s => ⟨fun hlast => if_pos hlast, fun hpage _ hidle => ?_⟩
  have hne : s.curPage ≠ s.numPages := fun h => absurd (congrArg BitVec.toNat h) hpage.ne
  have hsched := schedInHandler_of_accepted (sched_pageReq hidle hpage)
  have hexec : exec .cbWritePage s = .next (s.start (pageReq s)).nextPage := by
    simp [exec, execCbWritePage, writePageStep, hne, hsched]
  have hdesc : txdOf (pageReq s) s.tick =
      { addr := s.busAddr, pfxSpace := 0#2, pfxOff := 0x10#16, pfxRem := 1#16, paySpace := 2#2
        payOff := BitVec.ofNat 16 (s.curPage.toNat * s.width.toNat)
        payRem := BitVec.ofNat 16 s.width.toNat, cb := 3#4, cbArg := 0#16, fastFail := true } := rfl
  rw [BitVec.ofNat_toNat, BitVec.setWidth_eq] at hdesc
  rw [hexec, State.start, hdesc]
  rfl

/-- Settles O37: the command is built, and its call is accepted. -/
theorem setPageActionSendsThePageAddress : Obligations.SetPageActionSendsThePageAddress := by
  rintro s ⟨-, ⟨hlen1, hlen8⟩, -, -⟩
  refine ⟨fun hlast => if_pos hlast, fun hne hidle => ?_⟩
  have hexec : exec .cbSetPage s = setPageStep s := if_neg hne
  refine ⟨_, hexec.trans (schedInHandler_of_accepted (sched_cmdReq_of_idle hlen8 rfl ?_)), ?_,
    cmdBuf_of_withLast hlen1 hlen8 s _⟩ <;> rw [buildSetPage_frame]
  · exact hidle
  · rfl

/-! ### INIT (R121, R212) -/

/-- The bytes at the offsets of `l` written with zero, one after the other. -/
def Memory.zeroAll (m : Memory) (l : List Nat) : Memory := l.foldl (fun m a => m.write a 0x00#8) m

theorem Memory.wf_zeroAll {m : Memory} (hm : m.wf) (l : List Nat) : (m.zeroAll l).wf := by
  induction l generalizing m with
  | nil => exact hm
  | cons a l ih => exact ih (Memory.wf_write hm a _)

theorem Memory.read_zeroAll {m : Memory} (hm : m.wf) (l : List Nat) (a : Nat) :
    (m.zeroAll l).read a = if a ∈ l then 0x00#8 else m.read a := by
  induction l generalizing m with
  | nil => rfl
  | cons k l ih =>
    rw [Memory.zeroAll, List.foldl_cons]
    refine (ih (Memory.wf_write hm k _)).trans ?_
    rw [Memory.read_write hm]
    by_cases ha : a = k <;> simp [ha]

/-- Zeroing every byte below `n` and dropping the others leaves nothing listed. -/
theorem Memory.truncate_zeroAll {m : Memory} (hm : m.wf) (n : Nat) :
    (m.zeroAll (List.range n)).truncate n = [] := by
  refine Memory.eq_nil_of_read (Memory.wf_truncate (Memory.wf_zeroAll hm _) n) fun a => ?_
  rw [Memory.read_truncate, Memory.read_zeroAll hm]
  by_cases ha : a < n <;> simp [ha]

/-- The zero fill of INIT, not preempted. -/
theorem runTodo_zeroBytes {l : List Nat} {ms : List Micro} (hms : ms ≠ []) {s : State}
    (hl : ∀ a ∈ l, a < s.fbSize) :
    runTodo none (l.map Micro.zeroByte ++ ms) s =
      runTodo none ms { s with fb := s.fb.zeroAll l } := by
  induction l generalizing s with
  | nil => rfl
  | cons a l ih =>
    obtain ⟨ha, hl⟩ := List.forall_mem_cons.1 hl
    have hzero : runMicro (.zeroByte a) s = .done (s.fbWrite a 0x00#8) := if_pos ha
    rw [List.map_cons, List.cons_append, runTodo_none_cons hzero (by simp [hms])]
    exact ih (s := s.fbWrite a 0x00#8) hl

/-- `s` with the lock taken and the handle fields of the operands written (R121). -/
def State.handleWritten (s : State) (a : BitVec 7) (w h : BitVec 16) (f : BitVec 32) : State :=
  { s with width := w, height := h, numPages := BitVec.ofNat 4 (h.toNat / 8), busAddr := a,
           busFreq := f, curPage := 0#4, lock := .held }

/-- The state INIT's scheduler attempt finds: besides, the framebuffer is cleared and `inited` is 1
(R121). -/
def State.configured (s : State) (a : BitVec 7) (w h : BitVec 16) (f : BitVec 32) : State :=
  { s.handleWritten a w h f with inited := true, fb := [] }

/-- The acquire and the handle writes of INIT, not preempted; what `setPages` does to `cur_page` is
overwritten. -/
theorem runTodo_handleWrites {s : State} (a : BitVec 7) (w h : BitVec 16) (f : BitVec 32)
    {ms : List Micro} (hms : ms ≠ []) (hlock : s.lock = .released) :
    runTodo none (.acquire :: .writeWidth w :: .writeHeight h ::
        .writePages (BitVec.ofNat 4 (h.toNat / 8)) :: .writeBusAddr a :: .writeBusFreq f ::
        .clearCurPage :: ms) s = runTodo none ms (s.handleWritten a w h f) := by
  have hwrites : ((((((s.setLock .held).setWidth w).setHeight h).setPages
      (BitVec.ofNat 4 (h.toNat / 8))).setBusAddr a).setBusFreq f).clearPage =
        s.handleWritten a w h f := by
    simp only [State.setLock, State.setWidth, State.setHeight, State.setPages, State.setBusAddr,
      State.setBusFreq, State.clearPage, State.handleWritten]
  rw [runTodo_none_cons (runMicro_acquire_released hlock) (by simp)]
  iterate 5 rw [runTodo_none_cons rfl (by simp)]
  rw [runTodo_none_cons rfl hms, hwrites]

/-- INIT with a legal geometry and a free lock, not preempted, comes to its scheduler attempt with
the handle configured (R121). -/
theorem exec_init_configures {s : State} {w h : BitVec 16} (a : BitVec 7) (f : BitVec 32)
    (hgeom : legalGeometry w.toNat h.toNat = true) (hlock : s.lock = .released) (hfb : s.fb.wf)
    (hq : NotPreempted s) :
    exec (.init a w h f) s = runTodo none [.schedInit] (s.configured a w h f) := by
  obtain ⟨-, -, -, hh, -⟩ := legalGeometry_iff.1 hgeom
  have hsize : (s.handleWritten a w h f).fbSize = w.toNat * (h.toNat / 8) := by
    have hpages : (BitVec.ofNat 4 (h.toNat / 8)).toNat = h.toNat / 8 := by
      rw [BitVec.toNat_ofNat]
      omega
    exact congrArg (w.toNat * ·) hpages
  have hclear : (s.fb.zeroAll (List.range (w.toNat * (h.toNat / 8)))).truncate
      (s.handleWritten a w h f).fbSize = [] := by rw [hsize, Memory.truncate_zeroAll hfb]
  calc exec (.init a w h f) s = runTodo none (initProgram a w h f) s := by
        rw [exec, execInit, if_pos hgeom, startCommand, hq]
    _ = runTodo none ((List.range (w.toNat * (h.toNat / 8))).map Micro.zeroByte ++
          [.setInited, .schedInit]) (s.handleWritten a w h f) := by
        rw [initProgram, List.append_assoc]
        exact runTodo_handleWrites a w h f (by simp) hlock
    _ = runTodo none [.setInited, .schedInit] { s.handleWritten a w h f with
          fb := s.fb.zeroAll (List.range (w.toNat * (h.toNat / 8))) } :=
        runTodo_zeroBytes (by simp) fun k hk => hsize ▸ List.mem_range.1 hk
    _ = runTodo none [.schedInit] { s.handleWritten a w h f with
          fb := (s.fb.zeroAll (List.range (w.toNat * (h.toNat / 8)))).truncate
            (s.handleWritten a w h f).fbSize, inited := true } := runTodo_none_cons rfl (by simp)
    _ = runTodo none [.schedInit] (s.configured a w h f) := by rw [hclear, State.configured]

/-- INIT's command lies inside `ROM` (R41, D25). -/
theorem runAdmitted_initSeq {u : State} (hp : ParamsOk u.openParams) :
    runAdmitted u 0#8 romInitSeq u.openParams.initSeq.length = true := by
  obtain ⟨⟨-, hlen⟩, -, -, -⟩ := hp
  have hin : romInitSeq + u.openParams.initSeq.length ≤ Config.romSize := by
    rw [romInitSeq, Config.romSize]
    omega
  simpa [runAdmitted, spaceSize] using .inr hin

/-- INIT's scheduler attempt in Idle sends `INIT_SEQ`. -/
theorem runMicro_schedInit_of_idle {u : State} (hp : ParamsOk u.openParams)
    (hidle : u.fsm = fsmIdle) : runMicro .schedInit u = .done (u.start (initReq u)) := by
  have hacc : sched (initReq u) u = .accepted (u.start (initReq u)) :=
    sched_of_idle rfl (runAdmitted_initSeq hp) rfl hidle
  rw [runMicro, hacc]

/-- Outside Idle it ends INIT with Busy and gives the lock back (R212). -/
theorem runMicro_schedInit_of_not_idle {u : State} (hp : ParamsOk u.openParams)
    (hbusy : u.fsm ≠ fsmIdle) :
    runMicro .schedInit u = .raised ((u.setLock .released).finish .busy 0#24) := by
  have hrej : sched (initReq u) u = .busy :=
    sched_of_not_idle rfl (runAdmitted_initSeq hp) rfl hbusy rfl
  rw [runMicro, hrej]

/-- Settles O38: the handle is configured, and the scheduler attempt is accepted. -/
theorem initConfiguresAndSchedules : Obligations.InitConfiguresAndSchedules := by
  intro s a w h f hw1 hw hmul hh8 hh hp hlock hidle hfb hq
  have hgeom := legalGeometry_iff.2 ⟨hw1, hw, hh8, hh, hmul⟩
  have hsched := runMicro_schedInit_of_idle (u := s.configured a w h f) hp hidle
  exact ⟨_, (exec_init_configures a f hgeom hlock hfb hq).trans (runTodo_single hsched), rfl⟩

/-- Settles O39: the handle is configured, and the scheduler attempt is answered Busy; an illegal
geometry fails the first test. -/
theorem initWhileBusyOrIllegal : Obligations.InitWhileBusyOrIllegal := by
  refine fun s a w h f => ⟨fun hw1 hw hmul hh8 hh hp hlock hbusy hfb hq => ?busy,
    fun hill => if_neg ?illegal⟩
  case busy =>
    have hgeom := legalGeometry_iff.2 ⟨hw1, hw, hh8, hh, hmul⟩
    have hsched := runMicro_schedInit_of_not_idle (u := s.configured a w h f) hp hbusy
    rw [exec_init_configures a f hgeom hlock hfb hq, runTodo, hsched]
    rfl
  case illegal =>
    rw [legalGeometry_iff]
    omega


/-! ### The bytes and the wire content of a refresh (R124, R125, R135) -/

/-- The bytes of a page in FB (R125). -/
def pageBytes (s : State) (p : Nat) : List Byte :=
  (List.range s.width.toNat).map fun x => s.fb.read (p * s.width.toNat + x)

/-- What a transaction of the bytes `bs` puts on the wire (R105). -/
def transactionWire (addr : BitVec 7) (bs : List Byte) : List WireSym :=
  [.start, .byte (addressByte addr)] ++ bs.map .byte ++ [.stop]

/-- What the first `n` pages of a refresh put on the wire (R135). -/
def pagesWire (s : State) (n : Nat) : List WireSym :=
  (List.range n).flatMap fun p => setPageWire s p ++ pageDataWire s p

/-- The IRQ steps of one page: its two transactions (R135). -/
def pageIrqSteps (s : State) : Nat := (s.openParams.setpageSeq.length + 2) + (s.width.toNat + 3)

theorem setPageWire_eq (s : State) (p : Nat) : setPageWire s p =
    transactionWire s.busAddr (setPageBytes s.openParams (BitVec.ofNat 8 p)) := by
  simp [setPageWire, transactionWire, setPageBytes, withLast, addressByte]

theorem pageDataWire_eq (s : State) (p : Nat) : pageDataWire s p =
    transactionWire s.busAddr (s.openParams.dataMarker :: pageBytes s p) := by
  simp [pageDataWire, transactionWire, pageBytes, addressByte]

theorem pagesWire_succ (s : State) (n : Nat) :
    pagesWire s (n + 1) = pagesWire s n ++ setPageWire s n ++ pageDataWire s n := by
  simp [pagesWire, List.range_succ]

theorem refreshWire_eq (s : State) : refreshWire s = pagesWire s s.numPages.toNat := rfl

theorem refreshIrqSteps_eq (s : State) : refreshIrqSteps s = s.numPages.toNat * pageIrqSteps s :=
  rfl

/-! ### The runs of bytes of the two transactions (R124, R125) -/

theorem runHolds_nil (s : State) (space : BitVec 2) (off : Len16) :
    RunHolds s space off 0#16 [] := ⟨rfl, by simp; omega, nofun⟩

/-- A command at the start of `cmd_buf`. -/
theorem runHolds_cmdBuf {s : State} {bs : List Byte} (h8 : bs.length ≤ 8)
    (hbuf : ∀ i, i < bs.length → s.cmdBuf[i]? = bs[i]?) :
    RunHolds s 1#2 0#16 (BitVec.ofNat 16 bs.length) bs := by
  refine ⟨?_, by simp; omega, fun k hk => ?_⟩
  · rw [BitVec.toNat_ofNat]
    omega
  · have hread : memRead s 1#2 k = s.cmdBuf[k]? := if_pos (lt_of_lt_of_le hk h8)
    rw [BitVec.toNat_ofNat, Nat.zero_mod, Nat.zero_add, hread, hbuf k hk]

/-- The data marker in ROM (R41, R134). -/
theorem runHolds_dataMarker {s : State} (hp : ParamsOk s.openParams) :
    RunHolds s 0#2 0x10#16 1#16 [s.openParams.dataMarker] := by
  obtain ⟨hrom, -⟩ := readsOfTheThreeSpaces s 0x10 hp
  obtain ⟨⟨-, hlen⟩, -, -, -⟩ := hp
  refine ⟨rfl, by simp, fun k hk => ?_⟩
  obtain rfl : k = 0 := Nat.lt_one_iff.1 hk
  exact (hrom (by omega)).trans (by rw [if_neg (by omega), if_pos rfl]; rfl)

/-- A page of the display in FB: its offset fits the 16-bit cursor (R24, R43). -/
theorem runHolds_page {s : State} (hs : Legal s) {p : Nat} (hp : p < s.numPages.toNat) :
    RunHolds s 2#2 (BitVec.ofNat 16 (p * s.width.toNat)) s.width (pageBytes s p) := by
  obtain ⟨hgeom, hpages⟩ := hs
  obtain ⟨-, hw, -, hh, -⟩ := legalGeometry_iff.1 hgeom
  have hlen : (pageBytes s p).length = s.width.toNat := by simp [pageBytes]
  have hin : p * s.width.toNat + s.width.toNat ≤ s.fbSize := by
    rw [State.fbSize, Nat.mul_comm s.width.toNat, ← Nat.succ_mul]
    exact Nat.mul_le_mul_right _ hp
  have hsize : s.fbSize ≤ 8191 * 8 := Nat.mul_le_mul hw (by omega)
  have hoff : (BitVec.ofNat 16 (p * s.width.toNat)).toNat = p * s.width.toNat := by
    rw [BitVec.toNat_ofNat]
    omega
  refine ⟨hlen, by omega, fun k hk => ?_⟩
  have hread : memRead s 2#2 (p * s.width.toNat + k) =
      some (s.fb.read (p * s.width.toNat + k)) := if_pos (by change _ < s.fbSize; omega)
  rw [hoff, hread, pageBytes, List.getElem?_map, List.getElem?_range (by omega), Option.map_some]

/-! ### The states of a refresh (R130)

`s` is the state in which REFRESH is taken from the port. The chain alternates between a transaction
just accepted and a transaction at its end, whose completion action accepts the next one. -/

/-- In `t`, inside the refresh begun in `s`: what the refresh reads is as it was in `s`, the lock is
held, `p` is the page cursor, and with the STOP that is still pending `log` has been sent. -/
structure Refreshing (s : State) (p : Nat) (log : List WireSym) (t : State) : Prop where
  fb : t.fb = s.fb
  width : t.width = s.width
  height : t.height = s.height
  numPages : t.numPages = s.numPages
  busAddr : t.busAddr = s.busAddr
  openParams : t.openParams = s.openParams
  irqEnable : t.irqEnable = true
  txPending : t.txPending = false
  evtPending : t.evtPending = false
  lock : t.lock = .held
  page : t.curPage.toNat = p
  wire : t.wireLog ++ t.pendingStop = s.wireLog ++ log

/-- A transaction of the bytes `bs`, to the bus address of the handle, has just been accepted. -/
structure Accepted (t : State) (cb : BitVec 4) (bs : List Byte) : Prop where
  fsm : t.fsm = fsmSlaveAddress
  startReq : t.startReq = true
  wire : WireReady t
  addr : t.txd.addr = t.busAddr
  cb : t.txd.cb = cb
  loads : Loads t t.txd bs

/-- A transaction has ended, but for its completion action and its STOP. -/
structure Ended (t : State) (cb : BitVec 4) : Prop where
  fsm : t.fsm = fsmIdle
  stopReq : t.stopReq = true
  wire : t.wire = .started
  cb : t.txd.cb = cb

theorem Refreshing.legal {s t : State} {p : Nat} {log : List WireSym} (h : Refreshing s p log t)
    (hs : Legal s) : Legal t := by
  rw [Legal, h.width, h.height, h.numPages]
  exact hs

theorem Refreshing.pageBytes_eq {s t : State} {p : Nat} {log : List WireSym}
    (h : Refreshing s p log t) (k : Nat) : pageBytes t k = pageBytes s k := by
  rw [pageBytes, h.width, h.fb, pageBytes]

/-- One transaction of the refresh, up to its completion action: the lock is still held two turns
into its last pulse, and what the action answers is where the run of its pulses ends (R97, R98). -/
theorem Refreshing.transaction {s t : State} {p : Nat} {log : List WireSym} {cb : BitVec 4}
    {bs : List Byte} {ts : List Turn} (h : Refreshing s p log t) (ha : Accepted t cb bs)
    (hturn : t.turns = pulses (bs.length + 2) ++ ts) :
    ∃ e, Refreshing s p (log ++ transactionWire s.busAddr bs) e ∧ Ended e cb ∧ e.turns = ts ∧
      (∃ u, Sys2Proof.core.run (3 * (bs.length + 1) + 2) t = .next u ∧ u.lock = .held) ∧
      ∀ v, invoke e = .next v → Sys2Proof.core.run (3 * (bs.length + 2)) t = .next v := by
  rw [pulses_succ_append, pulses_succ_append'] at hturn
  have hfirst := run_pulse_start ha.fsm ha.startReq h.txPending h.evtPending ha.wire h.irqEnable
    hturn
  obtain ⟨d, b, log', hloads, hlog, hdone, hcb, -⟩ := run_pulses_loads h.irqEnable bs
    (addressByte t.txd.addr) (t.wireLog ++ t.pendingStop ++ [.start]) (.bus :: .bus :: .irq :: ts)
    (t.tick + 3) ha.loads
  have hrun : ∀ k, Sys2Proof.core.run (3 * (bs.length + 1) + k) t =
      Sys2Proof.core.run k (t.onWire d b log' (.bus :: .bus :: .irq :: ts)
        (t.tick + 3 + 3 * bs.length)) := by
    intro k
    rw [show 3 * (bs.length + 1) + k = 3 + (3 * bs.length + k) by omega, run_add 3 _ hfirst,
      run_add _ k hloads]
  have hstop : decodeArm (afterAddress d) = .instr .evtStop := by
    rw [hdone.afterAddress_eq_stop]
    rfl
  refine ⟨{ t.onWire d b (log' ++ [.byte b]) ts (t.tick + 3 + 3 * bs.length + 3) with
      txPending := false, stopReq := true, fsm := fsmIdle },
    { h with txPending := rfl, evtPending := rfl, wire := ?wire },
    ⟨rfl, rfl, rfl, hcb.trans ha.cb⟩, rfl,
    ⟨_, (hrun 2).trans (run_bus_onWire t d b log' _ _), h.lock⟩, fun v hv => ?last⟩
  case wire =>
    show log' ++ [.byte b] ++ [.stop] = _
    rw [hlog, h.wire, ha.addr, h.busAddr, transactionWire]
    simp
  case last => exact (hrun 3).trans (run_pulse_onWire h.irqEnable hstop hv)

/-! ### From one transaction to the next (R125 to R127) -/

/-- A pending STOP, with its wire, is what a new transaction needs of the wire (R85). -/
theorem Ended.wireReady {e : State} {cb : BitVec 4} (he : Ended e cb) : WireReady e :=
  .inl ⟨he.stopReq, he.wire⟩

/-- The completion action of an ended transaction is the one its code selects (R96). -/
theorem Ended.invoke_eq {e : State} {cb : BitVec 4} {i : Instr} (he : Ended e cb)
    (hi : decodeAction cb = .instr i) : invoke e = exec i e :=
  invoke_of_decodeAction (he.cb.symm ▸ hi)

/-- Behind a set-page transaction the page is sent, and the cursor moves on (R125). -/
theorem Refreshing.writePage {s e : State} {p : Nat} {log : List WireSym}
    (h : Refreshing s p log e) (he : Ended e 2#4) (hs : Legal s) (hp : ParamsOk s.openParams)
    (hlt : p < s.numPages.toNat) :
    ∃ t, invoke e = .next t ∧ t.turns = e.turns ∧ Refreshing s (p + 1) log t ∧
      Accepted t 3#4 (s.openParams.dataMarker :: pageBytes s p) := by
  have hpage : e.curPage.toNat < e.numPages.toNat := by rw [h.page, h.numPages]; exact hlt
  obtain ⟨-, hnext⟩ := writePageActionSendsThePage e
  have hexec := hnext hpage (h.legal hs) he.fsm
  have hmarker := runHolds_dataMarker (s := e) (h.openParams ▸ hp)
  have hbytes := runHolds_page (h.legal hs) hpage
  rw [h.openParams] at hmarker
  rw [h.page, h.pageBytes_eq] at hbytes
  have hcur : (e.curPage + 1#4).toNat = p + 1 := by rw [← h.page]; bv_omega
  refine ⟨_, (he.invoke_eq rfl).trans hexec, rfl, { h with page := hcur },
    ⟨rfl, rfl, he.wireReady, rfl, rfl, [s.openParams.dataMarker], pageBytes s p, rfl, hmarker, ?_⟩⟩
  rw [h.page]
  exact hbytes

/-- `s` with `buf` in `cmd_buf` and its first `n` bytes accepted as a transaction without a
payload, whose cursor `sp:off` is ignored (R124). -/
def State.cmdAccepted (s : State) (buf : Vector Byte 8) (n : Nat) (sp : BitVec 2) (off : Len16) :
    State :=
  { s with
    cmdBuf := buf
    txd := { addr := s.busAddr, pfxSpace := 1#2, pfxOff := 0#16, pfxRem := BitVec.ofNat 16 n,
             paySpace := sp, payOff := off, payRem := 0#16, cb := 2#4, cbArg := 0#16,
             fastFail := true }
    fsm := 2#3, startReq := true }

/-- The set-page command for page `p`, accepted inside the refresh (R124). -/
theorem Refreshing.cmdAccepted {s e : State} {p : Nat} {log : List WireSym}
    (h : Refreshing s p log e) (hw : WireReady e) (hp : ParamsOk s.openParams)
    {buf : Vector Byte 8} (sp : BitVec 2) (off : Len16)
    (hbuf : ∀ i, i < s.openParams.setpageSeq.length →
      buf[i]? = (setPageBytes s.openParams (BitVec.ofNat 8 p))[i]?) :
    Refreshing s p log (e.cmdAccepted buf s.openParams.setpageSeq.length sp off) ∧
    Accepted (e.cmdAccepted buf s.openParams.setpageSeq.length sp off) 2#4
      (setPageBytes s.openParams (BitVec.ofNat 8 p)) := by
  have hlen := length_setPageBytes hp (BitVec.ofNat 8 p)
  obtain ⟨-, ⟨-, hlen8⟩, -, -⟩ := hp
  have hrun := runHolds_cmdBuf (s := e.cmdAccepted buf s.openParams.setpageSeq.length sp off)
    (hlen ▸ hlen8) (hlen ▸ hbuf)
  rw [hlen] at hrun
  exact ⟨{ h with }, ⟨rfl, rfl, hw, rfl, rfl, _, [], (List.append_nil _).symm, hrun,
    runHolds_nil _ _ _⟩⟩

/-- Behind a page that is not the last the set-page command of the next page is sent (R127). -/
theorem Refreshing.setPage {s e : State} {p : Nat} {log : List WireSym}
    (h : Refreshing s p log e) (he : Ended e 3#4) (hp : ParamsOk s.openParams)
    (hlt : p < s.numPages.toNat) :
    ∃ t, invoke e = .next t ∧ t.turns = e.turns ∧ Refreshing s p log t ∧
      Accepted t 2#4 (setPageBytes s.openParams (BitVec.ofNat 8 p)) := by
  have hne : e.curPage ≠ e.numPages := fun heq => by
    have := congrArg BitVec.toNat heq
    rw [h.page, h.numPages] at this
    omega
  obtain ⟨-, hnext⟩ := setPageActionSendsThePageAddress e (h.openParams ▸ hp)
  obtain ⟨t, hexec, hframe, hbytes, hlast, -⟩ := hnext hne he.fsm
  have hstate : t = e.cmdAccepted t.cmdBuf e.openParams.setpageSeq.length t.txd.paySpace
    t.txd.payOff := hframe
  rw [h.openParams] at hbytes hlast hstate
  have hcur : e.curPage.setWidth 8 = BitVec.ofNat 8 p := by rw [← h.page, BitVec.ofNat_toNat]
  have hbuf : ∀ i, i < s.openParams.setpageSeq.length →
      t.cmdBuf[i]? = (setPageBytes s.openParams (BitVec.ofNat 8 p))[i]? := by
    intro i hi
    by_cases hl : i < s.openParams.setpageSeq.length - 1
    · rw [hbytes i hl, setPageBytes, getElem?_withLast_of_lt hl]
    · obtain rfl : i = s.openParams.setpageSeq.length - 1 := by omega
      rw [hlast, setPageBytes, getElem?_withLast_last, hcur]
  obtain ⟨hr, ha⟩ := h.cmdAccepted he.wireReady hp t.txd.paySpace t.txd.payOff hbuf
  exact ⟨_, (he.invoke_eq rfl).trans hexec, by rw [hframe], hstate ▸ hr, hstate ▸ ha⟩

/-- Behind the last page the lock is given back (R127). -/
theorem Refreshing.release {s e : State} {log : List WireSym}
    (h : Refreshing s s.numPages.toNat log e) (he : Ended e 3#4) :
    invoke e = .next (e.setLock .released) := by
  have heq : e.curPage = e.numPages := by
    rw [h.numPages]
    exact BitVec.eq_of_toNat_eq h.page
  exact (he.invoke_eq (i := .cbSetPage) rfl).trans (if_pos heq)

/-! ### Page by page (R130, R135) -/

/-- The refresh begun in `s` has just had its set-page command for page `p` accepted. -/
def AtPage (s : State) (p : Nat) (t : State) : Prop :=
  Refreshing s p (pagesWire s p) t ∧
    Accepted t 2#4 (setPageBytes s.openParams (BitVec.ofNat 8 p))

theorem pulses_add_append (m n : Nat) (ts : List Turn) :
    pulses (m + n) ++ ts = pulses m ++ (pulses n ++ ts) := by
  rw [pulses, List.replicate_add, List.flatten_append, List.append_assoc, pulses, pulses]

/-- The two transactions of one page, up to the completion action of the second. -/
theorem AtPage.sendsPage {s t : State} {p : Nat} {ts : List Turn} (h : AtPage s p t)
    (hs : Legal s) (hp : ParamsOk s.openParams) (hlt : p < s.numPages.toNat)
    (hturn : t.turns = pulses (pageIrqSteps s) ++ ts) :
    ∃ e, Refreshing s (p + 1) (pagesWire s (p + 1)) e ∧ Ended e 3#4 ∧ e.turns = ts ∧
      (∃ u, Sys2Proof.core.run (3 * pageIrqSteps s - 1) t = .next u ∧ u.lock = .held) ∧
      ∀ v, invoke e = .next v → Sys2Proof.core.run (3 * pageIrqSteps s) t = .next v := by
  obtain ⟨hr, ha⟩ := h
  have hset := length_setPageBytes hp (BitVec.ofNat 8 p)
  have hpage : (s.openParams.dataMarker :: pageBytes s p).length = s.width.toNat + 1 := by
    simp [pageBytes]
  rw [pageIrqSteps, pulses_add_append, ← hset] at hturn
  obtain ⟨e₁, hr₁, he₁, hturn₁, -, hrun₁⟩ := hr.transaction ha hturn
  obtain ⟨t₂, hinv, hturn₂, hr₂, ha₂⟩ := hr₁.writePage he₁ hs hp hlt
  have hfirst := hrun₁ t₂ hinv
  rw [hset] at hfirst
  have hturns : t₂.turns = pulses ((s.openParams.dataMarker :: pageBytes s p).length + 2) ++ ts :=
    by rw [hturn₂, hturn₁, hpage]
  obtain ⟨e₃, hr₃, he₃, hturn₃, ⟨u, hrunu, hu⟩, hrun₃⟩ := hr₂.transaction ha₂ hturns
  rw [hpage] at hrunu hrun₃
  have hsplit : ∀ k, Sys2Proof.core.run (3 * (s.openParams.setpageSeq.length + 2) + k) t =
      Sys2Proof.core.run k t₂ := fun k => run_add _ k hfirst
  refine ⟨e₃, ?wire, he₃, hturn₃, ⟨u, ?_, hu⟩, fun v hv => ?_⟩
  case wire =>
    rw [pagesWire_succ, setPageWire_eq, pageDataWire_eq]
    exact hr₃
  · rw [← hrunu, ← hsplit, pageIrqSteps]
    congr 1
    omega
  · rw [← hrun₃ v hv, ← hsplit, pageIrqSteps]
    congr 1
    omega

/-- Page after page, each begun where the one before ended. -/
theorem AtPage.reaches {s t : State} {ts : List Turn} (h : AtPage s 0 t) (hs : Legal s)
    (hp : ParamsOk s.openParams) (hturn : t.turns = pulses (refreshIrqSteps s) ++ ts) (p : Nat)
    (hlt : p < s.numPages.toNat) :
    ∃ v, Sys2Proof.core.run (3 * (p * pageIrqSteps s)) t = .next v ∧ AtPage s p v ∧
      v.turns = pulses ((s.numPages.toNat - p) * pageIrqSteps s) ++ ts := by
  induction p with
  | zero => exact ⟨t, by rw [Nat.zero_mul]; rfl, h, hturn⟩
  | succ p ih =>
    obtain ⟨v, hrun, hv, hturn⟩ := ih (by omega)
    have hleft : s.numPages.toNat - p = 1 + (s.numPages.toNat - (p + 1)) := by omega
    rw [hleft, Nat.add_mul, Nat.one_mul, pulses_add_append] at hturn
    obtain ⟨e, hr, he, hturn, -, hend⟩ := hv.sendsPage hs hp (by omega) hturn
    obtain ⟨v', hinv, hturn', hr', ha'⟩ := hr.setPage he hp hlt
    refine ⟨v', ?_, ⟨hr', ha'⟩, hturn'.trans hturn⟩
    rw [Nat.succ_mul p, Nat.mul_add, run_add _ _ hrun, hend v' hinv]

/-- The last page, the release of the lock, and the last STOP. -/
theorem AtPage.completes {s t : State} {rest : List Turn} (h : AtPage s 0 t) (hs : Legal s)
    (hp : ParamsOk s.openParams) (hturn : t.turns = pulses (refreshIrqSteps s) ++ .bus :: rest) :
    (∃ v, Sys2Proof.core.run (3 * refreshIrqSteps s + 1) t = .next v ∧
      v.wireLog = s.wireLog ++ refreshWire s ∧ v.curPage = s.numPages ∧ v.fsm = fsmIdle ∧
      v.lock = .released ∧ v.fb = s.fb ∧ v.turns = rest) ∧
    ∃ u, Sys2Proof.core.run (3 * refreshIrqSteps s - 1) t = .next u ∧ u.lock = .held := by
  have ⟨hgeom, hpages⟩ := hs
  obtain ⟨-, -, hh8, -, -⟩ := legalGeometry_iff.1 hgeom
  obtain ⟨n, hn⟩ : ∃ n, s.numPages.toNat = n + 1 := Nat.exists_eq_succ_of_ne_zero (by omega)
  obtain ⟨v, hrun, hv, hturn⟩ := h.reaches hs hp hturn n (by omega)
  rw [hn, Nat.add_sub_cancel_left, Nat.one_mul] at hturn
  obtain ⟨e, hr, he, hturn, ⟨u, hrunu, hu⟩, hend⟩ := hv.sendsPage hs hp (by omega) hturn
  rw [← hn] at hr
  have hsteps : refreshIrqSteps s = n * pageIrqSteps s + pageIrqSteps s := by
    rw [refreshIrqSteps_eq, hn, Nat.succ_mul]
  have hpos : 1 ≤ pageIrqSteps s := by rw [pageIrqSteps]; omega
  have hsplit : ∀ k, Sys2Proof.core.run (3 * (n * pageIrqSteps s) + k) t =
      Sys2Proof.core.run k v := fun k => run_add _ k hrun
  have hlast : Sys2Proof.core.run (3 * refreshIrqSteps s) t = .next (e.setLock .released) := by
    rw [← hend _ (hr.release he), ← hsplit, hsteps, Nat.mul_add]
  have hbus : step (e.setLock .released) = _ :=
    step_of_busStop (s := e.setLock .released) hturn he.stopReq hr.txPending
  refine ⟨⟨_, (run_add _ 1 hlast).trans (run_one hbus), ?wire, ?page, he.fsm, rfl, hr.fb, rfl⟩,
    u, ?_, hu⟩
  case wire =>
    have hpending : e.pendingStop = [.stop] := if_pos he.stopReq
    show e.wireLog ++ [.stop] = _
    rw [← hpending]
    exact hr.wire
  case page => exact BitVec.eq_of_toNat_eq hr.page
  · rw [← hrunu, ← hsplit, hsteps]
    congr 1
    omega

/-! ### The lock until the last IRQ turn (R130) -/

/-- A turn of IRQ or BUS takes the next turn off the list, and does not take the lock. -/
theorem step_of_not_host {s t : State} {tn : Turn} {ts : List Turn} (hturn : s.turns = tn :: ts)
    (hhost : ∀ h, tn ≠ .host h) (h : step s = .next t) :
    t.turns = ts ∧ (t.lock = .held → s.lock = .held) := by
  have hpass : s.passTurn.turns = ts := by rw [passTurn_of_turns hturn]
  have htn : turnOf s = tn := turnOf_of_turns hturn
  rcases step_cases h with ⟨hc, _, _, ht, -⟩ | ⟨hc, ht, -⟩ | ⟨hc, _, _, _, ht, -⟩ | ⟨-, -, rfl⟩ |
    ⟨i, -, -, -, hi, hexec⟩ | ⟨-, rfl⟩
  · exact absurd (htn.symm.trans ht) (hhost hc)
  · exact absurd (htn.symm.trans ht) (hhost hc)
  · exact absurd (htn.symm.trans ht) (hhost hc)
  · exact ⟨hpass, id⟩
  · obtain ⟨hframe, hlock⟩ := handlerFrame i _ t (by rw [decodeArm_cls hi]; decide) hexec
    exact ⟨(congrArg State.turns hframe).trans hpass, hlock⟩
  · rcases busStep_cases s.passTurn with ⟨-, he⟩ | ⟨-, he⟩ | ⟨-, he⟩ | ⟨-, -, -, he⟩ <;> rw [he] <;>
      exact ⟨hpass, id⟩

/-- A lock that is Held after turns of IRQ and BUS was Held all along. -/
theorem lock_held_of_run {n : Nat} {s t : State} {l r : List Turn} (hturns : s.turns = l ++ r)
    (hn : n ≤ l.length) (hhost : ∀ tn ∈ l, ∀ h, tn ≠ .host h)
    (h : Sys2Proof.core.run n s = .next t) (ht : t.lock = .held) :
    ∀ k, k ≤ n → ∃ u, Sys2Proof.core.run k s = .next u ∧ u.lock = .held := by
  induction n generalizing s l with
  | zero =>
    intro k hk
    rw [Nat.le_zero.1 hk]
    exact ⟨t, h, ht⟩
  | succ n ih =>
    obtain ⟨s', hs', hrun⟩ := run_succ_next h
    cases l with
    | nil => exact absurd hn (Nat.not_succ_le_zero n)
    | cons tn l =>
      obtain ⟨htn, hl⟩ := List.forall_mem_cons.1 hhost
      obtain ⟨hturns', hlock⟩ := step_of_not_host hturns htn hs'
      have hafter := ih hturns' (Nat.le_of_succ_le_succ hn) hl hrun
      intro k hk
      cases k with
      | zero =>
        obtain ⟨u, hu, hheld⟩ := hafter 0 (Nat.zero_le n)
        cases hu
        exact ⟨s, rfl, hlock hheld⟩
      | succ k =>
        rw [run_succ k hs']
        exact hafter k (Nat.le_of_succ_le_succ hk)

theorem length_pulses (n : Nat) : (pulses n).length = 3 * n := by
  simp [pulses, Nat.mul_comm]

theorem ne_host_of_mem_pulses {n : Nat} {tn : Turn} (h : tn ∈ pulses n) (hc : HostTurn) :
    tn ≠ .host hc := by
  rintro rfl
  simp [pulses] at h

/-! ### The whole refresh (R122, R130, R135) -/

/-- The HOST turn that takes REFRESH from the port in a quiescent state: the set-page command for
page 0 is accepted. -/
theorem step_refresh {s : State} {o : List Nat} {ws : List CmdWord} {ts : List Turn}
    (hq : Quiescent s) (hin : s.inited = true) (hp : ParamsOk s.openParams)
    (hen : s.irqEnable = true) (hport : s.cmdPort = 0x05#128 :: ws)
    (hturn : s.turns = .host { quantum := none, order := o } :: ts) :
    ∃ t, step s = .next t ∧ t.turns = ts ∧ AtPage s 0 t := by
  obtain ⟨hidle, hlock, -, hstop, htx, hevt, hwire, htodo⟩ := hq
  have hstep := stepRunsDecodedCommand s _ ts _ ws .refresh hturn htodo hport rfl
  obtain ⟨t, hexec, hframe, hbytes, -⟩ := refreshStartsTheChain
    { s with turns := ts, tick := s.tick + 1, choice := ⟨none, o⟩, cmdPort := ws }
    hin hp hlock hidle rfl
  have hbuf : ∀ i, i < s.openParams.setpageSeq.length →
      t.cmdBuf[i]? = (setPageBytes s.openParams (BitVec.ofNat 8 0))[i]? := by
    intro i hi
    rw [setPageBytes_zero hp]
    exact hbytes i hi
  have hbegun : Refreshing s 0 [] { s with
      turns := ts, tick := s.tick + 1, choice := ⟨none, o⟩, cmdPort := ws, lock := .held,
      curPage := 0#4, result := 0#32, todo := [] } :=
    ⟨rfl, rfl, rfl, rfl, rfl, rfl, hen, htx, hevt, rfl, rfl, by simp [State.pendingStop, hstop]⟩
  have hat := hbegun.cmdAccepted (.inr ⟨hstop, hwire⟩) hp t.txd.paySpace t.txd.payOff hbuf
  refine ⟨t, hstep.trans hexec, congrArg State.turns hframe, ?_⟩
  rw [hframe]
  exact hat

/-- Settles O60: the HOST turn accepts the command for page 0, and the pulses send page after page;
the lock is Held just before the last IRQ turn, so it was Held all along. -/
theorem refreshSendsEveryPageInOrder : Obligations.RefreshSendsEveryPageInOrder := by
  intro s o ws rest hq hin hs hp hen hport hturn
  obtain ⟨t, hstep, hturn, hat⟩ := step_refresh hq hin hp hen hport hturn
  obtain ⟨⟨v, hrun, hv⟩, u, hrunu, hu⟩ := hat.completes hs hp hturn
  have hsplit : ∀ k, Sys2Proof.core.run (1 + k) s = Sys2Proof.core.run k t := fun k =>
    run_add 1 k (run_one hstep)
  refine ⟨⟨v, by rw [Nat.add_assoc, hsplit, hrun], hv⟩, fun k hk1 hk => ?_⟩
  obtain ⟨j, rfl⟩ := Nat.exists_eq_add_of_le hk1
  rw [hsplit]
  exact lock_held_of_run hturn (by rw [length_pulses]; omega) (fun _ => ne_host_of_mem_pulses)
    hrunu hu j (by omega)

end Sys2Proof.Machine

/-! PROOFS. Framebuffer pixel (43_framebuffer_pixel.md): what PUT_PIXEL answers and the one pixel it
paints, and the byte RD_FB delivers. -/

namespace Sys2Proof.Machine

/-! ### PUT_PIXEL (R140, R142) -/

/-- A coordinate that is not outside is no negative one: its unsigned value is the column or the
row. -/
theorem sext16_of_not_outside {v : Coord} {n : Nat} (h : ¬Outside v n) :
    sext16 v = v.toNat ∧ v.toNat < n := by
  obtain ⟨hnonneg, hlt⟩ := not_or.1 h
  have hcond := BitVec.toInt_eq_toNat_cond v
  rw [sext16]
  omega

/-- The bounds check of R142. -/
theorem pixelInBounds_iff {s : State} {x y : Coord} :
    pixelInBounds s x y = true ↔ ¬Outside x s.width.toNat ∧ ¬Outside y s.height.toNat := by
  simp only [pixelInBounds, Bool.and_eq_true, decide_eq_true_eq]
  simp [Outside, sext16, and_assoc]

theorem paramsLegal_iff {params : Byte} : paramsLegal params = true ↔ params.toNat ≤ 3 :=
  decide_eq_true_iff

/-- Illegal params are reported first, whatever the coordinates. -/
theorem exec_putPixel_invalidParams {s : State} {params : Byte} (x y : Coord)
    (hin : s.inited = true) (hp : 3 < params.toNat) :
    exec (.putPixel params x y) s = .next (s.finish .invalidParams 0#24) := by
  have hillegal : paramsLegal params = false :=
    Bool.eq_false_iff.2 fun h => absurd (paramsLegal_iff.1 h) (Nat.not_le.2 hp)
  simp [exec, execPutPixel, raise, hin, hillegal]

theorem exec_putPixel_outOfBounds {s : State} {params : Byte} {x y : Coord}
    (hin : s.inited = true) (hp : params.toNat ≤ 3)
    (hout : Outside x s.width.toNat ∨ Outside y s.height.toNat) :
    exec (.putPixel params x y) s = .next (s.finish .outOfBounds 0#24) := by
  have hbounds : pixelInBounds s x y = false :=
    Bool.eq_false_iff.2 fun h => absurd hout (not_or.2 (pixelInBounds_iff.1 h))
  simp [exec, execPutPixel, raise, hin, paramsLegal_iff.2 hp, hbounds]

/-- PUT_PIXEL that raises no error paints its pixel and ends Ok: its one micro-step leaves no place
for a preemption, so the quantum of the turn does not matter. -/
theorem exec_putPixel_paints {s : State} {params : Byte} {x y : Coord} (hin : s.inited = true)
    (hs : Legal s) (hp : params.toNat ≤ 3) (hx : ¬Outside x s.width.toNat)
    (hy : ¬Outside y s.height.toNat) :
    exec (.putPixel params x y) s =
      .next ({ s with fb := s.fb.paint s.width.toNat (params.getLsbD 0) (x.toNat, y.toNat) }.finish
        .ok 0#24) := by
  obtain ⟨hxval, hxlt⟩ := sext16_of_not_outside hx
  obtain ⟨hyval, hylt⟩ := sext16_of_not_outside hy
  have hpaint := runMicro_pixel hs (p := (x.toNat, y.toNat)) (params.getLsbD 0) ⟨hxlt, hylt⟩
  have hbounds : pixelInBounds s x y = true := pixelInBounds_iff.2 ⟨hx, hy⟩
  calc exec (.putPixel params x y) s
    _ = startCommand [.pixel x.toNat y.toNat (params.getLsbD 0)] s := by
      simp [exec, execPutPixel, hin, paramsLegal_iff.2 hp, hbounds, hxval, hyval, paramsColor]
    _ = _ := runTodo_single hpaint

/-- Painting a pixel touches no byte but its own. -/
theorem Memory.read_paint_of_ne {m : Memory} (hm : m.wf) {width a : Nat} {p : Nat × Nat} (on : Bool)
    (ha : a ≠ pixelIndex width p.1 p.2) : (m.paint width on p).read a = m.read a := by
  rw [Memory.paint, Memory.read_write hm, if_neg ha]

/-- In its byte, painting a pixel touches no bit but its own. -/
theorem Memory.getLsbD_read_paint {m : Memory} (hm : m.wf) {width j : Nat} {p : Nat × Nat}
    (on : Bool) (hj : j < 8) :
    ((m.paint width on p).read (pixelIndex width p.1 p.2)).getLsbD j =
      if j = p.2 % 8 then on else (m.read (pixelIndex width p.1 p.2)).getLsbD j := by
  rw [Memory.paint, Memory.read_write hm, if_pos rfl, getLsbD_withBit hj]

/-- Settles O14: the errors in the order of the checks, and the one byte the pixel is written in. -/
theorem putPixelWritesOneBit : Obligations.PutPixelWritesOneBit := by
  intro s params x y
  refine ⟨?refused, exec_putPixel_invalidParams x y, exec_putPixel_outOfBounds,
    fun hin hs hfb hp hx hy => ?paints⟩
  case refused =>
    intro hin
    obtain ⟨-, -, hpixel, -⟩ := commandsBeforeInitAreRefused s hin
    exact hpixel params x y
  case paints =>
    exact ⟨_, exec_putPixel_paints hin hs hp hx hy, rfl,
      fun a ha => Memory.read_paint_of_ne hfb _ ha,
      fun j hj => Memory.getLsbD_read_paint hfb _ hj⟩

/-- Settles O15: the framebuffer is the old one with one pixel painted. -/
theorem putPixelReadsBack : Obligations.PutPixelReadsBack := by
  intro s params x y hin hs hfb hp hx hy
  obtain ⟨-, hxlt⟩ := sext16_of_not_outside hx
  have hpixel : ∀ x' y', x' < s.width.toNat →
      pixelAt (s.fb.paint s.width.toNat (params.getLsbD 0) (x.toNat, y.toNat)) s.width.toNat x' y' =
        if (x', y') = (x.toNat, y.toNat) then params.getLsbD 0 else getPixel s x' y' :=
    fun x' y' hx' => pixelAt_paint hfb (params.getLsbD 0) hxlt hx'
  refine ⟨_, exec_putPixel_paints hin hs hp hx hy, ?written, fun x' y' hx' _ hne => ?others⟩
  case written => exact (hpixel _ _ hxlt).trans (if_pos rfl)
  case others => exact (hpixel x' y' hx').trans (if_neg hne)

/-! ### RD_FB (R144) -/

/-- The result word of RD_FB: the code Ok below the byte. -/
theorem resultWord_ok_byte (b : Byte) : resultWord .ok (b.setWidth 24) = 0#16 ++ b ++ 0#8 := by
  have hvalue : b.setWidth 24 = 0#16 ++ b := BitVec.setWidth_eq_append (by decide)
  rw [resultWord, hvalue, Code.byte]

theorem exec_rdFb {s : State} (hin : s.inited = true) (off : Len16) :
    exec (.rdFb off) s =
      if off.toNat < s.fbSize then .next (s.finish .ok ((s.fb.read off.toNat).setWidth 24))
      else .refused .readOutsideFb := by
  simp [exec, execRdFb, hin]

/-- Settles O13: refused before INIT like every command of the display, then by the offset. -/
theorem rdFbReturnsTheByte : Obligations.RdFbReturnsTheByte := by
  intro s off
  refine ⟨fun hin hoff => ?inside, fun hin => ?refused, fun hin hoff => ?outside⟩
  case inside => rw [exec_rdFb hin, State.fbSize, if_pos hoff, State.finish, resultWord_ok_byte]
  case refused =>
    obtain ⟨-, -, -, -, hread⟩ := commandsBeforeInitAreRefused s hin
    exact hread off
  case outside => rw [exec_rdFb hin, State.fbSize, if_neg (Nat.not_lt.2 hoff)]

end Sys2Proof.Machine

/-! PROOFS. Drawing primitives (44_drawing_primitives.md): clamping, the runs of a staircase, the
pixels of rectangles and lines, and what PUT_RECT and PUT_LINE paint, in any order and with any
preemption. -/

namespace Sys2Proof.Machine

/-! ### Clamped coordinates (R150) -/

/-- Clamping an operand to an axis gives the nearest coordinate of the axis. -/
theorem clamp_fst {n : Nat} (hn : 1 ≤ n) (v : Coord) :
    ((clamp (sext16 v) (n - 1)).1 : Int) = nearest v n := by
  unfold clamp sext16 nearest
  split
  · simp only [Nat.cast_zero]
    omega
  · split <;> omega

/-- An operand is clamped exactly when it is outside its axis. -/
theorem clamp_snd {n : Nat} (hn : 1 ≤ n) (v : Coord) :
    (clamp (sext16 v) (n - 1)).2 = true ↔ Outside v n := by
  unfold clamp sext16 Outside
  split
  next hlow => exact ⟨fun _ => .inl hlow, fun _ => rfl⟩
  next hlow =>
    split
    next hhigh => exact ⟨fun _ => .inr (by omega), fun _ => rfl⟩
    next hhigh =>
      rw [Bool.false_eq_true, false_iff]
      omega

theorem clamp_fst_lt {n : Nat} (hn : 1 ≤ n) (v : Coord) : (clamp (sext16 v) (n - 1)).1 < n := by
  have h := clamp_fst hn v
  unfold nearest at h
  omega

/-! ### The staircase (R166 to R168) -/

theorem stairStart_eq {small : Nat} (hsmall : 1 ≤ small) (big j : Nat) :
    stairStart big small j = j * (big / small) + j * (big % small) / small := by
  have hsplit : j * big = small * (j * (big / small)) + j * (big % small) := by
    conv_lhs => rw [← Nat.div_add_mod big small]
    ring
  rw [stairStart, hsplit, Nat.mul_add_div hsmall]

/-- Each run gets the remainder's next whole step, which is at most one pixel. -/
theorem stairStep_cases {small : Nat} (hsmall : 1 ≤ small) (big j : Nat) :
    (j + 1) * (big % small) / small = j * (big % small) / small ∨
    (big % small ≠ 0 ∧ (j + 1) * (big % small) / small = j * (big % small) / small + 1) := by
  have hrem : big % small < small := Nat.mod_lt big hsmall
  have hmono : j * (big % small) / small ≤ (j * (big % small) + big % small) / small :=
    Nat.div_le_div_right (Nat.le_add_right _ _)
  have hstep : (j * (big % small) + big % small) / small ≤ (j * (big % small) + small) / small :=
    Nat.div_le_div_right (by omega)
  rw [Nat.add_div_right _ hsmall] at hstep
  rw [Nat.succ_mul]
  by_cases h0 : big % small = 0
  · simp [h0]
  · omega

theorem stairStart_succ {small : Nat} (hsmall : 1 ≤ small) (big j : Nat) :
    stairStart big small (j + 1) = stairStart big small j + stairLen big small j := by
  have hcases := stairStep_cases hsmall big j
  rw [stairStart_eq hsmall, stairStart_eq hsmall, stairLen, Nat.succ_mul]
  omega

theorem stairStart_zero (big small : Nat) : stairStart big small 0 = 0 := by simp [stairStart]

theorem stairStart_last {small : Nat} (hsmall : 1 ≤ small) (big : Nat) :
    stairStart big small small = big := Nat.mul_div_cancel_left big hsmall

theorem stairLen_eq_succ_iff {small : Nat} (hsmall : 1 ≤ small) (big j : Nat) :
    stairLen big small j = big / small + 1 ↔
      (j + 1) * (big % small) / small = j * (big % small) / small + 1 := by
  have hcases := stairStep_cases hsmall big j
  rw [stairLen]
  omega

/-- Of the first `n` runs as many are longer ones as the remainder has made whole steps. -/
theorem countP_longerRuns {small : Nat} (hsmall : 1 ≤ small) (big n : Nat) :
    (List.range n).countP (fun j => decide (stairLen big small j = big / small + 1)) =
      n * (big % small) / small := by
  induction n with
  | zero => simp
  | succ n ih =>
    have hcases := stairStep_cases hsmall big n
    rw [List.range_succ, List.countP_append, ih, List.countP_singleton]
    simp only [stairLen_eq_succ_iff hsmall, decide_eq_true_eq]
    split <;> omega

/-- Settles O22: a run is longer than the base exactly when the remainder makes a whole step in it,
and the whole steps add up to the remainder. -/
theorem stairRunsAreEven : Obligations.StairRunsAreEven := by
  intro big small hsmall hlt
  refine ⟨fun j _ => ⟨?length, ?ceil, stairStart_succ hsmall big j⟩, stairStart_zero big small,
    stairStart_last hsmall big, ?count⟩
  case length =>
    have hcases := stairStep_cases hsmall big j
    rw [stairLen]
    omega
  case ceil =>
    have hcases := stairStep_cases hsmall big j
    have hceil : (big + small - 1) / small = big / small + (big % small + (small - 1)) / small := by
      conv_lhs => rw [← Nat.div_add_mod big small, Nat.add_sub_assoc hsmall, Nat.add_assoc]
      exact Nat.mul_add_div hsmall _ _
    have hextra : big % small ≠ 0 → 1 ≤ (big % small + (small - 1)) / small := fun h0 =>
      (Nat.le_div_iff_mul_le hsmall).2 (by omega)
    rw [stairLen, hceil]
    rcases hcases with heq | ⟨h0, heq⟩
    · simp [heq]
    · have := hextra h0
      omega
  case count => rw [countP_longerRuns hsmall, Nat.mul_div_cancel_left _ hsmall]

/-- R166, closed form: the minor offset at a major position, `ceil((p+1)*small / big) - 1`. -/
def stairMinor (big small p : Nat) : Nat := ((p + 1) * small - 1) / big

/-- Run `j` is where the closed form is `j`. -/
theorem stairMinor_eq {big small j p : Nat} (hsmall : 1 ≤ small)
    (hfrom : stairStart big small j ≤ p) (hto : p < stairStart big small (j + 1)) :
    stairMinor big small p = j := by
  have hlow : j * big < (p + 1) * small :=
    (Nat.div_lt_iff_lt_mul hsmall).1 (Nat.lt_succ_of_le hfrom)
  have hhigh : (p + 1) * small ≤ (j + 1) * big := (Nat.le_div_iff_mul_le hsmall).1 hto
  exact Nat.div_eq_of_lt_le (by omega) (by omega)

theorem stairMinor_zero (big p : Nat) : stairMinor big 0 p = 0 := by simp [stairMinor]

/-- With equal deltas the closed form is the diagonal. -/
theorem stairMinor_self {n : Nat} (hn : 1 ≤ n) (p : Nat) : stairMinor n n p = p :=
  Nat.div_eq_of_lt_le (by rw [Nat.succ_mul]; omega)
    (Nat.sub_one_lt_of_le (Nat.mul_pos p.succ_pos hn) le_rfl)

theorem stairMinor_last {big small : Nat} (hsmall : 1 ≤ small) (hle : small ≤ big) :
    stairMinor big small big = small := by
  refine Nat.div_eq_of_lt_le ?_ ?_ <;> rw [Nat.succ_mul] <;> have := Nat.mul_comm big small
  · omega
  · rw [Nat.succ_mul]
    omega

theorem stairMinor_le {big small p : Nat} (hp : p ≤ big) (hle : small ≤ big) :
    stairMinor big small p ≤ small := by
  rcases Nat.eq_zero_or_pos small with rfl | hsmall
  · rw [stairMinor_zero]
  · calc stairMinor big small p ≤ stairMinor big small big :=
          Nat.div_le_div_right (Nat.sub_le_sub_right (Nat.mul_le_mul_right _ (by omega)) 1)
      _ = small := stairMinor_last hsmall hle

/-- The statement's closed form is this one. -/
theorem minorOffset_natCast {big small : Nat} (hsmall : 1 ≤ small) (hbig : 1 ≤ big) (p : Nat) :
    minorOffset big small p = (stairMinor big small p : Nat) := by
  obtain ⟨m, hm⟩ := Nat.exists_eq_add_one.2 (Nat.mul_pos p.succ_pos hsmall)
  have hneg : -(((p : Int) + 1) * small) = Int.negSucc m := by
    rw [Int.negSucc_eq]
    exact_mod_cast congrArg (fun n : Nat => -(n : Int)) hm
  rw [minorOffset, stairMinor, hneg, Int.negSucc_ediv m (by omega), hm, Nat.add_sub_cancel,
    Int.natCast_ediv]
  change - -((m : Int) / big + 1) - 1 = m / big
  ring

/-- The first `n` runs fill the major axis up to the start of run `n`. -/
theorem stairRuns_eq {small : Nat} (hsmall : 1 ≤ small) (big n : Nat) :
    ((List.range n).flatMap fun j =>
      (List.range' (stairStart big small j) (stairLen big small j)).map fun p => (p, j)) =
    (List.range (stairStart big small n)).map fun p => (p, stairMinor big small p) := by
  induction n with
  | zero => simp [stairStart_zero]
  | succ n ih =>
    have hrun : (List.range' (stairStart big small n) (stairLen big small n)).map
          (fun p => (p, n)) =
        (List.range' (stairStart big small n) (stairLen big small n)).map
          (fun p => (p, stairMinor big small p)) := by
      refine List.map_congr_left fun p hp => ?_
      obtain ⟨hfrom, hto⟩ := List.mem_range'_1.1 hp
      rw [stairMinor_eq hsmall hfrom (by rwa [stairStart_succ hsmall])]
    rw [List.range_succ, List.flatMap_append, ih, List.flatMap_singleton, hrun, ← List.map_append,
      stairStart_succ hsmall]
    congr 1
    rw [List.range_eq_range', List.range_eq_range', ← List.range'_append_1, Nat.zero_add]

/-- A staircase has one position per major position, at the minor offset of the closed form. -/
theorem stairPositions_eq {big small : Nat} (hsmall : 1 ≤ small) (hle : small ≤ big) :
    stairPositions big small =
      (List.range (big + 1)).map fun p => (p, stairMinor big small p) := by
  rw [stairPositions, stairRuns_eq hsmall, stairStart_last hsmall, List.range_succ,
    List.map_append, List.map_singleton, stairMinor_last hsmall hle]

/-! ### Lines (R162 to R166, R168, R171) -/

/-- What normalisation leaves (R162): the upper endpoint first, the left one on equal rows. -/
def Segment.Normalised (g : Segment) : Prop := g.ya ≤ g.yb ∧ (g.ya = g.yb → g.xa ≤ g.xb)

/-- On a horizontal line the left endpoint comes first. -/
theorem Segment.Normalised.le_of_dy_eq_zero {g : Segment} (hg : g.Normalised) (h : g.dy = 0) :
    g.xa ≤ g.xb := by
  obtain ⟨hy, hx⟩ := hg
  exact hx (hy.antisymm (Nat.sub_eq_zero_iff_le.1 h))

theorem normalise_normalised (x0 y0 x1 y1 : Nat) : (normalise x0 y0 x1 y1).Normalised := by
  unfold normalise Segment.Normalised
  split <;> dsimp only <;> omega

/-- Normalisation takes the two endpoints in one order or the other. -/
theorem normalise_cases (x0 y0 x1 y1 : Nat) :
    normalise x0 y0 x1 y1 = ⟨x0, y0, x1, y1⟩ ∨ normalise x0 y0 x1 y1 = ⟨x1, y1, x0, y0⟩ := by
  unfold normalise
  split
  · exact .inr rfl
  · exact .inl rfl

/-- Both orders of the endpoints normalise to the same segment (R162). -/
theorem normalise_swap (x0 y0 x1 y1 : Nat) : normalise x1 y1 x0 y0 = normalise x0 y0 x1 y1 := by
  unfold normalise
  split_ifs with h h' h'
  · exact absurd h' (by omega)
  · rfl
  · rfl
  · obtain ⟨rfl, rfl⟩ : x0 = x1 ∧ y0 = y1 := by omega
    rfl

/-- The pixel of a segment at position `p` of its major axis: the closed form of R166, which gives
the pixels of the other three cases too. -/
def Segment.pixel (g : Segment) (p : Nat) : Nat × Nat :=
  if g.dy ≤ g.adx then (g.along p, g.ya + stairMinor g.adx g.dy p)
  else (g.along (stairMinor g.dy g.adx p), g.ya + p)

/-- `max(|dx|, dy)`, the last position of the major axis. -/
def Segment.major (g : Segment) : Nat := max g.adx g.dy

theorem Segment.along_of_adx_eq_zero {g : Segment} (h : g.adx = 0) (i : Nat) :
    g.along i = g.xa := by
  unfold Segment.adx at h
  unfold Segment.along
  rw [if_neg (by omega), if_neg (by omega)]

theorem Segment.along_of_le {g : Segment} (h : g.xa ≤ g.xb) {i : Nat} (hi : i ≤ g.adx) :
    g.along i = g.xa + i := by
  unfold Segment.adx at hi
  unfold Segment.along
  split <;> [skip; split] <;> omega

/-- Different steps along the x axis reach different columns. -/
theorem Segment.along_inj {g : Segment} {i j : Nat} (hi : i ≤ g.adx) (hj : j ≤ g.adx)
    (h : g.along i = g.along j) : i = j := by
  unfold Segment.adx at hi hj
  unfold Segment.along at h
  split at h <;> [skip; split at h] <;> omega

/-- A step along the x axis stays between the two endpoints. -/
theorem Segment.along_mem {g : Segment} {i : Nat} (hi : i ≤ g.adx) :
    min g.xa g.xb ≤ g.along i ∧ g.along i ≤ max g.xa g.xb := by
  unfold Segment.adx at hi
  unfold Segment.along
  split <;> [skip; split] <;> omega

/-- R166: a staircase has one pixel per position of its major axis. -/
theorem staircasePixels_eq {g : Segment} (hdx : 1 ≤ g.adx) (hdy : 1 ≤ g.dy) (hne : g.adx ≠ g.dy) :
    staircasePixels g = (List.range (g.major + 1)).map g.pixel := by
  unfold staircasePixels Segment.major
  split
  next hlt =>
    rw [stairPositions_eq hdy hlt.le, List.map_map, Nat.max_eq_left hlt.le]
    exact List.map_congr_left fun p _ => (if_pos hlt.le).symm
  next hlt =>
    have hlt' : g.adx < g.dy := by omega
    rw [stairPositions_eq hdx hlt'.le, List.map_map, Nat.max_eq_right hlt'.le]
    exact List.map_congr_left fun p _ => (if_neg (Nat.not_le.2 hlt')).symm

/-- A normalised line has one pixel per position of its major axis, in every case of R160. -/
theorem segmentPixels_eq {g : Segment} (hg : g.Normalised) :
    segmentPixels g = (List.range (g.major + 1)).map g.pixel := by
  unfold segmentPixels Segment.major
  split
  next hdy =>
    rw [hdy, Nat.max_zero]
    refine List.map_congr_left fun i hi => ?_
    rw [Segment.pixel, hdy, if_pos (Nat.zero_le _), stairMinor_zero,
      Segment.along_of_le (hg.le_of_dy_eq_zero hdy) (Nat.lt_succ_iff.1 (List.mem_range.1 hi)),
      Nat.add_zero]
  next hdy =>
    split
    next hdx =>
      rw [hdx, Nat.zero_max]
      refine List.map_congr_left fun i _ => ?_
      rw [Segment.pixel, hdx, if_neg (by omega), Segment.along_of_adx_eq_zero hdx]
    next hdx =>
      split
      next heq =>
        rw [heq, Nat.max_self]
        refine List.map_congr_left fun i _ => ?_
        rw [Segment.pixel, heq, if_pos le_rfl, stairMinor_self (Nat.pos_of_ne_zero hdy)]
      next hne =>
        exact staircasePixels_eq (Nat.pos_of_ne_zero hdx) (Nat.pos_of_ne_zero hdy) hne

theorem mem_segmentPixels {g : Segment} (hg : g.Normalised) {q : Nat × Nat} :
    q ∈ segmentPixels g ↔ ∃ p, p ≤ g.major ∧ g.pixel p = q := by
  simp [segmentPixels_eq hg]

/-- No two positions of the major axis have the same pixel. -/
theorem Segment.pixel_inj {g : Segment} {p p' : Nat} (hp : p ≤ g.major) (hp' : p' ≤ g.major)
    (h : g.pixel p = g.pixel p') : p = p' := by
  unfold Segment.major at hp hp'
  unfold Segment.pixel at h
  split at h
  · exact Segment.along_inj (by omega) (by omega) (congrArg Prod.fst h)
  · exact Nat.add_left_cancel (congrArg Prod.snd h)

/-- The pixels of a normalised line lie in the box of its endpoints (R171). -/
theorem Segment.pixel_mem_box {g : Segment} (hg : g.Normalised) {p : Nat} (hp : p ≤ g.major) :
    (min g.xa g.xb ≤ (g.pixel p).1 ∧ (g.pixel p).1 ≤ max g.xa g.xb) ∧
      g.ya ≤ (g.pixel p).2 ∧ (g.pixel p).2 ≤ g.yb := by
  have hdy : g.ya + g.dy = g.yb := Nat.add_sub_cancel' hg.1
  unfold Segment.major at hp
  unfold Segment.pixel
  split
  next hle =>
    have hminor : stairMinor g.adx g.dy p ≤ g.dy := stairMinor_le (by omega) hle
    exact ⟨Segment.along_mem (by omega), by dsimp only; omega⟩
  next hlt =>
    have hminor : stairMinor g.dy g.adx p ≤ g.adx := stairMinor_le (by omega) (by omega)
    exact ⟨Segment.along_mem hminor, by dsimp only; omega⟩

/-- Settles O21: the list is the major axis's positions mapped to their pixels, one to one. -/
theorem lineDrawsOnePixelPerMajorPosition : Obligations.LineDrawsOnePixelPerMajorPosition := by
  intro x0 y0 x1 y1
  rw [segmentPixels_eq (normalise_normalised x0 y0 x1 y1)]
  refine ⟨?length, List.nodup_range.map_on fun p hp p' hp' => ?inj⟩
  case length =>
    rw [List.length_map, List.length_range, Segment.major, abs_eq_max_neg, abs_eq_max_neg]
    unfold normalise Segment.adx Segment.dy
    split <;> dsimp only <;> omega
  case inj =>
    exact Segment.pixel_inj (Nat.lt_succ_iff.1 (List.mem_range.1 hp))
      (Nat.lt_succ_iff.1 (List.mem_range.1 hp'))

/-- A position of the statement's integers, as one of the model's. -/
theorem exists_position_iff {P : Int → Prop} {n : Nat} :
    (∃ p : Int, 0 ≤ p ∧ p ≤ n ∧ P p) ↔ ∃ p : Nat, p ≤ n ∧ P p := by
  constructor
  · rintro ⟨p, hp0, hpn, hP⟩
    lift p to Nat using hp0
    exact ⟨p, Int.ofNat_le.1 hpn, hP⟩
  · rintro ⟨p, hpn, hP⟩
    exact ⟨p, Int.natCast_nonneg p, Int.ofNat_le.2 hpn, hP⟩

theorem Segment.adx_cast (g : Segment) : |(g.xb : Int) - g.xa| = g.adx := by
  rw [abs_eq_max_neg, Segment.adx]
  omega

theorem Segment.Normalised.dy_cast {g : Segment} (hg : g.Normalised) :
    (g.yb : Int) - g.ya = g.dy := (Nat.cast_sub hg.1).symm

/-- `xa + s*i` with the sign as the integer it is. -/
theorem Segment.along_cast {g : Segment} {i : Nat} (hi : i ≤ g.adx) :
    (g.along i : Int) = g.xa + ((g.xb : Int) - g.xa).sign * i := by
  unfold Segment.adx at hi
  unfold Segment.along
  split
  next hlt =>
    rw [Int.sign_eq_neg_one_of_neg (by omega)]
    omega
  next hle =>
    split
    next hlt =>
      rw [Int.sign_eq_one_of_pos (by omega)]
      omega
    next hge =>
      rw [show (g.xb : Int) - g.xa = 0 by omega]
      simp

theorem mem_horizontalPixels {g : Segment} (hx : g.xa ≤ g.xb) {x y : Nat} :
    (x, y) ∈ horizontalPixels g ↔ y = g.ya ∧ (g.xa : Int) ≤ x ∧ (x : Int) ≤ g.xb := by
  simp only [horizontalPixels, List.mem_map, List.mem_range, Prod.mk.injEq, Segment.adx]
  constructor
  · rintro ⟨i, hi, rfl, rfl⟩
    omega
  · exact fun h => ⟨x - g.xa, by omega⟩

theorem mem_verticalPixels {g : Segment} (hy : g.ya ≤ g.yb) {x y : Nat} :
    (x, y) ∈ verticalPixels g ↔ x = g.xa ∧ (g.ya : Int) ≤ y ∧ (y : Int) ≤ g.yb := by
  simp only [verticalPixels, List.mem_map, List.mem_range, Prod.mk.injEq, Segment.dy]
  constructor
  · rintro ⟨i, hi, rfl, rfl⟩
    omega
  · exact fun h => ⟨y - g.ya, by omega⟩

theorem mem_diagonalPixels {g : Segment} (heq : g.adx = g.dy) {x y : Nat} :
    (x, y) ∈ diagonalPixels g ↔ ∃ i : Nat, i ≤ g.dy ∧
      (x : Int) = g.xa + ((g.xb : Int) - g.xa).sign * i ∧ (y : Int) = g.ya + i := by
  simp only [diagonalPixels, List.mem_map, List.mem_range, Prod.mk.injEq, Nat.lt_succ_iff]
  refine exists_congr fun i => and_congr_right fun hi => ?_
  rw [← Segment.along_cast (heq ▸ hi)]
  omega

/-- A staircase with x as its major axis. -/
theorem mem_staircasePixels_of_flat {g : Segment} (hdy : 1 ≤ g.dy) (hlt : g.dy < g.adx)
    {x y : Nat} :
    (x, y) ∈ staircasePixels g ↔ ∃ p : Nat, p ≤ g.adx ∧
      (x : Int) = g.xa + ((g.xb : Int) - g.xa).sign * p ∧
      (y : Int) = g.ya + minorOffset g.adx g.dy p := by
  simp only [staircasePixels, if_pos hlt, stairPositions_eq hdy hlt.le, List.map_map, List.mem_map,
    List.mem_range, Function.comp_apply, Prod.mk.injEq, Nat.lt_succ_iff]
  refine exists_congr fun p => and_congr_right fun hp => ?_
  rw [← Segment.along_cast hp, minorOffset_natCast hdy (hdy.trans hlt.le)]
  omega

/-- A staircase with y as its major axis. -/
theorem mem_staircasePixels_of_steep {g : Segment} (hdx : 1 ≤ g.adx) (hlt : g.adx < g.dy)
    {x y : Nat} :
    (x, y) ∈ staircasePixels g ↔ ∃ p : Nat, p ≤ g.dy ∧
      (x : Int) = g.xa + ((g.xb : Int) - g.xa).sign * minorOffset g.dy g.adx p ∧
      (y : Int) = g.ya + p := by
  simp only [staircasePixels, if_neg (Nat.not_lt.2 hlt.le), stairPositions_eq hdx hlt.le,
    List.map_map, List.mem_map, List.mem_range, Function.comp_apply, Prod.mk.injEq,
    Nat.lt_succ_iff]
  refine exists_congr fun p => and_congr_right fun hp => ?_
  rw [minorOffset_natCast hdx (hdx.trans hlt.le), ← Segment.along_cast (stairMinor_le hp hlt.le)]
  omega

/-- The model's pixels of a normalised segment are the statement's, case by case (R163 to R166). -/
theorem mem_segmentPixels_iff_onSegment {g : Segment} (hg : g.Normalised) {x y : Nat} :
    (x, y) ∈ segmentPixels g ↔ OnSegment g.xa g.ya g.xb g.yb x y := by
  have hdx0 : (g.xb : Int) - g.xa = 0 ↔ g.adx = 0 := by
    unfold Segment.adx
    omega
  unfold segmentPixels OnSegment
  simp only [hg.dy_cast, g.adx_cast, hdx0, Nat.cast_eq_zero, Nat.cast_inj, Nat.cast_lt,
    exists_position_iff]
  by_cases hdy : g.dy = 0
  · simp only [if_pos hdy]
    exact mem_horizontalPixels (hg.le_of_dy_eq_zero hdy)
  by_cases hdx : g.adx = 0
  · simp only [if_neg hdy, if_pos hdx]
    exact mem_verticalPixels hg.1
  by_cases heq : g.adx = g.dy
  · simp only [if_neg hdy, if_neg hdx, if_pos heq]
    exact mem_diagonalPixels heq
  simp only [if_neg hdy, if_neg hdx, if_neg heq]
  rcases Nat.lt_or_gt_of_ne heq with hlt | hlt
  · rw [if_neg (Nat.not_lt.2 hlt.le)]
    exact mem_staircasePixels_of_steep (Nat.pos_of_ne_zero hdx) hlt
  · rw [if_pos hlt]
    exact mem_staircasePixels_of_flat (Nat.pos_of_ne_zero hdy) hlt

/-- The model's pixels of a line are the statement's, in either order of the endpoints (R162). -/
theorem mem_linePixels_iff_onLine {c : Clamped} {x y : Nat} :
    (x, y) ∈ linePixels c ↔ OnLine c.x0 c.y0 c.x1 c.y1 x y := by
  rw [linePixels, mem_segmentPixels_iff_onSegment (normalise_normalised _ _ _ _), normalise, OnLine]
  simp only [Nat.cast_lt, Nat.cast_inj]
  split <;> rfl

/-! ### The framebuffer a drawing leaves (R140, R170, R171) -/

theorem Memory.wf_paintAll {m : Memory} (hm : m.wf) (width : Nat) (on : Bool)
    (l : List (Nat × Nat)) : (m.paintAll width on l).wf := by
  induction l generalizing m with
  | nil => exact hm
  | cons p l ih => exact ih (Memory.wf_paint hm width on p)

/-- Every bit a painted pixel stands for has the colour; every other bit is as before. -/
theorem Memory.getLsbD_read_paintAll {m : Memory} (hm : m.wf) (width : Nat) (on : Bool)
    (l : List (Nat × Nat)) (a : Nat) {j : Nat} (hj : j < 8) :
    ((m.paintAll width on l).read a).getLsbD j =
      if ∃ p ∈ l, pixelIndex width p.1 p.2 = a ∧ p.2 % 8 = j then on
      else (m.read a).getLsbD j := by
  induction l generalizing m with
  | nil => simp [Memory.paintAll]
  | cons p l ih =>
    have hpaint : ((m.paint width on p).read a).getLsbD j =
        if pixelIndex width p.1 p.2 = a ∧ p.2 % 8 = j then on else (m.read a).getLsbD j := by
      by_cases hidx : pixelIndex width p.1 p.2 = a
      · simp only [← hidx, Memory.getLsbD_read_paint hm on hj, true_and, eq_comm]
      · rw [Memory.read_paint_of_ne hm on (Ne.symm hidx), if_neg fun h => hidx h.1]
    rw [Memory.paintAll_cons, ih (Memory.wf_paint hm width on p), hpaint]
    simp only [List.exists_mem_cons_iff]
    by_cases hhead : pixelIndex width p.1 p.2 = a ∧ p.2 % 8 = j
    · simp only [hhead, true_or, and_self, if_true, ite_self]
    · simp only [hhead, false_or, if_false]

/-- The order of the pixels does not matter: all are given the same colour (R170). -/
theorem Memory.paintAll_perm {m : Memory} (hm : m.wf) (width : Nat) (on : Bool)
    {l l' : List (Nat × Nat)} (h : l.Perm l') : m.paintAll width on l = m.paintAll width on l' := by
  refine Memory.ext_of_read (Memory.wf_paintAll hm width on l) (Memory.wf_paintAll hm width on l')
    fun a => BitVec.eq_of_getLsbD_eq fun j hj => ?_
  simp only [Memory.getLsbD_read_paintAll hm width on _ a hj, h.mem_iff]

/-- Painting pixels of the display touches no byte at or beyond FB_SIZE (R171). -/
theorem read_paintAll_of_fbSize_le {s : State} (hs : Legal s) {m : Memory} (hm : m.wf) (on : Bool)
    {l : List (Nat × Nat)} (hl : ∀ p ∈ l, s.OnDisplay p) {a : Nat} (ha : s.fbSize ≤ a) :
    (m.paintAll s.width.toNat on l).read a = m.read a := by
  refine BitVec.eq_of_getLsbD_eq fun j hj => ?_
  rw [Memory.getLsbD_read_paintAll hm _ on l a hj, if_neg]
  rintro ⟨p, hp, rfl, -⟩
  obtain ⟨hx, hy⟩ := hl p hp
  exact absurd (pixelIndex_lt_fbSize hs hx hy) (Nat.not_lt.2 ha)

/-! ### Where a drawing turn stops (R6, R170) -/

/-- A run of pixels of the display stops with the first ones painted: all of them, and then the
result is Ok, or those before the preemption point, and then the others are still to be run. -/
theorem runTodo_drawProgram_stops (q : Option Nat) {s : State} (hs : Legal s)
    {l : List (Nat × Nat)} (on : Bool) (hne : l ≠ []) (hl : ∀ p ∈ l, s.OnDisplay p) :
    ∃ painted left, l = painted ++ left ∧
      runTodo q (drawProgram l on) s =
        .next { s with
          fb := s.fb.paintAll s.width.toNat on painted
          result := if left = [] then 0#32 else s.result
          todo := drawProgram left on } := by
  induction l generalizing q s with
  | nil => exact absurd rfl hne
  | cons p l ih =>
    obtain ⟨hp, hl⟩ := List.forall_mem_cons.1 hl
    have hpaint := runMicro_pixel hs on hp
    by_cases hlast : l = []
    · subst hlast
      exact ⟨[p], [], rfl, runTodo_single hpaint⟩
    · have hleft : drawProgram l on ≠ [] := mt List.map_eq_nil_iff.1 hlast
      have hrun : runTodo q (drawProgram (p :: l) on) s =
          if q = some 0 then
            .next { s with fb := s.fb.paint s.width.toNat on p, todo := drawProgram l on }
          else runTodo (q.map (· - 1)) (drawProgram l on)
            { s with fb := s.fb.paint s.width.toNat on p } := by
        simp only [drawProgram, List.map_cons, runTodo, hpaint]
        exact if_neg hleft
      by_cases hq : q = some 0
      · exact ⟨[p], l, rfl, by rw [hrun, if_pos hq, if_neg hlast]; rfl⟩
      · obtain ⟨painted, left, rfl, hrest⟩ :=
          ih (q.map (· - 1)) (s := { s with fb := s.fb.paint s.width.toNat on p }) hs hlast hl
        exact ⟨p :: painted, left, rfl, by rw [hrun, if_neg hq, hrest]; rfl⟩

/-- The same for a drawing command, whose pixels come in the order of the turn. -/
theorem draw_stops {s : State} (hs : Legal s) {l : List (Nat × Nat)} (on : Bool) (hne : l ≠ [])
    (hl : ∀ p ∈ l, s.OnDisplay p) :
    ∃ painted left, (painted ++ left).Perm l ∧
      draw l on s =
        .next { s with
          fb := s.fb.paintAll s.width.toNat on painted
          result := if left = [] then 0#32 else s.result
          todo := drawProgram left on } := by
  have hperm := reorder_perm s.choice.order l
  obtain ⟨painted, left, hsplit, hrun⟩ := runTodo_drawProgram_stops s.choice.quantum hs on
    (l := reorder s.choice.order l) (fun h => hne (h ▸ hperm).nil_eq.symm)
    fun p hp => hl p (hperm.mem_iff.1 hp)
  exact ⟨painted, left, hsplit ▸ hperm, hrun⟩

/-- A drawing is never mistaken for an OutOfBounds: it ends Ok, or has pixels left. -/
theorem draw_ne_outOfBounds {s : State} (hs : Legal s) {l : List (Nat × Nat)} (on : Bool)
    (hne : l ≠ []) (hl : ∀ p ∈ l, s.OnDisplay p) : draw l on s ≠ raise .outOfBounds s := by
  obtain ⟨painted, left, -, hdraw⟩ := draw_stops hs on hne hl
  intro herr
  have hstate := Host.Outcome.next.inj (hdraw.symm.trans herr)
  have hleft : left = [] := List.map_eq_nil_iff.1 (congrArg State.todo hstate)
  have hresult := congrArg State.result hstate
  simp [hleft] at hresult

/-- A drawing completes or leaves pixels of the display to be run, and touches nothing but the bytes
of the framebuffer (R171). -/
theorem draw_confined {s : State} (hs : Legal s) (hfb : s.fb.wf) {l : List (Nat × Nat)} (on : Bool)
    (hne : l ≠ []) (hl : ∀ p ∈ l, s.OnDisplay p) :
    ∃ t, draw l on s = .next t ∧ t = { s with fb := t.fb, result := t.result, todo := t.todo } ∧
      (∀ a, s.fbSize ≤ a → t.fb.read a = s.fb.read a) ∧
      ∀ m ∈ t.todo, ∃ x y on', m = .pixel x y on' ∧ s.OnDisplay (x, y) := by
  obtain ⟨painted, left, hperm, hdraw⟩ := draw_stops hs on hne hl
  have hdisplay : ∀ p ∈ painted ++ left, s.OnDisplay p := fun p hp => hl p (hperm.mem_iff.1 hp)
  obtain ⟨hpainted, hleft⟩ := List.forall_mem_append.1 hdisplay
  refine ⟨_, hdraw, rfl, fun a ha => read_paintAll_of_fbSize_le hs hfb on hpainted ha,
    fun m hm => ?_⟩
  obtain ⟨x, y, hxy, rfl⟩ := mem_drawProgram hm
  exact ⟨x, y, on, rfl, hleft _ hxy⟩

theorem draw_of_notPreempted {s : State} (hs : Legal s) (hq : NotPreempted s)
    {l : List (Nat × Nat)} (on : Bool) (hne : l ≠ []) (hl : ∀ p ∈ l, s.OnDisplay p) :
    draw l on s =
      .next ({ s with fb := s.fb.paintAll s.width.toNat on (reorder s.choice.order l) }.finish
        .ok 0#24) := by
  have hperm := reorder_perm s.choice.order l
  rw [draw, startCommand, hq]
  exact runTodo_drawProgram hs on (fun h => hne (h ▸ hperm).nil_eq.symm)
    fun p hp => hl p (hperm.mem_iff.1 hp)

/-- A command that draws the pixels of a region gives exactly these their colour. -/
theorem exec_paints_region {i : Instr} {s : State} {l : List (Nat × Nat)} {on : Bool}
    {region : Nat → Nat → Prop} (hexec : exec i s = draw l on s) (hs : Legal s) (hfb : s.fb.wf)
    (hq : NotPreempted s) (hne : l ≠ []) (hl : ∀ p ∈ l, s.OnDisplay p)
    (hregion : ∀ x y, (x, y) ∈ l ↔ region x y) :
    ∃ t : State, exec i s = .next t ∧ t = { s with fb := t.fb, result := 0#32, todo := [] } ∧
      (∀ a, s.width.toNat * s.numPages.toNat ≤ a → t.fb.read a = s.fb.read a) ∧
      ∀ x y : Nat, x < s.width.toNat → y < s.height.toNat →
        (region x y → getPixel t x y = on) ∧ (¬region x y → getPixel t x y = getPixel s x y) := by
  obtain ⟨t, hdraw, hframe, hpixel⟩ := draw_paints hs hfb hq on hne hl
  obtain ⟨t', hdraw', -, hbytes, -⟩ := draw_confined hs hfb on hne hl
  obtain rfl : t' = t := Host.Outcome.next.inj (hdraw'.symm.trans hdraw)
  refine ⟨t', hexec.trans hdraw, hframe, hbytes, fun x y hx _ => ⟨fun h => ?_, fun h => ?_⟩⟩
  · rw [hpixel x y hx, if_pos ((hregion x y).2 h)]
  · rw [hpixel x y hx, if_neg (mt (hregion x y).1 h)]

/-! ### The clamped operands of a two-point command (R150 to R152, R161) -/

theorem sides_pos_of_legal {s : State} (hs : Legal s) : 1 ≤ s.width.toNat ∧ 1 ≤ s.height.toNat := by
  obtain ⟨hw, -, hh, -, -⟩ := legalGeometry_iff.1 hs.1
  exact ⟨hw, by omega⟩

/-- Both clamped endpoints of a two-point command are pixels of the display. -/
def State.EndsOnDisplay (s : State) (c : Clamped) : Prop :=
  s.OnDisplay (c.x0, c.y0) ∧ s.OnDisplay (c.x1, c.y1)

theorem clamped_endsOnDisplay {s : State} (hs : Legal s) (x0 y0 x1 y1 : Coord) :
    s.EndsOnDisplay (s.clamped x0 y0 x1 y1) := by
  obtain ⟨hw, hh⟩ := sides_pos_of_legal hs
  exact ⟨⟨clamp_fst_lt hw x0, clamp_fst_lt hh y0⟩, clamp_fst_lt hw x1, clamp_fst_lt hh y1⟩

theorem clamped_eq_nearest {s : State} (hs : Legal s) (x0 y0 x1 y1 : Coord) :
    ((s.clamped x0 y0 x1 y1).x0 : Int) = nearest x0 s.width.toNat ∧
    ((s.clamped x0 y0 x1 y1).y0 : Int) = nearest y0 s.height.toNat ∧
    ((s.clamped x0 y0 x1 y1).x1 : Int) = nearest x1 s.width.toNat ∧
    ((s.clamped x0 y0 x1 y1).y1 : Int) = nearest y1 s.height.toNat := by
  obtain ⟨hw, hh⟩ := sides_pos_of_legal hs
  exact ⟨clamp_fst hw x0, clamp_fst hh y0, clamp_fst hw x1, clamp_fst hh y1⟩

/-- R152: all four coordinates outside. -/
theorem oobRect_clamped {s : State} (hs : Legal s) (x0 y0 x1 y1 : Coord) :
    oobRect (s.clamped x0 y0 x1 y1) = true ↔
      Outside x0 s.width.toNat ∧ Outside y0 s.height.toNat ∧
      Outside x1 s.width.toNat ∧ Outside y1 s.height.toNat := by
  obtain ⟨hw, hh⟩ := sides_pos_of_legal hs
  simp only [oobRect, State.clamped, clampPoints, Bool.and_eq_true, clamp_snd hw, clamp_snd hh,
    and_assoc]

/-- R161, reading per_axis: both coordinates of one axis outside. -/
theorem oobLine_perAxis {s : State} (hs : Legal s) (x0 y0 x1 y1 : Coord) :
    oobLine .perAxis (s.clamped x0 y0 x1 y1) = true ↔
      (Outside x0 s.width.toNat ∧ Outside x1 s.width.toNat) ∨
      (Outside y0 s.height.toNat ∧ Outside y1 s.height.toNat) := by
  obtain ⟨hw, hh⟩ := sides_pos_of_legal hs
  simp only [oobLine, State.clamped, clampPoints, Bool.or_eq_true, Bool.and_eq_true, clamp_snd hw,
    clamp_snd hh]

/-- R161, reading per_endpoint: both coordinates of one endpoint outside. -/
theorem oobLine_perEndpoint {s : State} (hs : Legal s) (x0 y0 x1 y1 : Coord) :
    oobLine .perEndpoint (s.clamped x0 y0 x1 y1) = true ↔
      (Outside x0 s.width.toNat ∧ Outside y0 s.height.toNat) ∨
      (Outside x1 s.width.toNat ∧ Outside y1 s.height.toNat) := by
  obtain ⟨hw, hh⟩ := sides_pos_of_legal hs
  simp only [oobLine, State.clamped, clampPoints, Bool.or_eq_true, Bool.and_eq_true, clamp_snd hw,
    clamp_snd hh]

/-- The same operands with the two points swapped. -/
def Clamped.swap (c : Clamped) : Clamped :=
  { x0 := c.x1, y0 := c.y1, x1 := c.x0, y1 := c.y0,
    cx0 := c.cx1, cy0 := c.cy1, cx1 := c.cx0, cy1 := c.cy0 }

theorem clamped_swap (s : State) (x0 y0 x1 y1 : Coord) :
    s.clamped x1 y1 x0 y0 = (s.clamped x0 y0 x1 y1).swap := rfl

theorem oobLine_swap (rule : LineOobRule) (c : Clamped) : oobLine rule c.swap = oobLine rule c := by
  cases rule with
  | perAxis => simp only [oobLine, Clamped.swap, Bool.and_comm]
  | perEndpoint => exact Bool.or_comm _ _

theorem linePixels_swap (c : Clamped) : linePixels c.swap = linePixels c :=
  congrArg segmentPixels (normalise_swap c.x0 c.y0 c.x1 c.y1)

/-- Settles O23: neither the out-of-bounds test nor the pixel list sees the order of the points. -/
theorem lineIsSymmetric : Obligations.LineIsSymmetric := by
  intro s params x0 y0 x1 y1
  simp only [exec, execPutLine, clamped_swap s x0 y0 x1 y1, oobLine_swap, linePixels_swap]

/-! ### The pixels of a rectangle and of a line (R153 to R155, R171) -/

/-- R155: the perimeter of the box. -/
theorem mem_outlinePixels {xa ya xb yb x y : Nat} (hx : xa ≤ xb) (hy : ya ≤ yb) :
    (x, y) ∈ outlinePixels xa ya xb yb ↔
      ((xa ≤ x ∧ x ≤ xb) ∧ (ya ≤ y ∧ y ≤ yb)) ∧ (x = xa ∨ x = xb ∨ y = ya ∨ y = yb) := by
  simp only [outlinePixels, List.mem_append, List.mem_map, mem_span, Prod.mk.injEq]
  constructor
  · rintro (((⟨k, hk, rfl, rfl⟩ | ⟨k, hk, rfl, rfl⟩) | ⟨k, hk, rfl, rfl⟩) | ⟨k, hk, rfl, rfl⟩) <;>
      omega
  · rintro ⟨⟨hxb, hyb⟩, rfl | rfl | rfl | rfl⟩
    · exact .inl (.inr ⟨y, hyb, rfl, rfl⟩)
    · exact .inr ⟨y, hyb, rfl, rfl⟩
    · exact .inl (.inl (.inl ⟨x, hxb, rfl, rfl⟩))
    · exact .inl (.inl (.inr ⟨x, hxb, rfl, rfl⟩))

/-- R153 to R155: the box of the two corners, or its perimeter. -/
theorem mem_rectPixels {fill : Bool} {c : Clamped} {x y : Nat} :
    (x, y) ∈ rectPixels fill c ↔
      ((min c.x0 c.x1 ≤ x ∧ x ≤ max c.x0 c.x1) ∧ (min c.y0 c.y1 ≤ y ∧ y ≤ max c.y0 c.y1)) ∧
      (fill = false → x = min c.x0 c.x1 ∨ x = max c.x0 c.x1 ∨
        y = min c.y0 c.y1 ∨ y = max c.y0 c.y1) := by
  cases fill with
  | true => simp only [rectPixels, if_true, mem_fillPixels, reduceCtorEq, false_implies, and_true]
  | false =>
    simp only [rectPixels, Bool.false_eq_true, if_false, mem_outlinePixels min_le_max min_le_max,
      true_implies]

theorem rectPixels_ne_nil (fill : Bool) (c : Clamped) : rectPixels fill c ≠ [] :=
  List.ne_nil_of_mem (mem_rectPixels.2 ⟨⟨⟨le_rfl, min_le_max⟩, le_rfl, min_le_max⟩,
    fun _ => .inl rfl⟩)

theorem onDisplay_of_mem_rectPixels {s : State} {c : Clamped} (hc : s.EndsOnDisplay c) {fill : Bool}
    {p : Nat × Nat} (hp : p ∈ rectPixels fill c) : s.OnDisplay p := by
  obtain ⟨⟨hx0, hy0⟩, hx1, hy1⟩ := hc
  obtain ⟨⟨⟨-, hx⟩, -, hy⟩, -⟩ := mem_rectPixels.1 hp
  exact ⟨hx.trans_lt (max_lt hx0 hx1), hy.trans_lt (max_lt hy0 hy1)⟩

theorem linePixels_ne_nil (c : Clamped) : linePixels c ≠ [] :=
  List.ne_nil_of_mem ((mem_segmentPixels (normalise_normalised _ _ _ _)).2 ⟨0, Nat.zero_le _, rfl⟩)

theorem onDisplay_of_mem_linePixels {s : State} {c : Clamped} (hc : s.EndsOnDisplay c)
    {p : Nat × Nat} (hp : p ∈ linePixels c) : s.OnDisplay p := by
  have hg := normalise_normalised c.x0 c.y0 c.x1 c.y1
  obtain ⟨k, hk, rfl⟩ := (mem_segmentPixels hg).1 hp
  obtain ⟨⟨-, hx⟩, -, hy⟩ := Segment.pixel_mem_box hg hk
  obtain ⟨⟨hx0, hy0⟩, hx1, hy1⟩ := hc
  rcases normalise_cases c.x0 c.y0 c.x1 c.y1 with he | he <;> rw [he] at hx hy ⊢
  · exact ⟨hx.trans_lt (max_lt hx0 hx1), hy.trans_lt hy1⟩
  · exact ⟨hx.trans_lt (max_lt hx1 hx0), hy.trans_lt hy0⟩

/-! ### What PUT_RECT and PUT_LINE answer (R151, R160) -/

theorem exec_putRect {s : State} {params : Byte} (hin : s.inited = true) (hp : params.toNat ≤ 3)
    (x0 y0 x1 y1 : Coord) :
    exec (.putRect params x0 y0 x1 y1) s =
      if oobRect (s.clamped x0 y0 x1 y1) then raise .outOfBounds s
      else
        draw (rectPixels (paramsFill params) (s.clamped x0 y0 x1 y1)) (paramsColor params) s := by
  simp [exec, execPutRect, hin, paramsLegal_iff.2 hp]

theorem exec_putLine {s : State} {params : Byte} (hin : s.inited = true) (hp : params.toNat ≤ 3)
    (x0 y0 x1 y1 : Coord) :
    exec (.putLine params x0 y0 x1 y1) s =
      if oobLine s.openParams.lineOob (s.clamped x0 y0 x1 y1) then raise .outOfBounds s
      else draw (linePixels (s.clamped x0 y0 x1 y1)) (paramsColor params) s := by
  simp [exec, execPutLine, hin, paramsLegal_iff.2 hp]

/-- Illegal params are reported first, whatever the coordinates. -/
theorem exec_drawing_invalidParams {s : State} {params : Byte} (hin : s.inited = true)
    (hp : 3 < params.toNat) (x0 y0 x1 y1 : Coord) :
    exec (.putRect params x0 y0 x1 y1) s = raise .invalidParams s ∧
    exec (.putLine params x0 y0 x1 y1) s = raise .invalidParams s := by
  have hillegal : paramsLegal params = false :=
    Bool.eq_false_iff.2 fun h => absurd (paramsLegal_iff.1 h) (Nat.not_le.2 hp)
  simp [exec, execPutRect, execPutLine, hin, hillegal]

/-- Of a command that raises OutOfBounds or draws: it answers OutOfBounds when its test holds, and
only then. -/
theorem raise_or_draw_eq_outOfBounds_iff {s : State} (hs : Legal s) {oob : Bool}
    {l : List (Nat × Nat)} (on : Bool) (hne : l ≠ []) (hl : ∀ p ∈ l, s.OnDisplay p) :
    (if oob then raise .outOfBounds s else draw l on s) = raise .outOfBounds s ↔ oob = true := by
  cases oob with
  | true => simp
  | false => simpa using draw_ne_outOfBounds hs on hne hl

theorem exec_putRect_outOfBounds_iff {s : State} {params : Byte} (hin : s.inited = true)
    (hs : Legal s) (hp : params.toNat ≤ 3) (x0 y0 x1 y1 : Coord) :
    exec (.putRect params x0 y0 x1 y1) s = raise .outOfBounds s ↔
      oobRect (s.clamped x0 y0 x1 y1) = true := by
  rw [exec_putRect hin hp]
  exact raise_or_draw_eq_outOfBounds_iff hs _ (rectPixels_ne_nil _ _) fun p =>
    onDisplay_of_mem_rectPixels (clamped_endsOnDisplay hs x0 y0 x1 y1)

theorem exec_putLine_outOfBounds_iff {s : State} {params : Byte} (hin : s.inited = true)
    (hs : Legal s) (hp : params.toNat ≤ 3) (x0 y0 x1 y1 : Coord) :
    exec (.putLine params x0 y0 x1 y1) s = raise .outOfBounds s ↔
      oobLine s.openParams.lineOob (s.clamped x0 y0 x1 y1) = true := by
  rw [exec_putLine hin hp]
  exact raise_or_draw_eq_outOfBounds_iff hs _ (linePixels_ne_nil _) fun p =>
    onDisplay_of_mem_linePixels (clamped_endsOnDisplay hs x0 y0 x1 y1)

/-- Settles O16: the checks in their order, and a drawing is no OutOfBounds. -/
theorem putRectErrors : Obligations.PutRectErrors := by
  intro s params x0 y0 x1 y1
  refine ⟨fun hin => ?refused, fun hin hp => (exec_drawing_invalidParams hin hp x0 y0 x1 y1).1,
    fun hin hs hp => ?outOfBounds⟩
  case refused =>
    obtain ⟨-, -, -, htwoPoint, -⟩ := commandsBeforeInitAreRefused s hin
    exact (htwoPoint params x0 y0 x1 y1).1
  case outOfBounds =>
    exact (exec_putRect_outOfBounds_iff hin hs hp x0 y0 x1 y1).trans
      (oobRect_clamped hs x0 y0 x1 y1)

/-- Settles O19: as for PUT_RECT, with the test of either reading. -/
theorem putLineErrors : Obligations.PutLineErrors := by
  intro s params x0 y0 x1 y1
  refine ⟨fun hin => ?refused, fun hin hp => (exec_drawing_invalidParams hin hp x0 y0 x1 y1).2,
    fun hin hs hp hrule => ?perAxis, fun hin hs hp hrule => ?perEndpoint⟩
  case refused =>
    obtain ⟨-, -, -, htwoPoint, -⟩ := commandsBeforeInitAreRefused s hin
    exact (htwoPoint params x0 y0 x1 y1).2
  case perAxis =>
    have hiff := exec_putLine_outOfBounds_iff hin hs hp x0 y0 x1 y1
    rw [hrule] at hiff
    exact hiff.trans (oobLine_perAxis hs x0 y0 x1 y1)
  case perEndpoint =>
    have hiff := exec_putLine_outOfBounds_iff hin hs hp x0 y0 x1 y1
    rw [hrule] at hiff
    exact hiff.trans (oobLine_perEndpoint hs x0 y0 x1 y1)

/-! ### What a drawing paints (R154, R155, R160) -/

/-- A PUT_RECT within bounds gives the pixels of its list their colour. -/
theorem exec_putRect_paints {s : State} {params : Byte} {x0 y0 x1 y1 : Coord}
    {region : Nat → Nat → Prop} (hin : s.inited = true) (hs : Legal s) (hfb : s.fb.wf)
    (hp : params.toNat ≤ 3)
    (hout : ¬(Outside x0 s.width.toNat ∧ Outside y0 s.height.toNat ∧ Outside x1 s.width.toNat ∧
      Outside y1 s.height.toNat)) (hq : NotPreempted s)
    (hregion : ∀ x y, (x, y) ∈ rectPixels (paramsFill params) (s.clamped x0 y0 x1 y1) ↔
      region x y) :
    ∃ t : State, exec (.putRect params x0 y0 x1 y1) s = .next t ∧
      t = { s with fb := t.fb, result := 0#32, todo := [] } ∧
      (∀ a, s.width.toNat * s.numPages.toNat ≤ a → t.fb.read a = s.fb.read a) ∧
      ∀ x y : Nat, x < s.width.toNat → y < s.height.toNat →
        (region x y → getPixel t x y = params.getLsbD 0) ∧
        (¬region x y → getPixel t x y = getPixel s x y) :=
  exec_paints_region
    (exec_putRect_draws hin (paramsLegal_iff.2 hp)
      (Bool.eq_false_iff.2 (mt (oobRect_clamped hs x0 y0 x1 y1).1 hout)))
    hs hfb hq (rectPixels_ne_nil _ _)
    (fun _ => onDisplay_of_mem_rectPixels (clamped_endsOnDisplay hs x0 y0 x1 y1)) hregion

/-- Settles O17: the list of a filled rectangle is its box. -/
theorem filledRectPaintsItsBox : Obligations.FilledRectPaintsItsBox := by
  intro s params x0 y0 x1 y1 hin hs hfb hp hfill hout hq
  refine exec_putRect_paints hin hs hfb hp hout hq fun x y => ?_
  obtain ⟨hx0, hy0, hx1, hy1⟩ := clamped_eq_nearest hs x0 y0 x1 y1
  rw [mem_rectPixels, paramsFill, hfill, ← hx0, ← hy0, ← hx1, ← hy1]
  simp only [reduceCtorEq, false_implies, and_true]
  omega

/-- Settles O18: the list of an outline rectangle is the perimeter of its box. -/
theorem outlineRectPaintsItsPerimeter : Obligations.OutlineRectPaintsItsPerimeter := by
  intro s params x0 y0 x1 y1 hin hs hfb hp hfill hout hq
  refine exec_putRect_paints hin hs hfb hp hout hq fun x y => ?_
  obtain ⟨hx0, hy0, hx1, hy1⟩ := clamped_eq_nearest hs x0 y0 x1 y1
  rw [mem_rectPixels, paramsFill, hfill, ← hx0, ← hy0, ← hx1, ← hy1]
  simp only [true_implies]
  omega

/-- Settles O20: the list of a line is the set of the closed forms. -/
theorem putLinePaintsTheLine : Obligations.PutLinePaintsTheLine := by
  intro s params x0 y0 x1 y1 hin hs hfb hp haxis hendpoint hq
  have hbounds : oobLine s.openParams.lineOob (s.clamped x0 y0 x1 y1) = false := by
    refine Bool.eq_false_iff.2 ?_
    cases hrule : s.openParams.lineOob with
    | perAxis => exact mt (oobLine_perAxis hs x0 y0 x1 y1).1 (not_or.2 (haxis hrule))
    | perEndpoint => exact mt (oobLine_perEndpoint hs x0 y0 x1 y1).1 (not_or.2 (hendpoint hrule))
  have hexec := exec_putLine hin hp x0 y0 x1 y1
  rw [hbounds, if_neg Bool.false_ne_true] at hexec
  refine exec_paints_region hexec hs hfb hq (linePixels_ne_nil _)
    (fun _ => onDisplay_of_mem_linePixels (clamped_endsOnDisplay hs x0 y0 x1 y1)) fun x y => ?_
  obtain ⟨hx0, hy0, hx1, hy1⟩ := clamped_eq_nearest hs x0 y0 x1 y1
  rw [mem_linePixels_iff_onLine, hx0, hy0, hx1, hy1]

/-! ### Every drawing, whatever the turn (R170, R171) -/

/-- PUT_RECT and PUT_LINE raise an error or draw pixels of the display, the same in every
turn: only the order is the environment's choice. -/
theorem exec_drawing {s : State} (hin : s.inited = true) (hs : Legal s) {params : Byte}
    {x0 y0 x1 y1 : Coord} {i : Instr}
    (hi : i = .putRect params x0 y0 x1 y1 ∨ i = .putLine params x0 y0 x1 y1) :
    (∃ c, ∀ h, exec i { s with choice := h } = raise c { s with choice := h }) ∨
    ∃ l on, l ≠ [] ∧ (∀ p ∈ l, s.OnDisplay p) ∧
      ∀ h, exec i { s with choice := h } = draw l on { s with choice := h } := by
  have hc := clamped_endsOnDisplay hs x0 y0 x1 y1
  by_cases hp : params.toNat ≤ 3
  · rcases hi with rfl | rfl
    · have hexec (h) := exec_putRect (s := { s with choice := h }) hin hp x0 y0 x1 y1
      by_cases hoob : oobRect (s.clamped x0 y0 x1 y1) = true
      · exact .inl ⟨_, fun h => (hexec h).trans (if_pos hoob)⟩
      · exact .inr ⟨_, _, rectPixels_ne_nil _ _, fun _ => onDisplay_of_mem_rectPixels hc,
          fun h => (hexec h).trans (if_neg hoob)⟩
    · have hexec (h) := exec_putLine (s := { s with choice := h }) hin hp x0 y0 x1 y1
      by_cases hoob : oobLine s.openParams.lineOob (s.clamped x0 y0 x1 y1) = true
      · exact .inl ⟨_, fun h => (hexec h).trans (if_pos hoob)⟩
      · exact .inr ⟨_, _, linePixels_ne_nil _, fun _ => onDisplay_of_mem_linePixels hc,
          fun h => (hexec h).trans (if_neg hoob)⟩
  · refine .inl ⟨.invalidParams, fun h => ?_⟩
    obtain ⟨hrect, hline⟩ := exec_drawing_invalidParams (s := { s with choice := h }) hin
      (Nat.not_le.1 hp) x0 y0 x1 y1
    rcases hi with rfl | rfl
    · exact hrect
    · exact hline

/-- Settles O24: an error touches no byte, a drawing stays inside wherever it is preempted. -/
theorem drawingStaysInsideTheFramebuffer : Obligations.DrawingStaysInsideTheFramebuffer := by
  intro s params x0 y0 x1 y1 i hin hs hfb hi
  rcases exec_drawing hin hs hi with ⟨c, herr⟩ | ⟨l, on, hne, hl, hdraw⟩
  · exact ⟨_, herr s.choice, rfl, fun a _ => rfl, fun m hm => absurd hm List.not_mem_nil⟩
  · obtain ⟨t, ht, hframe, hbytes, hleft⟩ := draw_confined hs hfb on hne hl
    exact ⟨t, (hdraw s.choice).trans ht, hframe, hbytes, hleft⟩

/-- Settles O25: an error paints nothing, and two orders of a drawing are permutations of each
other. -/
theorem drawingOrderDoesNotMatter : Obligations.DrawingOrderDoesNotMatter := by
  intro s params x0 y0 x1 y1 i o₁ o₂ hin hs hfb hi
  rcases exec_drawing hin hs hi with ⟨c, herr⟩ | ⟨l, on, hne, hl, hdraw⟩
  · exact ⟨_, _, herr _, herr _, rfl, rfl⟩
  · have hend (o : List Nat) := draw_of_notPreempted
      (s := { s with choice := { quantum := none, order := o } }) hs rfl on hne hl
    have hperm := (reorder_perm o₁ l).trans (reorder_perm o₂ l).symm
    exact ⟨_, _, (hdraw _).trans (hend o₁), (hdraw _).trans (hend o₂),
      Memory.paintAll_perm hfb _ on hperm, rfl⟩

end Sys2Proof.Machine

/-! PROOFS. Reset and hazards (70_reset_and_hazards.md): with no bus request and no event pending, IRQ
and BUS have no step, so a quiescent block stays quiescent, and a command held at its acquire stays
there. -/

namespace Sys2Proof.Machine

/-! ### A turn in which nothing is pending (R213, R215) -/

/-- Inside a command HOST goes on with what is left of it (R216). -/
theorem hostFetch_todo {u : State} {m : Micro} {ms : List Micro} (htodo : u.todo = m :: ms) :
    hostFetch u = .answer (runTodo u.choice.quantum (m :: ms) u) := by
  simp [hostFetch, htodo]

/-- A HOST turn, listed or of the free continuation, at an acquire with the lock Held (R111): only the
turn and its choices are consumed. -/
theorem step_of_host_acquire_held {s : State} {h : HostTurn} {ms : List Micro}
    (hturn : turnOf s = .host h) (htodo : s.todo = .acquire :: ms) (hlock : s.lock = .held) :
    step s = .next (s.hostTurn h) := by
  have hfetch : hostFetch (s.hostTurn h) =
      .answer (runTodo h.quantum (.acquire :: ms) (s.hostTurn h)) := hostFetch_todo htodo
  calc step s = (hostFetch (s.hostTurn h)).outcome := by
        rw [step_eq, fetch, hturn, State.hostTurn]
    _ = runTodo h.quantum (.acquire :: ms) (s.hostTurn h) := by rw [hfetch, Fetched.outcome]
    _ = .next { s.hostTurn h with todo := .acquire :: ms } := runTodo_acquire_held hlock
    _ = .next (s.hostTurn h) := by rw [← htodo]; rfl

/-- An IRQ turn, listed or of the free continuation, with no event pending (R87). -/
theorem step_of_irq_noEvent {s : State} (hturn : turnOf s = .irq) (hevt : s.evtPending = false) :
    step s = .next s.passTurn := by
  have hfetch : irqFetch s.passTurn = .answer (.next s.passTurn) :=
    irqFetch_hold ((irqReady_eq_false_iff s.passTurn).2 (.inl hevt))
  rw [step_eq, fetch, hturn, hfetch, Fetched.outcome]

/-- A BUS turn, listed or of the free continuation, with no START, STOP or byte to send (R101 to
R103). -/
theorem step_of_bus_noRequest {s : State} (hturn : turnOf s = .bus) (hstart : s.startReq = false)
    (hstop : s.stopReq = false) (htx : s.txPending = false) : step s = .next s.passTurn := by
  have hbus : busStep s.passTurn = s.passTurn :=
    busStep_hold ((busStopReady_eq_false_iff s.passTurn).2 (.inl hstop))
      ((busStartReady_eq_false_iff s.passTurn).2 (.inl hstart))
      ((busByteReady_eq_false_iff s.passTurn).2 (.inl htx))
  rw [step_eq, fetch, hturn, Fetched.outcome, hbus]

/-! ### Quiescence (R215) -/

/-- Quiescence does not look at the inputs. -/
theorem Quiescent.passTurn {s : State} (hq : Quiescent s) : Quiescent s.passTurn := hq

/-- Settles O57: a quiescent block has no event for IRQ and no request for BUS. -/
theorem quiescentBlockStaysPut : Obligations.QuiescentBlockStaysPut := by
  intro s tn ts hq hturns htn
  have ⟨_, _, hstart, hstop, htx, hevt, _, _⟩ := hq
  have hturn : turnOf s = tn := turnOf_of_turns hturns
  have hstep : step s = .next s.passTurn := by
    rcases htn with rfl | rfl
    · exact step_of_irq_noEvent hturn hevt
    · exact step_of_bus_noRequest hturn hstart hstop htx
  rw [← passTurn_of_turns hturns]
  exact ⟨hstep, hq.passTurn⟩

/-! ### The lock deadlock (R206, R213) -/

/-- Settles O58, agent by agent: HOST holds at the acquire, IRQ has no event, BUS no request. The
hold is a turn that changes only the inputs (logs 3, 4). -/
theorem lockDeadlockIsForEver : Obligations.LockDeadlockIsForEver := by
  intro s ms htodo hlock _ hstart hstop htx hevt
  cases hturn : turnOf s with
  | host h => exact ⟨_, step_of_host_acquire_held hturn htodo hlock, rfl⟩
  | irq => exact ⟨_, step_of_irq_noEvent hturn hevt, rfl⟩
  | bus => exact ⟨_, step_of_bus_noRequest hturn hstart hstop htx, rfl⟩

end Sys2Proof.Machine
